-- ==== Sys2Proof/Word.lean ====
section
/-! DEFINITION. The engine's word and byte types (00_scope.md section 5, "Bits, bytes, words"). -/

namespace Sys2Proof

/-- A word: 32 bits, unsigned, bit 0 least significant. -/
abbrev Word := BitVec 32

/-- A byte: 8 bits, unsigned. -/
abbrev Byte := BitVec 8

/-- A 64-bit host register value or bit length. -/
abbrev Quad := BitVec 64

end Sys2Proof
end

