-- ==== Sys2Proof/Config.lean ====
section
/-! DEFINITION. The parameters of 00_scope.md R5 that are open or that the spec describes with an alternative, and the free values. -/

namespace Sys2Proof

/-- `EMPTY_POLICY` (R5, R95): what a zero-length message does. -/
inductive EmptyPolicy where
  | reject
  | accept
  deriving DecidableEq, Repr

/-- `STEP_GRANULARITY` (R5, R81, D25): how much of a command one step of the machine runs.
`command`: all of it; `sequencer`: one row of R82's table; `round`: as `sequencer`, with the
SCHED and COMPRESS of a block cut into LDW, EXPAND, CINIT, each ROUND, and FEEDBACK. -/
inductive StepGranularity where
  | command
  | sequencer
  | round
  deriving DecidableEq, Repr

/-- The configuration of one engine; no step changes it. `addrWidth` is `ADDR_WIDTH`
(default 64, log entry 1), `emptyPolicy` is `EMPTY_POLICY` (the spec's value is `reject`,
log entry 19), `granularity` is `STEP_GRANULARITY` (log entry 10). -/
structure Config where
  addrWidth   : Nat := 64
  emptyPolicy : EmptyPolicy := .reject
  granularity : StepGranularity := .command
  deriving DecidableEq, Repr

/-- The free values (93_implementation_defined.md U6, U10): `freeValue n` is the `n`-th value
drawn, of which nothing is known. Log entries 3, 9 and 15. -/
opaque Config.freeValue : Nat → Quad

end Sys2Proof
end

