-- ==== Sys2Proof/Syntax.lean ====
section
/-! DEFINITION. The instructions: one constructor per row of spec/opcode_table.json. -/

namespace Sys2Proof

/-- The host registers by name (10_state.md section 3, 30_encoding.md R48); `unlisted n` is a
reference number that names no register. -/
inductive HostReg where
  | cmd
  | status
  | msgBase
  | msgLen
  | blocks
  | digest (j : Fin 32)
  | unlisted (n : BitVec 8)
  deriving DecidableEq, Repr

/-- Every operation of the opcode table. `digest` and `reserved` are command values (R45 to R47),
`wr` and `rd` host transactions (R48); the others are sequencer steps and function units, which
no word encodes (R49). -/
inductive Instr where
  /-- `DIGEST` (R82). -/
  | digest
  /-- `RESERVED` (R47): a command value other than `0x01`, wider bus values included (R45). -/
  | reserved (op : Quad)
  /-- `WR reg, data` (R48). -/
  | wr (reg : HostReg) (data : Quad)
  /-- `RD reg` (R48). -/
  | rd (reg : HostReg)
  /-- `CHECK` (R83). -/
  | check
  /-- `INIT` (R84). -/
  | init
  /-- `ABSORB` (R85). -/
  | absorb
  /-- `TAIL` (R86). -/
  | tail
  /-- `PADLEN` (R87 to R90). -/
  | padlen
  /-- `PADCOMP` (R91). -/
  | padcomp
  /-- `SERIALIZE` (R92). -/
  | serialize
  /-- `SCHED` (R73). -/
  | sched
  /-- `LDW` (R71). -/
  | ldw
  /-- `EXPAND` (R72). -/
  | expand
  /-- `COMPRESS` (R79). -/
  | compress
  /-- `CINIT` (R76). -/
  | cinit
  /-- `ROUND t` (R77). -/
  | round (t : Fin 64)
  /-- `FEEDBACK` (R78). -/
  | feedback
  /-- `ADD32(x, y)` (R60). -/
  | add32 (x y : Word)
  /-- `ROTR(x, n)` (R61). -/
  | rotr (x : Word) (n : Nat)
  /-- `SHR(x, n)` (R62). -/
  | shr (x : Word) (n : Nat)
  /-- `CH(x, y, z)` (R63). -/
  | ch (x y z : Word)
  /-- `MAJ(x, y, z)` (R64). -/
  | maj (x y z : Word)
  /-- `BSIG0(x)` (R65). -/
  | bsig0 (x : Word)
  /-- `BSIG1(x)` (R66). -/
  | bsig1 (x : Word)
  /-- `SSIG0(x)` (R67). -/
  | ssig0 (x : Word)
  /-- `SSIG1(x)` (R68). -/
  | ssig1 (x : Word)
  deriving DecidableEq, Repr

/-- Operations the host can issue; all others are selected by the sequencer position or are fixed
wiring inside a step (R49). -/
def Instr.hostIssued : Instr → Bool
  | .digest | .reserved _ | .wr _ _ | .rd _ => true
  | .check | .init | .absorb | .tail | .padlen | .padcomp | .serialize => false
  | .sched | .ldw | .expand | .compress | .cinit | .round _ | .feedback => false
  | .add32 _ _ | .rotr _ _ | .shr _ _ | .ch _ _ _ | .maj _ _ _ => false
  | .bsig0 _ | .bsig1 _ | .ssig0 _ | .ssig1 _ => false

end Sys2Proof
end

