-- ==== Sys2Proof/WellFormed.lean ====
section
/-! DEFINITION. What a well-formed instruction is, and which host transactions a program may hold. -/

namespace Sys2Proof

/-- Reference number `n` names a register (10_state.md section 3). -/
def listedReg (n : BitVec 8) : Bool :=
  n.toNat ≤ 4 || (0x20 ≤ n.toNat && n.toNat < 0x40)

/-- A register operand is in its one canonical form: a listed number has its own constructor. -/
def HostReg.wf : HostReg → Bool
  | .unlisted n => !listedReg n
  | .cmd | .status | .msgBase | .msgLen | .blocks | .digest _ => true

/-- Registers a `WR` may name (10_state.md section 3, column "access"). -/
def HostReg.writable : HostReg → Bool
  | .cmd | .msgBase | .msgLen => true
  | .status | .blocks | .digest _ | .unlisted _ => false

/-- Registers a `RD` may name. -/
def HostReg.readable : HostReg → Bool
  | .status | .msgBase | .msgLen | .blocks | .digest _ => true
  | .cmd | .unlisted _ => false

/-- Well-formed instructions: `RESERVED` is every command value other than `0x01` (R47), and
register operands are canonical. -/
def Instr.wf : Instr → Bool
  | .reserved op => op ≠ 1
  | .wr reg _ => reg.wf
  | .rd reg => reg.wf
  | .digest => true
  | .check | .init | .absorb | .tail | .padlen | .padcomp | .serialize => true
  | .sched | .ldw | .expand | .compress | .cinit | .round _ | .feedback => true
  | .add32 _ _ | .rotr _ _ | .shr _ _ | .ch _ _ _ | .maj _ _ _ => true
  | .bsig0 _ | .bsig1 _ | .ssig0 _ | .ssig1 _ => true

/-- What a host program may hold (R48, U7: "a model should refuse a program that contains one" that
is not): an instruction the host can issue, a register with the right access, and for `MSG_BASE` a
value below `2^ADDR_WIDTH`. What the engine does on the others is in Machine/HostAccess.lean
(log entry 4). -/
def Instr.legal (cfg : Config) : Instr → Bool
  | .wr .msgBase data => data.toNat < 2 ^ cfg.addrWidth
  | .wr reg _ => reg.wf && reg.writable
  | .rd reg => reg.wf && reg.readable
  | i => i.hostIssued && i.wf

end Sys2Proof
end

