-- ==== Sys2Proof/Decode.lean ====
section
/-! DEFINITION. Decoding of what the host presents to the engine, and the encoder (30_encoding.md section 1). -/

namespace Sys2Proof

/-- What the host presents: a value written to `CMD` over its bus (R45), or one 80-bit host
transaction word (R48). -/
inductive HostWord where
  | command (v : Quad)
  | transaction (w : BitVec 80)
  deriving DecidableEq, Repr

/-- Why a word is no instruction. -/
inductive DecodeError where
  /-- The `kind` field is neither `0x00` nor `0x01` (R48: "other values are not transactions"). -/
  | notATransaction (kind : BitVec 8)
  /-- A `RD` word whose `data` field is not 0 (R48). -/
  | readDataNotZero (reg : HostReg) (data : Quad)
  deriving DecidableEq, Repr

/-- A register by its reference number (R48). -/
def decodeReg (n : BitVec 8) : HostReg :=
  if h : 0x20 ≤ n.toNat ∧ n.toNat < 0x40 then .digest ⟨n.toNat - 0x20, by omega⟩
  else if n = 0x00 then .cmd
  else if n = 0x01 then .status
  else if n = 0x02 then .msgBase
  else if n = 0x03 then .msgLen
  else if n = 0x04 then .blocks
  else .unlisted n

/-- The command a `CMD` value stands for: `0x01` is `DIGEST`, every other value is reserved
(R46, R47). -/
def decodeCommand (v : Quad) : Instr :=
  if v = 1 then .digest else .reserved v

/-- `kind[79:72]`, `reg[71:64]`, `data[63:0]` (R48). -/
def htKind (w : BitVec 80) : BitVec 8 := w.extractLsb' 72 8
def htReg (w : BitVec 80) : BitVec 8 := w.extractLsb' 64 8
def htData (w : BitVec 80) : Quad := w.extractLsb' 0 64

/-- A host transaction word (R48). -/
def decodeTransaction (w : BitVec 80) : Except DecodeError Instr :=
  if htKind w = 0x01 then .ok (.wr (decodeReg (htReg w)) (htData w))
  else if htKind w = 0x00 then
    if htData w = 0 then .ok (.rd (decodeReg (htReg w)))
    else .error (.readDataNotZero (decodeReg (htReg w)) (htData w))
  else .error (.notATransaction (htKind w))

/-- Decoding, total on every word the host can present. -/
def decode : HostWord → Except DecodeError Instr
  | .command v => .ok (decodeCommand v)
  | .transaction w => decodeTransaction w

/-- The fixed name the host asks with: an 8-bit word is a value written to `CMD`, an 80-bit word a
host transaction. No other row of the table has a word (R49). -/
def decodeTableWord (nbits w : Nat) : Option Instr :=
  if nbits = 8 then some (decodeCommand (BitVec.ofNat 64 (w % 256)))
  else if nbits = 80 then (decodeTransaction (BitVec.ofNat 80 w)).toOption
  else none

/-- The reference number of a register (10_state.md section 3). -/
def encodeReg : HostReg → BitVec 8
  | .cmd => 0x00
  | .status => 0x01
  | .msgBase => 0x02
  | .msgLen => 0x03
  | .blocks => 0x04
  | .digest j => BitVec.ofNat 8 (0x20 + j.val)
  | .unlisted n => n

/-- A transaction word from its three fields (R48). -/
def packTransaction (kind reg : BitVec 8) (data : Quad) : BitVec 80 := kind ++ (reg ++ data)

/-- The encoder: the word of an instruction the host can issue, and none for the others (R49). -/
def encode : Instr → Option HostWord
  | .digest => some (.command 1)
  | .reserved op => some (.command op)
  | .wr reg data => some (.transaction (packTransaction 0x01 (encodeReg reg) data))
  | .rd reg => some (.transaction (packTransaction 0x00 (encodeReg reg) 0))
  | .check | .init | .absorb | .tail | .padlen | .padcomp | .serialize => none
  | .sched | .ldw | .expand | .compress | .cinit | .round _ | .feedback => none
  | .add32 _ _ | .rotr _ _ | .shr _ _ | .ch _ _ _ | .maj _ _ _ => none
  | .bsig0 _ | .bsig1 _ | .ssig0 _ | .ssig1 _ => none

end Sys2Proof
end

