-- ==== Sys2Proof/Machine/State.lean ====
section
/-! DEFINITION. The machine's state, its reset value, and the reasons a step can stop (10_state.md). -/

namespace Sys2Proof.Machine

/-- `STATUS.ERR` (10_state.md R20, 60_exceptions.md R110). -/
inductive Err where
  | none
  | nullRef
  | zeroLen
  | lenOverflow
  | busError
  | illegalCmd
  deriving DecidableEq, Repr

/-- `STATUS.PHASE` (R20). -/
inductive Phase where
  | idle
  | busy
  | done
  | fault
  deriving DecidableEq, Repr

/-- The sequencer position `seq` (R22). -/
inductive Seq where
  | sIdle
  | sCheck
  | sInit
  | sAbsorb
  | sTail
  | sPadlen
  | sPadcomp
  | sSerialize
  | sDone
  | sFault
  deriving DecidableEq, Repr

/-- The position inside one block's `SCHED` and `COMPRESS` at the finest step granularity (R81,
log entry 10); `start` outside them. -/
inductive SubSeq where
  | start
  | ldw
  | expand
  | cinit
  | round
  | feedback
  deriving DecidableEq, Repr

/-- The working registers `a..h` (R13). -/
structure Working where
  a : Word
  b : Word
  c : Word
  d : Word
  e : Word
  f : Word
  g : Word
  h : Word
  deriving DecidableEq, Repr

/-- A 64-byte block (R15), the running state `H[0..7]` (R10), the 64 schedule words, and the
schedule with words that may hold no value (R14). -/
abbrev Block := Vector Byte 64
abbrev Hash := Vector Word 8
abbrev Schedule := Vector Word 64
abbrev ScheduleRegs := Vector (Option Word) 64

/-- Message memory as a list of the bytes the platform admits, by rising address (20_memory.md R37,
log entry 8). -/
abbrev Memory := List Host.Cell

/-- An address region of the platform that is no ordinary memory (R36, U9; log entry 7). -/
structure Region where
  base : Nat
  size : Nat
  deriving DecidableEq, Repr

/-- One action of an agent outside the engine: a host transaction word (R48), a bus write to `CMD`
(R45), a byte written to message memory (R131 step 1, R132), or the reset input asserted and
released (R130, the `RESET` line of R54). -/
inductive HostAction where
  | transaction (w : BitVec 80)
  | command (v : Quad)
  | store (addr : Nat) (b : Byte)
  | reset
  deriving DecidableEq, Repr

/-- A host read and the value it returned; `none` where no value is returned (R48, log entry 4). -/
structure ReadResult where
  reg   : HostReg
  value : Option Quad
  deriving DecidableEq, Repr

/-- Everything the spec gives the machine. `none` in a field of type `Option` is the spec's
"no value" (R27, log entry 2). -/
structure State where
  /-- `MSG_BASE` (R18). -/
  msgBase   : Quad
  /-- `MSG_LEN` (R18). -/
  msgLen    : Quad
  /-- `STATUS.ERR` (R20). -/
  err       : Err
  /-- `BLOCKS` (R21). -/
  blocks    : Option Quad
  /-- `D[0..31]` (R17). -/
  digest    : Option (Vector Byte 32)
  /-- `H[0..7]` (R10). -/
  hash      : Option Hash
  /-- `a..h` (R13). -/
  work      : Option Working
  /-- `W[0..63]` (R14). -/
  sched     : ScheduleRegs
  /-- `B[0..63]` (R15). -/
  block     : Option Block
  /-- `S[0..127]` (R16). -/
  scratch   : Option (Vector Byte 128)
  /-- `seq` (R22); `STATUS.PHASE` is a function of it. -/
  seq       : Seq
  /-- Block index `i` (R22). -/
  i         : Option Nat
  /-- Pad-block index `j` (R22). -/
  j         : Option Nat
  /-- Round index `t` (R22, log entry 25). -/
  t         : Option (Fin 64)
  /-- `nfull`, `rest`, `npad`, `bitLength` (R22). -/
  nfull     : Option Nat
  rest      : Option Nat
  npad      : Option Nat
  bitLength : Option Quad
  /-- `base` and `L`, sampled when the running command was accepted (R82, log entry 13). -/
  base      : Option Quad
  len       : Option Quad
  /-- Position inside a block (R81, log entry 10). -/
  sub       : SubSeq
  /-- A message byte was written during the running command (R132, U10; log entry 9). -/
  disturbed : Bool
  /-- Message memory (R30). -/
  mem       : Memory
  /-- Regions that are no ordinary memory (R36, U9; log entry 7). -/
  devices   : List Region
  /-- The parameters (00_scope.md R5); no step changes them. -/
  cfg       : Config
  /-- What the issuing host has still to do (R54, R136). -/
  program   : List HostAction
  /-- What another agent does before each of the next steps; `none`: nothing (R130, R132, R134). -/
  events    : List (Option HostAction)
  /-- Values returned by reads, of any agent, oldest first (R136, log entry 27). -/
  readLog   : List ReadResult
  /-- The last word put out by a function unit evaluated on its own (log entry 14). -/
  unitOut   : Option Word
  /-- How many free values have been drawn (log entry 15). -/
  freeCount : Nat
  deriving DecidableEq, Repr

/-- No word of `W` holds a value. -/
def noSchedule : ScheduleRegs := Vector.replicate 64 none

/-- The machine after reset (R27, R130): zeros and "no value" as the spec gives them; nothing in
memory, nothing pending outside (log entries 8, 11, 12). -/
def State.reset : State where
  msgBase   := 0
  msgLen    := 0
  err       := .none
  blocks    := some 0
  digest    := none
  hash      := none
  work      := none
  sched     := noSchedule
  block     := none
  scratch   := none
  seq       := .sIdle
  i         := none
  j         := none
  t         := none
  nfull     := none
  rest      := none
  npad      := none
  bitLength := none
  base      := none
  len       := none
  sub       := .start
  disturbed := false
  mem       := []
  devices   := []
  cfg       := {}
  program   := []
  events    := []
  readLog   := []
  unitOut   := none
  freeCount := 0

/-- The items that may hold no value. -/
inductive Item where
  | blocks
  | hash
  | work
  | sched
  | block
  | scratch
  | i
  | j
  | t
  | nfull
  | rest
  | npad
  | base
  | len
  deriving DecidableEq, Repr

/-- Why the machine stops. The engine's own faults (R110) are no stops: they are the next state of
R117. -/
inductive Fault where
  /-- A sequencer step read an item that holds no value: "fault on a read, never as 0" (R27).
  Raised by the steps of Machine/Schedule, Compression and Driver; safe (log entry 2). -/
  | noValue (item : Item)
  /-- `PADCOMP` with a pad-block index that is not 0 or 1 (R22): `S` has no such block. Raised by
  `execPadcomp`; safe (log entry 21). -/
  | noSuchPadBlock
  deriving DecidableEq, Repr

/-- What the model gives no meaning. -/
inductive Refusal where
  /-- An instruction without a meaning in `exec`; safe. -/
  | notModelled (mnemonic : String)
  /-- An access to an engine register while `PHASE` is `BUSY`, other than a read of `STATUS`
  (R134, U8: refuse). Raised by the host accesses; safe (log entry 6). -/
  | accessWhileBusy
  /-- An address in a region with side effects: outside the spec (R36, U9: refuse). Raised by
  message reads and by memory writes; safe (log entry 7). -/
  | deviceAccess (addr : Nat)
  /-- A transaction word whose `kind` is neither read nor write (R48, U7: refuse). Raised by the
  fetch of a host action; safe (log entry 5). -/
  | notATransaction (kind : BitVec 8)
  deriving DecidableEq, Repr

/-- The outcome of an instruction or of a step. -/
abbrev Result := Host.Outcome State Fault Refusal

end Sys2Proof.Machine
end

