-- ==== Sys2Proof/Machine/Bytes.lean ====
section
/-! DEFINITION. Big-endian packing (00_scope.md section 5, 20_memory.md R33). -/

namespace Sys2Proof.Machine

/-- `be32(b0, b1, b2, b3)`: most significant byte first. -/
def be32 (b0 b1 b2 b3 : Byte) : Word := b0 ++ b1 ++ b2 ++ b3

/-- Byte `k` of `be32_bytes(w)`: bits `[31-8k : 24-8k]` (R55), for `k < 4`. -/
def be32Byte (w : Word) (k : Nat) : Byte := w.extractLsb' (24 - 8 * k) 8

/-- Byte `k` of `be64_bytes(v)`: bits `[63-8k : 56-8k]` (R53), for `k < 8`. -/
def be64Byte (v : Quad) (k : Nat) : Byte := v.extractLsb' (56 - 8 * k) 8

/-- A fixed-size byte buffer from the first `n` bytes of a list, zero beyond its end. -/
def toBuffer (n : Nat) (bs : List Byte) : Vector Byte n := Vector.ofFn fun k => bs.getD k.val 0

end Sys2Proof.Machine
end

