-- ==== Sys2Proof/Machine/Flags.lean ====
section
/-! DEFINITION. STATUS (10_state.md R20, R22). The engine has no condition codes (R26). -/

namespace Sys2Proof.Machine

/-- `PHASE` as a function of `seq` (R22). -/
def Seq.phase : Seq → Phase
  | .sIdle => .idle
  | .sDone => .done
  | .sFault => .fault
  | .sCheck | .sInit | .sAbsorb | .sTail | .sPadlen | .sPadcomp | .sSerialize => .busy

/-- `STATUS.PHASE` (R20). -/
def State.phase (s : State) : Phase := s.seq.phase

/-- Code of a phase in `STATUS[1:0]` (R20). -/
def phaseCode : Phase → BitVec 2
  | .idle => 0
  | .busy => 1
  | .done => 2
  | .fault => 3

/-- Code of a cause in `STATUS[4:2]` (R20, R110). -/
def errCode : Err → BitVec 3
  | .none => 0
  | .nullRef => 1
  | .zeroLen => 2
  | .lenOverflow => 3
  | .busError => 4
  | .illegalCmd => 5

/-- The `STATUS` byte: `PHASE` in bits 1:0, `ERR` in bits 4:2, bits 7:5 zero (R20). -/
def statusByte (s : State) : Byte := (0 : BitVec 3) ++ (errCode s.err ++ phaseCode s.phase)

end Sys2Proof.Machine
end

