-- ==== Sys2Proof/Machine/Tables.lean ====
section
/-! DEFINITION. The read-only tables K and IV (10_state.md R11, R12; log entry 16) and the decided limits of 00_scope.md R5. -/

namespace Sys2Proof.Machine

/-- Word `n` of a table given as the spec prints it: rows of four words, left to right, each row one
128-bit number. -/
def tableWord (rows : List Nat) (n : Nat) : Word :=
  BitVec.ofNat 32 (rows.getD (n / 4) 0 >>> (32 * (3 - n % 4)))

/-- The 16 rows of R11's table of `K`. -/
def roundConstantRows : List Nat :=
  [0x428a2f98_71374491_b5c0fbcf_e9b5dba5,
   0x3956c25b_59f111f1_923f82a4_ab1c5ed5,
   0xd807aa98_12835b01_243185be_550c7dc3,
   0x72be5d74_80deb1fe_9bdc06a7_c19bf174,
   0xe49b69c1_efbe4786_0fc19dc6_240ca1cc,
   0x2de92c6f_4a7484aa_5cb0a9dc_76f988da,
   0x983e5152_a831c66d_b00327c8_bf597fc7,
   0xc6e00bf3_d5a79147_06ca6351_14292967,
   0x27b70a85_2e1b2138_4d2c6dfc_53380d13,
   0x650a7354_766a0abb_81c2c92e_92722c85,
   0xa2bfe8a1_a81a664b_c24b8b70_c76c51a3,
   0xd192e819_d6990624_f40e3585_106aa070,
   0x19a4c116_1e376c08_2748774c_34b0bcb5,
   0x391c0cb3_4ed8aa4a_5b9cca4f_682e6ff3,
   0x748f82ee_78a5636f_84c87814_8cc70208,
   0x90befffa_a4506ceb_bef9a3f7_c67178f2]

/-- `K[t]` (R11). -/
def roundConstant (t : Fin 64) : Word := tableWord roundConstantRows t.val

/-- `IV[0..3]` and `IV[4..7]` (R12). -/
def ivRows : List Nat :=
  [0x6a09e667_bb67ae85_3c6ef372_a54ff53a,
   0x510e527f_9b05688c_1f83d9ab_5be0cd19]

/-- `IV[0..7]` (R12). -/
def iv : Hash := Vector.ofFn fun i => tableWord ivRows i.val

/-- `NULL_BASE` (R5, R18). -/
def nullBase : Quad := 0

/-- `MAX_LEN_BYTES` = 2^61 - 1 (R5, R96). -/
def maxLenBytes : Nat := 2 ^ 61 - 1

end Sys2Proof.Machine
end

