-- ==== Sys2Proof/Machine/Ops.lean ====
section
/-! DEFINITION. The shared operations: sequencing, items without value, message memory, fault entry, reset, free values. -/

namespace Sys2Proof.Machine

/-- Go on with the next state; a stop stays a stop. -/
def andThen (r : Result) (f : State → Result) : Result :=
  match r with
  | .next s => f s
  | .fault x => .fault x
  | .refused x => .refused x

/-- Go on unless the operation raised an engine fault: `raise` ends the running command "and nothing
after it in the pseudocode happens" (00_scope.md section 5, "Faults"). -/
def unlessFault (r : Result) (f : State → Result) : Result :=
  andThen r fun s => if s.seq = .sFault then .next s else f s

/-- Read an item that may hold no value: with none, the read faults (10_state.md R27). -/
def need {α : Type} (x : Option α) (item : Item) (f : α → Result) : Result :=
  match x with
  | some v => f v
  | none => .fault (.noValue item)

/-! ### No value, fault entry, reset -/

/-- `H`, `a..h`, `W`, `B`, `S` and the sequencer's variables become no value (R27 and R117; after
`DONE`: R92, D23). -/
def discardInternals (s : State) : State :=
  { s with
    hash := none, work := none, sched := noSchedule, block := none, scratch := none
    i := none, j := none, t := none, nfull := none, rest := none, npad := none
    bitLength := none, base := none, len := none, sub := .start, disturbed := false }

/-- Fault entry `raise X` (60_exceptions.md R117): `FAULT`, the cause in `ERR`, every result and
internal item without value; `MSG_BASE`, `MSG_LEN` and memory unchanged. There is no return but
reset (R118). -/
def raise (x : Err) (s : State) : State :=
  { discardInternals s with seq := .sFault, err := x, digest := none, blocks := none }

/-- The reset input (70_reset_and_hazards.md R130, 10_state.md R27). Memory and the outside world are
not the engine's and stay. -/
def engineReset (s : State) : State :=
  { discardInternals s with
    seq := .sIdle, err := .none, msgBase := 0, msgLen := 0
    blocks := some 0, digest := none, unitOut := none }

/-! ### Free values -/

/-- Draw one free value (log entries 3 and 15). -/
def drawFree (s : State) : Quad × State :=
  (Config.freeValue s.freeCount, { s with freeCount := s.freeCount + 1 })

/-- 32 free bytes for a digest that is not defined (U10, log entry 9): 32 draws. -/
def freeDigest (n : Nat) : Vector Byte 32 :=
  Vector.ofFn fun k => (Config.freeValue (n + k.val)).setWidth 8

/-! ### Message memory -/

/-- What a read of one byte answers: the byte, `BusError` (R36), or an address whose reads are
outside the spec (U9). -/
inductive MemRead where
  | byte (b : Byte)
  | busError
  | device
  deriving DecidableEq, Repr

/-- The byte listed at an address. -/
def Memory.lookup : Memory → Nat → Option Byte
  | [], _ => none
  | (k, b) :: rest, a => if k = a then some b else Memory.lookup rest a

/-- Overwrite the byte at a listed address; an address that is not listed is not admitted by the
platform and nothing changes (log entry 8). -/
def Memory.write : Memory → Nat → Byte → Memory
  | [], _, _ => []
  | (k, c) :: rest, a, b => if k = a then (k, b) :: rest else (k, c) :: Memory.write rest a b

/-- The canonical form: addresses strictly rising and below `2^ADDR_WIDTH`. An address that is not
listed reads as no value at all, so no entry can equal what an unlisted address reads as. -/
def Memory.wfFrom (limit : Nat) : Nat → Memory → Bool
  | _, [] => true
  | low, (k, _) :: rest => low ≤ k && k < limit && Memory.wfFrom limit (k + 1) rest

def Memory.wf (cfg : Config) (m : Memory) : Bool := Memory.wfFrom (2 ^ cfg.addrWidth) 0 m

/-- The region holds the address. -/
def Region.holds (r : Region) (a : Nat) : Bool := r.base ≤ a && a < r.base + r.size

/-- The address lies in a region that is no ordinary memory. -/
def State.inDevice (s : State) (a : Nat) : Bool := s.devices.any fun r => r.holds a

/-- `MemRead(a, 1)` (20_memory.md R35, R36). `a` is computed without wrap-around. -/
def readByte (s : State) (a : Nat) : MemRead :=
  if 2 ^ s.cfg.addrWidth ≤ a then .busError
  else if s.inDevice a then .device
  else match s.mem.lookup a with
    | some b => .byte b
    | none => .busError

/-- What a read of several bytes answers. -/
inductive MemReads where
  | bytes (bs : List Byte)
  | busError
  | device (addr : Nat)
  deriving DecidableEq, Repr

/-- `MemRead(a, n)`: the single-byte reads `a`, `a+1`, … (R35); the lowest address that is no
ordinary byte decides (log entry 17). -/
def readBytes (s : State) (a : Nat) : Nat → MemReads
  | 0 => .bytes []
  | n + 1 =>
    match readByte s a with
    | .busError => .busError
    | .device => .device a
    | .byte b =>
      match readBytes s (a + 1) n with
      | .bytes bs => .bytes (b :: bs)
      | .busError => .busError
      | .device x => .device x

/-- Read message bytes and go on with them; `BusError` raises `BUS_ERROR` (R36, R114), a device
region is outside the spec (U9). -/
def withMessageBytes (s : State) (a n : Nat) (f : List Byte → Result) : Result :=
  match readBytes s a n with
  | .bytes bs => f bs
  | .busError => .next (raise .busError s)
  | .device x => .refused (.deviceAccess x)

/-- The address is a message byte of the running command (R132). -/
def State.inRunningMessage (s : State) (a : Nat) : Bool :=
  match s.base, s.len with
  | some b, some l => s.phase = .busy && b.toNat ≤ a && a < b.toNat + l.toNat
  | _, _ => false

/-- An agent outside the engine writes one byte of memory. During a command, a write to one of its
message bytes breaks R132, and the digest is then not defined (U10, log entry 9). -/
def storeByte (a : Nat) (b : Byte) (s : State) : Result :=
  if s.inDevice a then .refused (.deviceAccess a)
  else .next { s with
    mem := s.mem.write a b
    disturbed := s.disturbed || s.inRunningMessage a }

end Sys2Proof.Machine
end

