-- ==== Sys2Proof/Machine/Mixing.lean ====
section
/-! DEFINITION. The function units: ADD32, ROTR, SHR and the six mixing primitives (40_mixing_primitives.md). -/

namespace Sys2Proof.Machine

/-- R60. -/
def add32 (x y : Word) : Word := x + y

/-- R61: rotate right by `n mod 32`. -/
def rotr (x : Word) (n : Nat) : Word :=
  if n % 32 = 0 then x else (x >>> (n % 32)) ||| (x <<< (32 - n % 32))

/-- R62: logical shift right by `n mod 32`. -/
def shr (x : Word) (n : Nat) : Word := x >>> (n % 32)

/-- R63. -/
def ch (x y z : Word) : Word := (x &&& y) ^^^ (~~~x &&& z)

/-- R64. -/
def maj (x y z : Word) : Word := (x &&& y) ^^^ (x &&& z) ^^^ (y &&& z)

/-- R65. -/
def bsig0 (x : Word) : Word := rotr x 2 ^^^ rotr x 13 ^^^ rotr x 22

/-- R66. -/
def bsig1 (x : Word) : Word := rotr x 6 ^^^ rotr x 11 ^^^ rotr x 25

/-- R67. -/
def ssig0 (x : Word) : Word := rotr x 7 ^^^ rotr x 18 ^^^ shr x 3

/-- R68. -/
def ssig1 (x : Word) : Word := rotr x 17 ^^^ rotr x 19 ^^^ shr x 10

/-! ### The units evaluated on their own

A unit is wiring: it has no state, no fault and no flag (R49, R69). Its result word appears on
`unitOut` and nothing else changes (log entry 14). -/

/-- The word a unit puts out. -/
def putOut (w : Word) (s : State) : Result := .next { s with unitOut := some w }

/-- R60. -/
def execAdd32 (x y : Word) (s : State) : Result := putOut (add32 x y) s
/-- R61. -/
def execRotr (x : Word) (n : Nat) (s : State) : Result := putOut (rotr x n) s
/-- R62. -/
def execShr (x : Word) (n : Nat) (s : State) : Result := putOut (shr x n) s
/-- R63. -/
def execCh (x y z : Word) (s : State) : Result := putOut (ch x y z) s
/-- R64. -/
def execMaj (x y z : Word) (s : State) : Result := putOut (maj x y z) s
/-- R65. -/
def execBsig0 (x : Word) (s : State) : Result := putOut (bsig0 x) s
/-- R66. -/
def execBsig1 (x : Word) (s : State) : Result := putOut (bsig1 x) s
/-- R67. -/
def execSsig0 (x : Word) (s : State) : Result := putOut (ssig0 x) s
/-- R68. -/
def execSsig1 (x : Word) (s : State) : Result := putOut (ssig1 x) s

end Sys2Proof.Machine
end

