-- ==== Sys2Proof/Machine/Schedule.lean ====
section
/-! DEFINITION. The message schedule expander: LDW, EXPAND, SCHED (41_message_schedule.md). -/

namespace Sys2Proof.Machine

/-- `W[k] = be32(B[4k], B[4k+1], B[4k+2], B[4k+3])` (R71). -/
def blockWord (b : Block) (k : Fin 16) : Word :=
  be32 b[4 * k.val] b[4 * k.val + 1] b[4 * k.val + 2] b[4 * k.val + 3]

/-- `W[t]` from the words before it (R72), for a list that holds `W[0..t-1]`. -/
def nextWord (ws : List Word) (t : Nat) : Word :=
  add32 (add32 (add32 (ssig1 (ws.getD (t - 2) 0)) (ws.getD (t - 7) 0)) (ssig0 (ws.getD (t - 15) 0)))
    (ws.getD (t - 16) 0)

/-- `n` more words, in increasing `t` (R72). -/
@[irreducible] def expandWords : Nat → List Word → List Word
  | 0, ws => ws
  | n + 1, ws => expandWords n (ws ++ [nextWord ws ws.length])

/-- The first 16 words of `W`, if all hold values. -/
def firstWords (w : ScheduleRegs) : Option (List Word) := (w.toList.take 16).mapM id

/-- All 64 words of `W`, if all hold values. -/
def allWords (w : ScheduleRegs) : Option Schedule :=
  if w.toList.all Option.isSome then some (Vector.ofFn fun t => w[t].getD 0) else none

/-- R71: writes `W[0..15]` and nothing else. -/
def ldw (s : State) : Result :=
  need s.block .block fun b =>
    .next { s with
      sched := Vector.ofFn fun t =>
        if h : t.val < 16 then some (blockWord b ⟨t.val, h⟩) else s.sched[t] }

/-- R72: writes `W[16..63]` and nothing else. -/
def expand (s : State) : Result :=
  need (firstWords s.sched) .sched fun ws =>
    .next { s with
      sched := Vector.ofFn fun t =>
        if t.val < 16 then s.sched[t] else some ((expandWords 48 ws).getD t.val 0) }

/-- R73: `LDW` then `EXPAND`. -/
def schedule (s : State) : Result := andThen (ldw s) expand

/-- LDW. -/
def execLdw (s : State) : Result := ldw s
/-- EXPAND. -/
def execExpand (s : State) : Result := expand s
/-- SCHED. -/
def execSched (s : State) : Result := schedule s

end Sys2Proof.Machine
end

