-- ==== Sys2Proof/Machine/Compression.lean ====
section
/-! DEFINITION. The compression function: CINIT, ROUND, FEEDBACK, COMPRESS (42_compression.md). -/

namespace Sys2Proof.Machine

/-- The working registers as copied from `H`, by position (R13, R76). -/
def loadWorking (h : Hash) : Working :=
  ⟨h[0], h[1], h[2], h[3], h[4], h[5], h[6], h[7]⟩

/-- `T1 = h + BSIG1(e) + CH(e,f,g) + K[t] + W[t]` (R77). -/
def roundT1 (k w : Word) (v : Working) : Word :=
  add32 (add32 (add32 (add32 v.h (bsig1 v.e)) (ch v.e v.f v.g)) k) w

/-- `T2 = BSIG0(a) + MAJ(a,b,c)` (R77). -/
def roundT2 (v : Working) : Word := add32 (bsig0 v.a) (maj v.a v.b v.c)

/-- One round: all eight registers at once, from the values before the round (R77, D31). -/
def mixRound (k w : Word) (v : Working) : Working :=
  { a := add32 (roundT1 k w v) (roundT2 v), b := v.a, c := v.b, d := v.c
    e := add32 v.d (roundT1 k w v), f := v.e, g := v.f, h := v.g }

/-- Rounds `0 .. n-1`, in increasing `t` (R79). -/
@[irreducible] def mixRounds (ws : Schedule) : (n : Nat) → n ≤ 64 → Working → Working
  | 0, _, v => v
  | n + 1, h, v => mixRound (roundConstant ⟨n, h⟩) ws[n] (mixRounds ws n (by omega) v)

/-- `H[i] + (a..h by position)` (R78). -/
def addBack (h : Hash) (v : Working) : Hash :=
  #v[add32 h[0] v.a, add32 h[1] v.b, add32 h[2] v.c, add32 h[3] v.d,
     add32 h[4] v.e, add32 h[5] v.f, add32 h[6] v.g, add32 h[7] v.h]

/-- `H' = COMPRESS(H, W)` as a function (R79). -/
def compressHash (h : Hash) (ws : Schedule) : Hash :=
  addBack h (mixRounds ws 64 (by omega) (loadWorking h))

/-- R76: writes `a..h`. -/
def cinit (s : State) : Result :=
  need s.hash .hash fun h => .next { s with work := some (loadWorking h) }

/-- R77: reads `a..h`, `K[t]`, `W[t]`, writes `a..h`. -/
def roundOp (t : Fin 64) (s : State) : Result :=
  need s.work .work fun v =>
    need s.sched[t] .sched fun w =>
      .next { s with work := some (mixRound (roundConstant t) w v) }

/-- R78: writes `H`; the working registers then hold no value. -/
def feedback (s : State) : Result :=
  need s.hash .hash fun h =>
    need s.work .work fun v => .next { s with hash := some (addBack h v), work := none }

/-- The block counter counts one more, and the schedule just consumed holds no value any more (R79,
R14). -/
def countBlock (s : State) : Result :=
  need s.blocks .blocks fun n => .next { s with blocks := some (n + 1), sched := noSchedule }

/-- R79 as one operation on the state. -/
def compress (s : State) : Result :=
  need s.hash .hash fun h =>
    need (allWords s.sched) .sched fun ws =>
      countBlock { s with hash := some (compressHash h ws), work := none }

/-- CINIT. -/
def execCinit (s : State) : Result := cinit s
/-- ROUND t. -/
def execRound (t : Fin 64) (s : State) : Result := roundOp t s
/-- FEEDBACK. -/
def execFeedback (s : State) : Result := feedback s
/-- COMPRESS. -/
def execCompress (s : State) : Result := compress s

end Sys2Proof.Machine
end

