-- ==== Sys2Proof/Machine/Operands.lean ====
section
/-! DEFINITION. The operand forms: the host registers as read and written (10_state.md section 3), and the command's sampled operands. -/

namespace Sys2Proof.Machine

/-- The value a `RD` returns outside `BUSY`, where the spec defines one: `STATUS`, `MSG_BASE` and
`MSG_LEN` always; `BLOCKS` in `DONE` and in the reset state; `D[j]` in `DONE` (R17, R18, R20, R21,
R133). -/
def definedRead (reg : HostReg) (s : State) : Option Quad :=
  match reg with
  | .status => some ((statusByte s).setWidth 64)
  | .msgBase => some s.msgBase
  | .msgLen => some s.msgLen
  | .blocks =>
    match s.phase with
    | .idle | .done => s.blocks
    | .busy | .fault => none
  | .digest j =>
    match s.phase with
    | .done => s.digest.map fun d => d[j].setWidth 64
    | .idle | .busy | .fault => none
  | .cmd | .unlisted _ => none

/-- The width of a register as read: a `D[j]` is a byte (R17), `BLOCKS` has 64 bits (R21). -/
def cutToWidth (reg : HostReg) (v : Quad) : Quad :=
  match reg with
  | .digest _ => (v.setWidth 8).setWidth 64
  | .blocks | .status | .msgBase | .msgLen | .cmd | .unlisted _ => v

/-- The host read of a register returned a value, or none (R48, R136). DESIGN CHOICE: one log holds the
reads of the issuing host and of other agents alike (log entry 27). -/
def logRead (reg : HostReg) (v : Option Quad) (s : State) : State :=
  { s with readLog := s.readLog ++ [{ reg := reg, value := v }] }

/-- A host read outside `BUSY`. A register the host may not read returns no value (R48, log entry
4); a readable one with no defined value returns a free value of its width (U6, log entry 3). -/
def readRegister (reg : HostReg) (s : State) : State :=
  match reg with
  | .cmd | .unlisted _ => logRead reg none s
  | .status | .msgBase | .msgLen | .blocks | .digest _ =>
    match definedRead reg s with
    | some v => logRead reg (some v) s
    | none => logRead reg (some (cutToWidth reg (drawFree s).1)) (drawFree s).2

/-- A host write to an operand register outside `BUSY` (R18); a value of `MSG_BASE` not below
`2^ADDR_WIDTH` has no effect, nor has a write to any other register than `CMD` (R48, log entry 4). -/
def writeRegister (reg : HostReg) (data : Quad) (s : State) : State :=
  match reg with
  | .msgBase => if data.toNat < 2 ^ s.cfg.addrWidth then { s with msgBase := data } else s
  | .msgLen => { s with msgLen := data }
  | .cmd | .status | .blocks | .digest _ | .unlisted _ => s

/-- A command is accepted: its operands are sampled (R18, R82) and the sequencer leaves its waiting
position for `S_CHECK`; the digest of the command before holds no value from here on (R17). -/
def acceptDigest (s : State) : State :=
  { s with
    seq := .sCheck, base := some s.msgBase, len := some s.msgLen, digest := none
    sub := .start, disturbed := false }

end Sys2Proof.Machine
end

