-- ==== Sys2Proof/Machine/Driver.lean ====
section
/-! DEFINITION. The padding state machine: the seven sequencer steps and the DIGEST command as one function (43_padding_driver.md). -/

namespace Sys2Proof.Machine

/-! ### What each step does to the data (R83 to R92) -/

/-- The first cause that holds, in the fixed order (R83, R116). -/
def argumentError (cfg : Config) (base len : Quad) : Option Err :=
  if base = nullBase then some .nullRef
  else if len = 0 ∧ cfg.emptyPolicy = .reject then some .zeroLen
  else if maxLenBytes < len.toNat then some .lenOverflow
  else none

/-- `CHECK` (R83); `D` and `BLOCKS` become no value first (R82's table). -/
def check (s : State) : Result :=
  need s.base .base fun base =>
    need s.len .len fun len =>
      match argumentError s.cfg base len with
      | some x => .next (raise x s)
      | none => .next { s with
          digest := none, blocks := none
          nfull := some (len.toNat / 64), rest := some (len.toNat % 64) }

/-- `INIT` (R84). -/
def init (s : State) : State := { s with hash := some iv, blocks := some 0, i := some 0 }

/-- `SCHED ; COMPRESS` of a block (R85, R91). -/
def compressBlock (b : Block) (s : State) : Result :=
  andThen (schedule { s with block := some b }) compress

/-- The message bytes of full block `i` (R85). -/
def withFullBlock (s : State) (f : Block → Result) : Result :=
  need s.base .base fun base =>
    need s.i .i fun i =>
      withMessageBytes s (base.toNat + 64 * i) 64 fun bs => f (toBuffer 64 bs)

/-- `ABSORB` of block `i` (R85). -/
def absorbBlock (s : State) : Result := withFullBlock s fun b => compressBlock b s

/-- `S` after `TAIL`: the leftover bytes, the marker `0x80`, zeros (R86). -/
def tailBuffer (rest : Nat) (bs : List Byte) : Vector Byte 128 :=
  Vector.ofFn fun k =>
    if k.val < rest then bs.getD k.val 0 else if k.val = rest then 0x80 else 0x00

/-- `TAIL` (R86). -/
def tail (s : State) : Result :=
  need s.base .base fun base =>
    need s.nfull .nfull fun nfull =>
      need s.rest .rest fun rest =>
        withMessageBytes s (base.toNat + 64 * nfull) rest fun bs =>
          .next { s with scratch := some (tailBuffer rest bs) }

/-- `npad` (R88): two pad blocks when less than 8 bytes remain after the marker. The room is an
integer, as the rule writes it. -/
def padBlocks (rest : Nat) : Nat := if (64 : Int) - (rest + 1) < 8 then 2 else 1

/-- The 8 length bytes at `at'` (R89, R90). -/
def putLength (bitLength : Quad) (at' : Nat) (buf : Vector Byte 128) : Vector Byte 128 :=
  Vector.ofFn fun k =>
    if at' ≤ k.val ∧ k.val < at' + 8 then be64Byte bitLength (k.val - at') else buf[k]

/-- Where the length field starts: the last 8 bytes of the last pad block (R89, R90). -/
def lengthAt (npad : Nat) : Nat := if npad = 2 then 120 else 56

/-- `PADLEN` (R87 to R90). -/
def padlen (s : State) : Result :=
  need s.len .len fun len =>
    need s.rest .rest fun rest =>
      need s.scratch .scratch fun buf =>
        .next { s with
          bitLength := some (len * 8)
          npad := some (padBlocks rest)
          scratch := some (putLength (len * 8) (lengthAt (padBlocks rest)) buf) }

/-- Pad block `j`: `S[64j .. 64j+63]` (R91). -/
def padBlock (buf : Vector Byte 128) (j : Fin 2) : Block :=
  Vector.ofFn fun k => buf[64 * j.val + k.val]

/-- Pad block `j` of the scratch buffer (R91). -/
def withPadBlock (s : State) (f : Block → Result) : Result :=
  need s.scratch .scratch fun buf =>
    need s.j .j fun j => if h : j < 2 then f (padBlock buf ⟨j, h⟩) else .fault .noSuchPadBlock

/-- `PADCOMP` of pad block `j` (R91). -/
def padcompBlock (s : State) : Result := withPadBlock s fun b => compressBlock b s

/-- The digest bytes: each word big-endian, in index order (R92). -/
def digestBytes (h : Hash) : Vector Byte 32 :=
  Vector.ofFn fun k => be32Byte h[k.val / 4] (k.val % 4)

/-- `D` as `SERIALIZE` writes it: of a message that was disturbed it is not defined (U10, log entry
9). -/
def finalDigest (h : Hash) (s : State) : Vector Byte 32 :=
  if s.disturbed then freeDigest s.freeCount else digestBytes h

/-- `SERIALIZE` (R92): `D`, then `S_DONE` with every internal item without value. -/
def serialize (s : State) : Result :=
  need s.hash .hash fun h =>
    .next { discardInternals s with
      digest := some (finalDigest h s)
      freeCount := if s.disturbed then s.freeCount + 32 else s.freeCount
      seq := .sDone }

/-! ### The rows of R82's table: the step and the position after it -/

/-- The position after `CHECK`, `INIT`, `TAIL`. -/
def goTo (q : Seq) (s : State) : Result := .next { s with seq := q }

/-- After the block `i` of `S_ABSORB` (R82): `i` counts on; more full blocks, or `S_TAIL`. -/
def afterAbsorb (s : State) : Result :=
  need s.i .i fun i =>
    need s.nfull .nfull fun nfull =>
      .next { s with i := some (i + 1), seq := if i + 1 < nfull then .sAbsorb else .sTail }

/-- After the pad block `j` of `S_PADCOMP` (R82). After the last one `S` holds no value (R16). -/
def afterPadcomp (s : State) : Result :=
  need s.j .j fun j =>
    need s.npad .npad fun npad =>
      if j + 1 < npad then .next { s with j := some (j + 1), seq := .sPadcomp }
      else .next { s with j := some (j + 1), seq := .sSerialize, scratch := none }

/-- Some full block is left (R82, row `S_ABSORB`). -/
def ifBlocksLeft (s : State) (more none' : Result) : Result :=
  need s.i .i fun i => need s.nfull .nfull fun nfull => if i < nfull then more else none'

/-- Row `S_CHECK`. -/
def execCheck (s : State) : Result := unlessFault (check s) (goTo .sInit)
/-- Row `S_INIT`. -/
def execInit (s : State) : Result := goTo .sAbsorb (init s)
/-- Row `S_ABSORB`: with no full block left, at once on to `S_TAIL`. -/
def execAbsorb (s : State) : Result :=
  ifBlocksLeft s (unlessFault (absorbBlock s) afterAbsorb) (goTo .sTail s)
/-- Row `S_TAIL`. -/
def execTail (s : State) : Result := unlessFault (tail s) (goTo .sPadlen)
/-- Row `S_PADLEN`: then `j <- 0`. -/
def execPadlen (s : State) : Result :=
  andThen (padlen s) fun s => .next { s with j := some 0, seq := .sPadcomp }
/-- Row `S_PADCOMP`. -/
def execPadcomp (s : State) : Result := andThen (padcompBlock s) afterPadcomp
/-- Row `S_SERIALIZE`. -/
def execSerialize (s : State) : Result := serialize s

/-! ### The command as one function (R82) -/

/-- `n` full blocks from block `i` on, in increasing order. -/
def absorbLoop : Nat → State → Result
  | 0, s => .next s
  | n + 1, s =>
    unlessFault (absorbBlock s) fun s =>
      need s.i .i fun i => absorbLoop n { s with i := some (i + 1) }

/-- `n` pad blocks from pad block `j` on. -/
def padLoop : Nat → State → Result
  | 0, s => .next s
  | n + 1, s =>
    andThen (padcompBlock s) fun s =>
      need s.j .j fun j => padLoop n { s with j := some (j + 1) }

/-- The body of an accepted `DIGEST` as one function (R82). -/
def digestBody (s : State) : Result :=
  unlessFault (check s) fun s =>
    unlessFault (need s.nfull .nfull fun n => absorbLoop n (init s)) fun s =>
      unlessFault (tail s) fun s =>
        andThen (padlen s) fun s =>
          andThen (need s.npad .npad fun n => padLoop n { s with j := some 0 }) serialize

/-- An accepted `DIGEST`, run as far as one step goes (R5, D25, log entry 10). -/
def runDigest (s : State) : Result :=
  match s.cfg.granularity with
  | .command => digestBody (acceptDigest s)
  | .sequencer | .round => .next (acceptDigest s)

end Sys2Proof.Machine
end

