-- ==== Sys2Proof/Machine/HostAccess.lean ====
section
/-! DEFINITION. What the host issues: DIGEST, RESERVED, WR and RD (30_encoding.md section 1, 60_exceptions.md). -/

namespace Sys2Proof.Machine

/-- A value written to `CMD`: accepted in `IDLE` and `DONE` (R82, R115), ignored in `FAULT` (R118),
not defined in `BUSY` (U8, log entry 6). -/
def issue (run : State → Result) (s : State) : Result :=
  match s.phase with
  | .idle | .done => run s
  | .fault => .next s
  | .busy => .refused .accessWhileBusy

/-- `DIGEST` (R82). -/
def execDigest (s : State) : Result := issue runDigest s

/-- A reserved command (R47, R115): `ILLEGAL_CMD`. -/
def execReserved (_op : Quad) (s : State) : Result :=
  issue (fun s => .next (raise .illegalCmd s)) s

/-- A write to `CMD` issues the command the value stands for (R19). -/
def writeCommand (v : Quad) (s : State) : Result :=
  if v = 1 then execDigest s else execReserved v s

/-- `WR reg, data` (R48): a command, an operand register, or no effect; while `BUSY` no access is
defined (U8). -/
def execWr (reg : HostReg) (data : Quad) (s : State) : Result :=
  match s.phase with
  | .busy => .refused .accessWhileBusy
  | .idle | .done | .fault =>
    match reg with
    | .cmd => writeCommand data s
    | .status | .msgBase | .msgLen | .blocks | .digest _ | .unlisted _ =>
      .next (writeRegister reg data s)

/-- `RD reg` (R48); while `BUSY` only `STATUS` may be read (R134, U8). -/
def execRd (reg : HostReg) (s : State) : Result :=
  match s.phase with
  | .busy => if reg = .status then .next (readRegister .status s) else .refused .accessWhileBusy
  | .idle | .done | .fault => .next (readRegister reg s)

/-- A `RD` word with data: no effect, and no value returned (R48, log entry 5); while `BUSY` not
defined (U8). -/
def readWithData (reg : HostReg) (s : State) : Result :=
  match s.phase with
  | .busy => .refused .accessWhileBusy
  | .idle | .done | .fault => .next (logRead reg none s)

end Sys2Proof.Machine
end

