-- ==== Sys2Proof/Machine/Dispatch.lean ====
section
/-! DEFINITION. One arm per constructor of Instr. -/

namespace Sys2Proof.Machine

def exec (i : Instr) (s : State) : Host.Outcome State Fault Refusal :=
  match i with
  | .digest => Sys2Proof.Machine.execDigest s
  | .reserved op => Sys2Proof.Machine.execReserved op s
  | .wr reg data => Sys2Proof.Machine.execWr reg data s
  | .rd reg => Sys2Proof.Machine.execRd reg s
  | .check => Sys2Proof.Machine.execCheck s
  | .init => Sys2Proof.Machine.execInit s
  | .absorb => Sys2Proof.Machine.execAbsorb s
  | .tail => Sys2Proof.Machine.execTail s
  | .padlen => Sys2Proof.Machine.execPadlen s
  | .padcomp => Sys2Proof.Machine.execPadcomp s
  | .serialize => Sys2Proof.Machine.execSerialize s
  | .sched => Sys2Proof.Machine.execSched s
  | .ldw => Sys2Proof.Machine.execLdw s
  | .expand => Sys2Proof.Machine.execExpand s
  | .compress => Sys2Proof.Machine.execCompress s
  | .cinit => Sys2Proof.Machine.execCinit s
  | .round t => Sys2Proof.Machine.execRound t s
  | .feedback => Sys2Proof.Machine.execFeedback s
  | .add32 x y => Sys2Proof.Machine.execAdd32 x y s
  | .rotr x n => Sys2Proof.Machine.execRotr x n s
  | .shr x n => Sys2Proof.Machine.execShr x n s
  | .ch x y z => Sys2Proof.Machine.execCh x y z s
  | .maj x y z => Sys2Proof.Machine.execMaj x y z s
  | .bsig0 x => Sys2Proof.Machine.execBsig0 x s
  | .bsig1 x => Sys2Proof.Machine.execBsig1 x s
  | .ssig0 x => Sys2Proof.Machine.execSsig0 x s
  | .ssig1 x => Sys2Proof.Machine.execSsig1 x s

end Sys2Proof.Machine
end

