-- ==== Sys2Proof/Machine/Sequencer.lean ====
section
/-! DEFINITION. What one step of the machine runs: an action from outside, a sequencer step, or nothing (43_padding_driver.md R82, R98; 70_reset_and_hazards.md R130, R136). -/

namespace Sys2Proof.Machine

/-! ### Actions from outside the engine -/

/-- Run a word the host presents: decode it and execute it; a word that is no transaction is refused
by name, and a read word with data has no effect (R48, log entry 5). -/
def runWord (w : HostWord) (s : State) : Result :=
  match decode w with
  | .ok i => exec i s
  | .error (.notATransaction k) => .refused (.notATransaction k)
  | .error (.readDataNotZero reg _) => readWithData reg s

/-- One action of the host or of another agent. -/
def runAction (a : HostAction) (s : State) : Result :=
  match a with
  | .transaction w => runWord (.transaction w) s
  | .command v => runWord (.command v) s
  | .store addr b => storeByte addr b s
  | .reset => .next (engineReset s)

/-! ### The sequencer's own steps -/

/-- The operation the sequencer position selects (R22, R49). -/
def stepAt : Seq → Option Instr
  | .sCheck => some .check
  | .sInit => some .init
  | .sAbsorb => some .absorb
  | .sTail => some .tail
  | .sPadlen => some .padlen
  | .sPadcomp => some .padcomp
  | .sSerialize => some .serialize
  | .sIdle | .sDone | .sFault => none

/-- One row of R82's table: the operation the position selects; a waiting position does nothing. -/
def tableStep (s : State) : Result :=
  match stepAt s.seq with
  | some i => exec i s
  | none => .next s

/-- The next position inside a block. -/
def toSub (q : SubSeq) (s : State) : Result := .next { s with sub := q }

/-- A block is in `B`; its schedule comes next. -/
def beginBlock (b : Block) (s : State) : Result :=
  .next { s with block := some b, sub := .ldw }

/-- After `ROUND t`: the next round, or `FEEDBACK` after round 63 (R79). -/
def afterRound (t : Fin 64) (s : State) : Result :=
  if h : t.val + 1 < 64 then .next { s with t := some ⟨t.val + 1, h⟩ }
  else .next { s with t := none, sub := .feedback }

/-- After `FEEDBACK`: the block is counted and the row of the block ends (R79, R82). -/
def endBlock (after : State → Result) (s : State) : Result :=
  andThen (countBlock { s with sub := .start }) after

/-- One step inside the `SCHED ; COMPRESS` of a block at the finest granularity (R81): `start` fetches
the block, the others are the operations of 41_message_schedule.md and 42_compression.md. -/
def blockStep (fetch : (Block → Result) → Result) (after : State → Result) (s : State) : Result :=
  match s.sub with
  | .start => fetch fun b => beginBlock b s
  | .ldw => andThen (exec .ldw s) (toSub .expand)
  | .expand => andThen (exec .expand s) (toSub .cinit)
  | .cinit => andThen (exec .cinit s) fun s => .next { s with sub := .round, t := some 0 }
  | .round => need s.t .t fun t => andThen (exec (.round t) s) (afterRound t)
  | .feedback => andThen (exec .feedback s) (endBlock after)

/-- One step at the finest granularity: blocks in small steps, every other position as in R82's
table. -/
def roundStep (s : State) : Result :=
  match s.seq with
  | .sAbsorb =>
    ifBlocksLeft s (blockStep (withFullBlock s) afterAbsorb s) (exec .absorb s)
  | .sPadcomp => blockStep (withPadBlock s) afterPadcomp s
  | .sIdle | .sCheck | .sInit | .sTail | .sPadlen | .sSerialize | .sDone | .sFault => tableStep s

/-- One step of a running command (log entry 10). -/
def busyStep (s : State) : Result :=
  match s.cfg.granularity with
  | .command | .sequencer => tableStep s
  | .round => roundStep s

/-! ### One step of the machine -/

/-- What the engine and its issuing host do: the host is blocked while a command runs (R98);
otherwise it goes on with its program, and when that is over nothing happens (R136). DESIGN CHOICE:
when the reset input has abandoned a command, the blocked `CMD` write counts as completed and the host
goes on with its next line (log entry 26), and a running command holds back the host of `program`
whoever issued it, and no other agent (log entry 28). -/
def ownStep (s : State) : Result :=
  match s.phase with
  | .busy => busyStep s
  | .idle | .done | .fault =>
    match s.program with
    | [] => .next s
    | a :: rest => runAction a { s with program := rest }

/-- One step: what another agent does now comes first (log entry 11). -/
def stepMachine (s : State) : Result :=
  match s.events with
  | [] => ownStep s
  | none :: rest => ownStep { s with events := rest }
  | some a :: rest => runAction a { s with events := rest }

/-! ### Placing a word where the next step takes it -/

/-- The word the fixed names of Decode and Step are given: 80 bits are a host transaction, fewer a
value written to `CMD`. -/
def tableAction (nbits w : Nat) : HostAction :=
  if nbits = 80 then .transaction (BitVec.ofNat 80 w) else .command (BitVec.ofNat 64 (w % 256))

/-- The host's next action is this word: first in its program, with no other agent's action before
it and no command running (log entry 12). -/
def placeWord (s : State) (nbits w : Nat) : State :=
  { s with
    program := tableAction nbits w :: s.program
    events := []
    seq := if s.phase = .busy then .sIdle else s.seq }

end Sys2Proof.Machine
end

