-- ==== Sys2Proof/Machine/Formatting.lean ====
section
/-! DEFINITION. Digest formatting, which runs on the host on a copy of D (44_digest_formatting.md R100 to R105); no engine state is read or written. -/

namespace Sys2Proof.Machine

/-- `hexdigit(n)`: lowercase (R101). -/
def hexDigit (n : Nat) : Char :=
  ['0', '1', '2', '3', '4', '5', '6', '7', '8', '9', 'a', 'b', 'c', 'd', 'e', 'f'].getD n '0'

/-- The two digits of a byte, most significant nibble first (R101). -/
def hexByte (b : Byte) : List Char := [hexDigit (b.toNat / 16), hexDigit (b.toNat % 16)]

/-- `digestToHex` (R101): the 64 characters; the end-of-string mark is the host's (log entry 18). -/
def digestToHex (d : Vector Byte 32) : List Char := d.toList.flatMap hexByte

/-- `digestToHexConsuming` (R102): the same string. -/
def digestToHexConsuming (d : Vector Byte 32) : List Char := digestToHex d

/-- `DUMP_STYLE` (00_scope.md R5, R103, D30): the digit case and the line break of the debug dump. -/
structure DumpStyle where
  upper     : Bool := false
  lineBreak : List Char := ['\n']
  deriving DecidableEq, Repr

/-- A digit of the dump (R103). -/
def DumpStyle.digit (style : DumpStyle) (n : Nat) : Char :=
  if style.upper then (hexDigit n).toUpper else hexDigit n

/-- `printDigest(sink, digest)` (R103): 32 lines after what the sink holds. -/
def printDigest (style : DumpStyle) (sink : List Char) (d : Vector Byte 32) : List Char :=
  sink ++ d.toList.flatMap fun b =>
    [style.digit (b.toNat / 16), style.digit (b.toNat % 16)] ++ style.lineBreak

/-- `unhex`, the inverse of `hexdigit` (R104). -/
def unhex (c : Char) : Nat :=
  ['0', '1', '2', '3', '4', '5', '6', '7', '8', '9', 'a', 'b', 'c', 'd', 'e', 'f'].idxOf c

/-- Standard hex decoding of a string of digit pairs (R104). -/
def hexDecode : List Char → List Byte
  | hi :: lo :: rest => BitVec.ofNat 8 (16 * unhex hi + unhex lo) :: hexDecode rest
  | _ => []

end Sys2Proof.Machine
end

