-- ==== Sys2Proof/Machine/Reference.lean ====
section
/-! DEFINITION. The digest as a function of the message alone (00_scope.md R4, 43_padding_driver.md R93): what the command computes, said without the sequencer. -/

namespace Sys2Proof.Machine

/-- `SCHED(B)` as a function (R73). -/
def scheduleOf (b : Block) : Schedule :=
  Vector.ofFn fun t => (expandWords 48 ((List.finRange 16).map (blockWord b))).getD t.val 0

/-- The 8 bytes of the bit length of a message of `n` bytes (R53). -/
def lengthField (n : Nat) : List Byte :=
  (List.range 8).map fun k => be64Byte (BitVec.ofNat 64 (8 * n)) k

/-- The number `z` of zero bytes between the marker and the length field: `(55 - rest) mod 64`
(R93). -/
def zeroCount (n : Nat) : Nat := (((55 : Int) - (n % 64 : Nat)) % 64).toNat

/-- `M ‖ 0x80 ‖ 0x00^z ‖ be64_bytes(8·L)` (R93). -/
def paddedMessage (m : List Byte) : List Byte :=
  m ++ [0x80] ++ List.replicate (zeroCount m.length) 0x00 ++ lengthField m.length

/-- `L div 64 + npad` (R93). -/
def blockCount (n : Nat) : Nat := n / 64 + padBlocks (n % 64)

/-- The running state after the first `n` 64-byte pieces of a byte string, in order. -/
def hashPieces : Nat → List Byte → Hash → Hash
  | 0, _, h => h
  | n + 1, bs, h => hashPieces n (bs.drop 64) (compressHash h (scheduleOf (toBuffer 64 bs)))

/-- The digest of a message (R4, R93). -/
def messageDigest (m : List Byte) : Vector Byte 32 :=
  digestBytes (hashPieces (blockCount m.length) (paddedMessage m) iv)

end Sys2Proof.Machine
end

