-- ==== Sys2Proof/Machine/Script.lean ====
section
/-! DEFINITION. The host script: its pseudo-instructions as lists of host actions, and its MEM line as the launch memory (30_encoding.md R54). -/

namespace Sys2Proof.Machine

/-- One line `WR reg, value`. -/
def lineWr (reg : HostReg) (data : Quad) : HostAction :=
  .transaction (packTransaction 0x01 (encodeReg reg) data)

/-- One line `RD reg`. -/
def lineRd (reg : HostReg) : HostAction := .transaction (packTransaction 0x00 (encodeReg reg) 0)

/-- `CMD DIGEST`. -/
def scriptCmdDigest : List HostAction := [lineWr .cmd 1]

/-- `RD D`: the 32 digest bytes in order. -/
def scriptRdD : List HostAction := (List.finRange 32).map fun j => lineRd (.digest j)

/-- `DIGEST base, len`. -/
def scriptDigest (base len : Quad) : List HostAction :=
  [lineWr .msgBase base, lineWr .msgLen len] ++ scriptCmdDigest

/-- The platform admits an address, with this byte in it at the start (R37, log entry 8). -/
def Memory.place : Memory → Nat → Byte → Memory
  | [], a, b => [(a, b)]
  | (k, c) :: rest, a, b =>
    if a < k then (a, b) :: (k, c) :: rest
    else if a = k then (a, b) :: rest
    else (k, c) :: Memory.place rest a b

/-- The line `MEM addr: bytes`, part of the start state. -/
def State.launch (s : State) (addr : Nat) : List Byte → State
  | [] => s
  | b :: bs => State.launch { s with mem := s.mem.place addr b } (addr + 1) bs

end Sys2Proof.Machine
end

