-- ==== Sys2Proof/Safety.lean ====
section
/-! DEFINITION. The terms claims use: the machine's invariant, the host's duties, the host-visible end state, and runs. -/

namespace Sys2Proof.Machine

/-! ### The invariant -/

/-- Every internal item holds no value (R24, R27, R92, R117). -/
def State.quiet (s : State) : Prop := discardInternals s = s

/-- The operands of the running command are held, `CHECK` passed on them, its counts are those of R83,
and `D` holds no value (R82, row `S_CHECK`). -/
def State.checked (s : State) (base len : Quad) : Prop :=
  s.base = some base ∧ s.len = some len ∧ argumentError s.cfg base len = none ∧
  s.nfull = some (len.toNat / 64) ∧ s.rest = some (len.toNat % 64) ∧ s.digest = none

/-- `checked`, with a running state in `H` (R84). -/
def State.counted (s : State) (base len : Quad) : Prop := s.checked base len ∧ s.hash.isSome

/-- Inside a block, the items the next small step reads hold values; only the finest granularity has
such positions (R81). -/
def State.subReady (s : State) : Prop :=
  (s.sub ≠ .start → s.cfg.granularity = .round) ∧
  match s.sub with
  | .start => True
  | .ldw => s.block.isSome
  | .expand => (firstWords s.sched).isSome
  | .cinit => (allWords s.sched).isSome
  | .round => (allWords s.sched).isSome ∧ s.work.isSome ∧ s.t.isSome
  | .feedback => s.work.isSome

/-- What holds at each sequencer position (R22, R24, R82): `D` holds a value in `S_DONE` only (R17), `S`
only between `TAIL` and the last `PADCOMP` (R16). -/
def State.seqInv (s : State) : Prop :=
  match s.seq with
  | .sIdle => s.quiet ∧ s.digest = none ∧ s.blocks = some 0
  | .sDone => s.quiet ∧ s.digest.isSome ∧ s.blocks.isSome
  | .sFault => s.quiet ∧ s.digest = none ∧ s.blocks = none
  | .sCheck =>
    s.base.isSome ∧ s.len.isSome ∧ s.digest = none ∧ s.scratch = none ∧ s.sub = .start
  | .sInit =>
    ∃ base len, s.checked base len ∧ s.scratch = none ∧ s.sub = .start
  | .sAbsorb =>
    ∃ base len i, s.counted base len ∧ s.i = some i ∧ i ≤ len.toNat / 64 ∧
      s.blocks = some (BitVec.ofNat 64 i) ∧ (i = len.toNat / 64 → s.sub = .start) ∧
      s.scratch = none ∧ s.subReady
  | .sTail =>
    ∃ base len, s.counted base len ∧ s.blocks = some (BitVec.ofNat 64 (len.toNat / 64)) ∧
      s.scratch = none ∧ s.sub = .start
  | .sPadlen =>
    ∃ base len, s.counted base len ∧ s.blocks = some (BitVec.ofNat 64 (len.toNat / 64)) ∧
      s.scratch.isSome ∧ s.sub = .start
  | .sPadcomp =>
    ∃ base len j, s.counted base len ∧ s.npad = some (padBlocks (len.toNat % 64)) ∧
      s.bitLength = some (len * 8) ∧ s.scratch.isSome ∧ s.j = some j ∧
      j < padBlocks (len.toNat % 64) ∧
      s.blocks = some (BitVec.ofNat 64 (len.toNat / 64 + j)) ∧ s.subReady
  | .sSerialize =>
    ∃ base len, s.counted base len ∧
      s.blocks = some (BitVec.ofNat 64 (blockCount len.toNat)) ∧ s.scratch = none ∧ s.sub = .start

/-- The invariant of the machine: memory in canonical form, `MSG_BASE` within its width (R18), `ERR`
is `NONE` exactly outside `FAULT` (R20), and each position's items (`seqInv`). -/
def State.Inv (s : State) : Prop :=
  Memory.wf s.cfg s.mem = true ∧ s.msgBase.toNat < 2 ^ s.cfg.addrWidth ∧
  (s.err = .none ↔ s.phase ≠ .fault) ∧ s.seqInv

/-! ### The host's duties -/

/-- An action a host program may hold: a word that decodes to a legal transaction (R48, U7), any
`CMD` value, any memory write outside device regions, the reset input. -/
def HostAction.legal (s : State) (a : HostAction) : Prop :=
  match a with
  | .transaction w => ∃ i, decodeTransaction w = .ok i ∧ i.legal s.cfg = true
  | .command _ => True
  | .store addr _ => s.inDevice addr = false
  | .reset => True

/-- The duties the host and the platform keep: a legal program, no access by another agent (R134), no
device region in the way (R36). -/
def State.dutiful (s : State) : Prop :=
  (∀ a ∈ s.program, a.legal s) ∧ s.events = [] ∧ s.devices = []

/-- The platform answers every message byte (R131 step 1): the `L` bytes at `MSG_BASE` are `m`. -/
def State.message (s : State) (m : List Byte) : Prop :=
  readBytes s s.msgBase.toNat s.msgLen.toNat = .bytes m

/-! ### What the host sees -/

/-- The end state of a run as the host sees it (R25, R136). -/
structure HostView where
  status  : Byte
  msgBase : Quad
  msgLen  : Quad
  blocks  : Option Quad
  digest  : Option (Vector Byte 32)
  deriving DecidableEq, Repr

/-- `D` and `BLOCKS` are part of it in `DONE` only (R133, R136). -/
def hostView (s : State) : HostView where
  status := statusByte s
  msgBase := s.msgBase
  msgLen := s.msgLen
  blocks := if s.phase = .done then s.blocks else none
  digest := if s.phase = .done then s.digest else none

/-! ### Items without value -/

/-- The item holds no value; of `W`, some word holds none (R14, R27). -/
def State.lacks (s : State) : Item → Prop
  | .blocks => s.blocks = none
  | .hash => s.hash = none
  | .work => s.work = none
  | .sched => ∃ t : Fin 64, s.sched[t] = none
  | .block => s.block = none
  | .scratch => s.scratch = none
  | .i => s.i = none
  | .j => s.j = none
  | .t => s.t = none
  | .nfull => s.nfull = none
  | .rest => s.rest = none
  | .npad => s.npad = none
  | .base => s.base = none
  | .len => s.len = none

/-- The instruction stops, with a fault that names an item without value (R27, log entry 2). -/
def State.stopsWithoutValue (s : State) (i : Instr) : Prop :=
  ∃ x, s.lacks x ∧ exec i s = .fault (.noValue x)

/-! ### The primes of R11 and R12 -/

/-- The first 64 primes, 2 … 311. -/
def firstPrimes : List Nat :=
  [2, 3, 5, 7, 11, 13, 17, 19, 23, 29, 31, 37, 41, 43, 47, 53] ++
  [59, 61, 67, 71, 73, 79, 83, 89, 97, 101, 103, 107, 109, 113, 127, 131] ++
  [137, 139, 149, 151, 157, 163, 167, 173, 179, 181, 191, 193, 197, 199, 211, 223] ++
  [227, 229, 233, 239, 241, 251, 257, 263, 269, 271, 277, 281, 283, 293, 307, 311]

/-! ### Runs -/

/-- Instructions executed one after another. -/
def execAll : List Instr → State → Result
  | [], s => .next s
  | i :: is, s => andThen (exec i s) (execAll is)

/-- `ROUND 0` to `ROUND 63` in order (R79). -/
def allRounds : List Instr := (List.finRange 64).map Instr.round

/-- The same outcome with its next state changed by `f`. -/
def mapNext (f : State → State) (r : Result) : Result := andThen r fun t => .next (f t)

/-- The engine accepts a command (R82). -/
def State.accepting (s : State) : Prop := s.phase = .idle ∨ s.phase = .done

/-- The arguments pass `CHECK` (R83). -/
def State.goodArguments (s : State) : Prop :=
  s.msgBase ≠ 0 ∧ (s.msgLen ≠ 0 ∨ s.cfg.emptyPolicy = .accept) ∧ s.msgLen.toNat ≤ 2 ^ 61 - 1

/-- The same machine at another step granularity (D25). -/
def State.atGranularity (g : StepGranularity) (s : State) : State :=
  { s with cfg := { s.cfg with granularity := g } }

end Sys2Proof.Machine
end

