-- ==== Sys2Proof/Certificates/Slice0/Obligations.lean ====
section
/-! DEFINITION. The statements about the model, for the provers. -/

open Sys2Proof Sys2Proof.Machine

/-! ### Encoding -/

/-- 30_encoding.md section 1: what the encoder writes, the decoder reads back. -/
def Obligations.DecodeReadsEncode : Prop :=
  ∀ (i : Instr) (w : HostWord), i.wf = true → encode i = some w → decode w = .ok i

/-- 30_encoding.md section 1: a word that decodes is the word of the instruction it gives, which is
well-formed and one that the host can issue (R49). -/
def Obligations.EncodeReadsDecode : Prop :=
  ∀ (w : HostWord) (i : Instr), decode w = .ok i →
    i.wf = true ∧ i.hostIssued = true ∧ encode i = some w

/-- Words written out in 95_test_vectors.md section 9 and R48. -/
def Obligations.SpecWordsDecode : Prop :=
  decode (.transaction 0x01020000000000001000#80) = .ok (.wr .msgBase 0x1000) ∧
  decode (.transaction 0x01030000000000000003#80) = .ok (.wr .msgLen 3) ∧
  decode (.transaction 0x01000000000000000001#80) = .ok (.wr .cmd 1) ∧
  decode (.transaction 0x00010000000000000000#80) = .ok (.rd .status) ∧
  decode (.transaction 0x00040000000000000000#80) = .ok (.rd .blocks) ∧
  decode (.transaction 0x003f0000000000000000#80) = .ok (.rd (.digest 31)) ∧
  decode (.command 0x01) = .ok .digest ∧
  decode (.command 0x02) = .ok (.reserved 2)

/-- R48: a read word with data has no effect and returns no value. That a word of another `kind`
("other values are not transactions") is refused by name is the model's choice (log entry 5). -/
def Obligations.MalformedWordHasNoEffect : Prop :=
  ∀ (s : State) (w : BitVec 80) (rest : List HostAction),
    s.phase ≠ .busy → s.events = [] → s.program = .transaction w :: rest →
    (htKind w = 0x00 → htData w ≠ 0 → step s = .next { s with
      program := rest, readLog := s.readLog ++ [⟨decodeReg (htReg w), none⟩] }) ∧
    (htKind w ≠ 0x00 → htKind w ≠ 0x01 → step s = .refused (.notATransaction (htKind w)))

/-! ### Function units -/

/-- R60, the sum of several words being the spec's own inference there. What a unit executed on its
own leaves in the state (`unitOut`, and nothing else changed) is the model's choice (log entry 14). -/
def Obligations.AddWrapsModulo : Prop :=
  (∀ (s : State) (x y : Word), ∃ r : Word,
    exec (.add32 x y) s = .next { s with unitOut := some r } ∧
    r.toNat = (x.toNat + y.toNat) % 2 ^ 32) ∧
  ∀ xs : List Word, (xs.foldl add32 0).toNat = (xs.map BitVec.toNat).sum % 2 ^ 32

/-- R61, R62: bit `i` of a rotation is bit `(i + m) mod 32`, of a shift bit `i + m` or 0, with
`m = n mod 32`. What a unit executed on its own leaves in the state (`unitOut`, and nothing else
changed) is the model's choice (log entry 14). -/
def Obligations.RotateAndShiftMoveBits : Prop :=
  ∀ (s : State) (x : Word) (n : Nat), ∃ r p : Word,
    exec (.rotr x n) s = .next { s with unitOut := some r } ∧
    exec (.shr x n) s = .next { s with unitOut := some p } ∧
    ∀ i < 32,
      r.getLsbD i = x.getLsbD ((i + n % 32) % 32) ∧
      p.getLsbD i = if i + n % 32 ≤ 31 then x.getLsbD (i + n % 32) else false

/-- R63, R64: a selection and a majority vote at each bit. What a unit executed on its own leaves
in the state (`unitOut`, and nothing else changed) is the model's choice (log entry 14). -/
def Obligations.ChooseAndMajorityBits : Prop :=
  ∀ (s : State) (x y z : Word), ∃ r p : Word,
    exec (.ch x y z) s = .next { s with unitOut := some r } ∧
    exec (.maj x y z) s = .next { s with unitOut := some p } ∧
    ∀ i < 32,
      r.getLsbD i = (if x.getLsbD i then y.getLsbD i else z.getLsbD i) ∧
      p.getLsbD i =
        decide (2 ≤ (x.getLsbD i).toNat + (y.getLsbD i).toNat + (z.getLsbD i).toNat)

/-- R65, R66. What a unit executed on its own leaves in the state (`unitOut`, and nothing else changed)
is the model's choice (log entry 14). -/
def Obligations.BigSigmaBits : Prop :=
  ∀ (s : State) (x : Word), ∃ r p : Word,
    exec (.bsig0 x) s = .next { s with unitOut := some r } ∧
    exec (.bsig1 x) s = .next { s with unitOut := some p } ∧
    ∀ i < 32,
      r.getLsbD i = ((x.getLsbD ((i + 2) % 32) ^^ x.getLsbD ((i + 13) % 32)) ^^
        x.getLsbD ((i + 22) % 32)) ∧
      p.getLsbD i = ((x.getLsbD ((i + 6) % 32) ^^ x.getLsbD ((i + 11) % 32)) ^^
        x.getLsbD ((i + 25) % 32))

/-- R67, R68: two rotations and a shift, whose term is missing at the top bits. What a unit executed
on its own leaves in the state (`unitOut`, and nothing else changed) is the model's choice (log entry
14). -/
def Obligations.SmallSigmaBits : Prop :=
  ∀ (s : State) (x : Word), ∃ r p : Word,
    exec (.ssig0 x) s = .next { s with unitOut := some r } ∧
    exec (.ssig1 x) s = .next { s with unitOut := some p } ∧
    ∀ i < 32,
      r.getLsbD i = ((x.getLsbD ((i + 7) % 32) ^^ x.getLsbD ((i + 18) % 32)) ^^
        (if i ≤ 28 then x.getLsbD (i + 3) else false)) ∧
      p.getLsbD i = ((x.getLsbD ((i + 17) % 32) ^^ x.getLsbD ((i + 19) % 32)) ^^
        (if i ≤ 21 then x.getLsbD (i + 10) else false))

/-! ### Message schedule -/

/-- R71: `W[0..15]` are the block's big-endian words; nothing else changes. -/
def Obligations.LdwLoadsBigEndianWords : Prop :=
  ∀ (s : State) (b : Block), s.block = some b →
    ∃ w : ScheduleRegs, exec .ldw s = .next { s with sched := w } ∧
      (∀ k, (h : k < 16) → ∃ x : Word, w[k] = some x ∧
        x.toNat = b[4 * k].toNat * 2 ^ 24 + b[4 * k + 1].toNat * 2 ^ 16 +
          b[4 * k + 2].toNat * 2 ^ 8 + b[4 * k + 3].toNat) ∧
      ∀ k, (h : k < 64) → 16 ≤ k → w[k] = s.sched[k]

/-- R72: the recurrence for `W[16..63]`; `W[0..15]` and everything else stay. -/
def Obligations.ExpandFollowsRecurrence : Prop :=
  ∀ (s : State) (m : Vector Word 16), (∀ k, (h : k < 16) → s.sched[k] = some m[k]) →
    ∃ x : Schedule, exec .expand s = .next { s with sched := Vector.ofFn fun t => some x[t] } ∧
      (∀ k, (h : k < 16) → x[k] = m[k]) ∧
      ∀ t, (h : t < 64) → 16 ≤ t →
        x[t] = ssig1 x[t - 2] + x[t - 7] + ssig0 x[t - 15] + x[t - 16]

/-- R73: the schedule of a block, whatever `W` held. -/
def Obligations.SchedIsFunctionOfBlock : Prop :=
  ∀ (s : State) (b : Block), s.block = some b →
    ∃ x : Schedule, exec .sched s = .next { s with sched := Vector.ofFn fun t => some x[t] } ∧
      (∀ k, (h : k < 16) →
        x[k].toNat = b[4 * k].toNat * 2 ^ 24 + b[4 * k + 1].toNat * 2 ^ 16 +
          b[4 * k + 2].toNat * 2 ^ 8 + b[4 * k + 3].toNat) ∧
      ∀ t, (h : t < 64) → 16 ≤ t →
        x[t] = ssig1 x[t - 2] + x[t - 7] + ssig0 x[t - 15] + x[t - 16]

/-! ### Compression -/

/-- R76. -/
def Obligations.CinitCopiesByPosition : Prop :=
  ∀ (s : State) (h : Hash), s.hash = some h →
    exec .cinit s = .next { s with
      work := some { a := h[0], b := h[1], c := h[2], d := h[3],
                     e := h[4], f := h[5], g := h[6], h := h[7] } }

/-- R77. -/
def Obligations.RoundMixesOldValues : Prop :=
  ∀ (s : State) (t : Fin 64) (v : Working) (w : Word), s.work = some v → s.sched[t] = some w →
    ∀ t1 t2 : Word,
      t1 = v.h + bsig1 v.e + ch v.e v.f v.g + roundConstant t + w →
      t2 = bsig0 v.a + maj v.a v.b v.c →
      exec (.round t) s = .next { s with
        work := some { a := t1 + t2, b := v.a, c := v.b, d := v.c,
                       e := v.d + t1, f := v.e, g := v.f, h := v.g } }

/-- R78. -/
def Obligations.FeedbackAddsBack : Prop :=
  ∀ (s : State) (h : Hash) (v : Working), s.hash = some h → s.work = some v →
    exec .feedback s = .next { s with
      hash := some #v[h[0] + v.a, h[1] + v.b, h[2] + v.c, h[3] + v.d,
                      h[4] + v.e, h[5] + v.f, h[6] + v.g, h[7] + v.h]
      work := none }

/-- R79: `COMPRESS` is `CINIT`, `ROUND 0` to `ROUND 63` in order, `FEEDBACK`, and one more in
`BLOCKS`; the schedule it consumed then holds no value (R14). -/
def Obligations.CompressIsItsSteps : Prop :=
  ∀ (s : State) (h : Hash) (ws : Schedule) (n : Quad),
    s.hash = some h → (∀ t, (ht : t < 64) → s.sched[t] = some ws[t]) → s.blocks = some n →
    ∃ u : State, execAll ([.cinit] ++ allRounds ++ [.feedback]) s = .next u ∧
      exec .compress s = .next { u with blocks := some (n + 1), sched := noSchedule }

/-- R11: "for fixed `W[t] + K[t]` a round is a one-to-one map of the eight working registers". -/
def Obligations.RoundIsOneToOne : Prop :=
  ∀ (s₁ s₂ : State) (t : Fin 64) (v₁ v₂ : Working) (w : Word) (u₁ u₂ : State),
    s₁.work = some v₁ → s₂.work = some v₂ → s₁.sched[t] = some w → s₂.sched[t] = some w →
    exec (.round t) s₁ = .next u₁ → exec (.round t) s₂ = .next u₂ →
    u₁.work = u₂.work → v₁ = v₂

/-- R11, R12 with 95_test_vectors.md V5a: the constants are the first 32 fractional bits of the cube
roots of the first 64 primes, and of the square roots of the first 8. -/
def Obligations.TablesComeFromPrimes : Prop :=
  (∀ t : Fin 64, ∃ c : Nat,
    c ^ 3 ≤ firstPrimes[t.val]! * 2 ^ 96 ∧ firstPrimes[t.val]! * 2 ^ 96 < (c + 1) ^ 3 ∧
    (roundConstant t).toNat = c % 2 ^ 32) ∧
  ∀ i : Fin 8, ∃ c : Nat,
    c ^ 2 ≤ firstPrimes[i.val]! * 2 ^ 64 ∧ firstPrimes[i.val]! * 2 ^ 64 < (c + 1) ^ 2 ∧
    iv[i].toNat = c % 2 ^ 32

/-! ### The sequencer's steps -/

/-- R83 with R82's row `S_CHECK`: arguments that pass give the counts, and `S_INIT` follows. -/
def Obligations.CheckComputesCounts : Prop :=
  ∀ (s : State) (base len : Quad), s.seq = .sCheck → s.base = some base → s.len = some len →
    base ≠ 0 → (len ≠ 0 ∨ s.cfg.emptyPolicy = .accept) → len.toNat ≤ 2 ^ 61 - 1 →
    exec .check s = .next { s with
      digest := none, blocks := none
      nfull := some (len.toNat / 64), rest := some (len.toNat % 64), seq := .sInit }

/-- R83, R111, R112, R113, R116: the first cause that holds, in the order `NULL_REF`, `ZERO_LEN`,
`LEN_OVERFLOW`, is raised; `raise` is stated in `FaultEntryErasesResults`. That `CHECK` does this at every position
is the model's choice (log entry 23). -/
def Obligations.CheckRaisesFirstCause : Prop :=
  ∀ (s : State) (base len : Quad), s.base = some base → s.len = some len →
    (base = 0 → exec .check s = .next (raise .nullRef s)) ∧
    (base ≠ 0 → len = 0 → s.cfg.emptyPolicy = .reject →
      exec .check s = .next (raise .zeroLen s)) ∧
    (base ≠ 0 → 2 ^ 61 - 1 < len.toNat → exec .check s = .next (raise .lenOverflow s))

/-- R84 with R82's row `S_INIT`. The values of IV are R12's, which the spec takes from general
knowledge (log entry 16); that `INIT` does this at every position, and not at `S_INIT` alone, is the
model's choice (log entry 23). -/
def Obligations.InitSeedsRunningState : Prop :=
  ∀ s : State, exec .init s = .next { s with
    hash := some #v[0x6a09e667, 0xbb67ae85, 0x3c6ef372, 0xa54ff53a,
                    0x510e527f, 0x9b05688c, 0x1f83d9ab, 0x5be0cd19]
    blocks := some 0, i := some 0, seq := .sAbsorb }

/-- R85 with R82's row `S_ABSORB`: full block `i` is read at `base + 64·i` and compressed, `i` counts
on; with no full block left the row only moves to `S_TAIL`. -/
def Obligations.AbsorbProcessesOneBlock : Prop :=
  ∀ (s : State) (base : Quad) (i nfull : Nat) (bs : List Byte) (h : Hash) (n : Quad),
    s.seq = .sAbsorb → s.base = some base → s.i = some i → s.nfull = some nfull →
    s.hash = some h → s.blocks = some n →
    (i < nfull → readBytes s (base.toNat + 64 * i) 64 = .bytes bs →
      exec .absorb s = .next { s with
        block := some (toBuffer 64 bs)
        hash := some (compressHash h (scheduleOf (toBuffer 64 bs)))
        work := none, sched := noSchedule, blocks := some (n + 1), i := some (i + 1)
        seq := if i + 1 < nfull then .sAbsorb else .sTail }) ∧
    (¬ i < nfull → exec .absorb s = .next { s with seq := .sTail })

/-- R36, R114: the first message byte of `ABSORB` or `TAIL` that cannot be read ends the command; when a
byte answers `BusError` is stated in `MemoryReadAnswers`. That the lowest such address decides is the
model's choice (log entry 17), and so is that both do this at every position (log entry 23). -/
def Obligations.UnreadableByteRaisesBusError : Prop :=
  ∀ (s : State) (base : Quad) (i nfull rest : Nat),
    s.base = some base → s.i = some i → s.nfull = some nfull → s.rest = some rest →
    (∀ k < 64, i < nfull → (∀ k' < k, ∃ b, readByte s (base.toNat + 64 * i + k') = .byte b) →
      readByte s (base.toNat + 64 * i + k) = .busError →
      exec .absorb s = .next (raise .busError s)) ∧
    (∀ k < rest, (∀ k' < k, ∃ b, readByte s (base.toNat + 64 * nfull + k') = .byte b) →
      readByte s (base.toNat + 64 * nfull + k) = .busError →
      exec .tail s = .next (raise .busError s))

/-- R86 with R82's row `S_TAIL`. -/
def Obligations.TailStartsScratchBuffer : Prop :=
  ∀ (s : State) (base : Quad) (nfull rest : Nat) (bs : List Byte),
    s.seq = .sTail → s.base = some base → s.nfull = some nfull → s.rest = some rest → rest < 64 →
    readBytes s (base.toNat + 64 * nfull) rest = .bytes bs →
    ∃ buf : Vector Byte 128,
      exec .tail s = .next { s with scratch := some buf, seq := .sPadlen } ∧
      ∀ k, (h : k < 128) →
        buf[k] = if k < rest then bs[k]! else if k = rest then 0x80 else 0x00

/-- R87 to R90 with R82's row `S_PADLEN`: `bitLength`, `npad`, and the length field in the last 8
bytes of the last pad block. That `PADLEN` does this at every position is the model's choice (log
entry 23). -/
def Obligations.PadlenWritesLengthField : Prop :=
  ∀ (s : State) (len : Quad) (rest : Nat) (buf : Vector Byte 128),
    s.len = some len → s.rest = some rest → s.scratch = some buf → len.toNat ≤ 2 ^ 61 - 1 →
    ∃ (bits : Quad) (npad at' : Nat) (buf' : Vector Byte 128),
      exec .padlen s = .next { s with
        bitLength := some bits, npad := some npad, scratch := some buf'
        j := some 0, seq := .sPadcomp } ∧
      bits.toNat = len.toNat * 8 ∧
      (rest ≤ 55 → npad = 1 ∧ at' = 56) ∧ (56 ≤ rest → npad = 2 ∧ at' = 120) ∧
      (∀ k, (h : k < 128) → k < at' ∨ at' + 8 ≤ k → buf'[k] = buf[k]) ∧
      ∀ k, (h : k < 8) → buf'[at' + k]!.toNat = bits.toNat / 2 ^ (56 - 8 * k) % 256

/-- R91 with R82's row `S_PADCOMP`; after the last pad block `S` holds no value (R16). That `PADCOMP` does
this at every position is the model's choice (log entry 23). -/
def Obligations.PadcompCompressesPadBlock : Prop :=
  ∀ (s : State) (buf : Vector Byte 128) (j npad : Nat) (h : Hash) (n : Quad),
    s.scratch = some buf → s.j = some j → (hj : j < 2) → s.npad = some npad →
    s.hash = some h → s.blocks = some n →
    ∃ b : Block,
      (∀ k, (hk : k < 64) → b[k] = buf[64 * j + k]) ∧
      exec .padcomp s = .next { s with
        block := some b, hash := some (compressHash h (scheduleOf b))
        work := none, sched := noSchedule, blocks := some (n + 1), j := some (j + 1)
        seq := if j + 1 < npad then .sPadcomp else .sSerialize
        scratch := if j + 1 < npad then some buf else none }

/-- R92: the digest is the running state big-endian, in index order, and then `H`, `a..h`, `W`, `B`, `S`
hold no value; nor do the sequencer's variables, by D23 of 92_eei_decisions.md. That the sampled
operands lose theirs is the model's choice (log entry 13), and so is that `SERIALIZE` does this at every
position (log entry 23). -/
def Obligations.SerializeWritesDigest : Prop :=
  ∀ (s : State) (h : Hash), s.hash = some h → s.disturbed = false →
    ∃ d : Vector Byte 32,
      exec .serialize s = .next { s with
        digest := some d, seq := .sDone
        hash := none, work := none, sched := Vector.replicate 64 none, block := none
        scratch := none, i := none, j := none, t := none, nfull := none, rest := none
        npad := none, bitLength := none, base := none, len := none, sub := .start } ∧
      ∀ k, (hk : k < 32) →
        d[k].toNat = h[k / 4].toNat / 2 ^ (24 - 8 * (k % 4)) % 256

/-- The model's choices (log entries 7, 8, 9) on R132, U9 and U10, for a memory write by another agent
in any phase and by the host outside `BUSY`. A write to a message byte of a running command makes its
digest free, and the rest of the command goes on as the rules give it; any other write leaves the
command undisturbed; a write to a device region is refused. That `SERIALIZE` does this at every position
is the model's choice too (log entry 23). -/
def Obligations.DisturbedMessageFreesDigest : Prop :=
  (∀ (s : State) (a : Nat) (b : Byte) (rest : List (Option HostAction)),
    s.events = some (.store a b) :: rest →
    (s.inDevice a = true → step s = .refused (.deviceAccess a)) ∧
    (s.inDevice a = false →
      (∀ base len : Quad, s.phase = .busy → s.base = some base → s.len = some len →
        base.toNat ≤ a → a < base.toNat + len.toNat →
        step s = .next { s with events := rest, mem := s.mem.write a b, disturbed := true }) ∧
      ((s.phase ≠ .busy ∨ ∀ base len : Quad, s.base = some base → s.len = some len →
          a < base.toNat ∨ base.toNat + len.toNat ≤ a) →
        step s = .next { s with events := rest, mem := s.mem.write a b }))) ∧
  (∀ (s : State) (a : Nat) (b : Byte) (rest : List HostAction),
    s.events = [] → s.phase ≠ .busy → s.program = .store a b :: rest →
    (s.inDevice a = true → step s = .refused (.deviceAccess a)) ∧
    (s.inDevice a = false →
      step s = .next { s with program := rest, mem := s.mem.write a b })) ∧
  ∀ (s : State) (h : Hash), s.hash = some h → s.disturbed = true →
    ∃ d : Vector Byte 32,
      exec .serialize s = .next { discardInternals s with
        digest := some d, seq := .sDone, freeCount := s.freeCount + 32 } ∧
      ∀ k, (hk : k < 32) → d[k] = (Config.freeValue (s.freeCount + k)).setWidth 8

/-- R27 ("fault on a read, never as 0", log entry 2): a sequencer operation that needs an item
without value stops, and the fault names such an item; `INIT` reads none. That the operations act at every
position is the model's choice (log entry 23). -/
def Obligations.ReadWithoutValueFaults : Prop :=
  ∀ s : State,
    (s.block = none → s.stopsWithoutValue .ldw ∧ s.stopsWithoutValue .sched) ∧
    (∀ k, (h : k < 16) → s.sched[k] = none → s.stopsWithoutValue .expand) ∧
    (s.hash = none → s.stopsWithoutValue .cinit ∧ s.stopsWithoutValue .serialize) ∧
    (∀ t : Fin 64, s.work = none ∨ s.sched[t] = none → s.stopsWithoutValue (.round t)) ∧
    (s.hash = none ∨ s.work = none → s.stopsWithoutValue .feedback) ∧
    (s.hash = none ∨ s.blocks = none ∨ (∃ t : Fin 64, s.sched[t] = none) →
      s.stopsWithoutValue .compress) ∧
    (s.base = none ∨ s.len = none → s.stopsWithoutValue .check) ∧
    (s.i = none ∨ s.nfull = none → s.stopsWithoutValue .absorb) ∧
    (∀ i nfull, s.i = some i → s.nfull = some nfull → i < nfull →
      (s.base = none → s.stopsWithoutValue .absorb) ∧
      ∀ (base : Quad) (bs : List Byte), s.base = some base →
        readBytes s (base.toNat + 64 * i) 64 = .bytes bs → s.hash = none ∨ s.blocks = none →
        s.stopsWithoutValue .absorb) ∧
    (s.base = none ∨ s.nfull = none ∨ s.rest = none → s.stopsWithoutValue .tail) ∧
    (s.len = none ∨ s.rest = none ∨ s.scratch = none → s.stopsWithoutValue .padlen) ∧
    (s.scratch = none ∨ s.j = none → s.stopsWithoutValue .padcomp) ∧
    ∀ j < 2, s.j = some j → s.hash = none ∨ s.blocks = none ∨ s.npad = none →
      s.stopsWithoutValue .padcomp

/-! ### The command -/

/-- R4, R82, R93: an accepted `DIGEST` on a readable message ends in `DONE` with the digest of the
message and the block count; every internal item is without value (D23; the sampled operands by log entry
13) and nothing else changes. -/
def Obligations.DigestIsFunctionOfMessage : Prop :=
  ∀ (s : State) (m : List Byte), s.accepting → s.cfg.granularity = .command →
    s.goodArguments → s.message m →
    exec .digest s = .next { discardInternals s with
      seq := .sDone, digest := some (messageDigest m)
      blocks := some (BitVec.ofNat 64 ((m.length + 8) / 64 + 1)) }

/-- R83, R96, R111 to R113: bad arguments end the command whatever memory holds. -/
def Obligations.DigestRejectsBadArguments : Prop :=
  ∀ s : State, s.accepting → s.cfg.granularity = .command →
    (s.msgBase = 0 → exec .digest s = .next (raise .nullRef s)) ∧
    (s.msgBase ≠ 0 → s.msgLen = 0 → s.cfg.emptyPolicy = .reject →
      exec .digest s = .next (raise .zeroLen s)) ∧
    (s.msgBase ≠ 0 → 2 ^ 61 - 1 < s.msgLen.toNat →
      exec .digest s = .next (raise .lenOverflow s))

/-- R36, R114: a message byte that cannot be read ends the command, however many blocks were done. That a
device region is refused (U9) is the model's choice (log entry 7), and so is that the lowest address
decides within a block (log entry 17). -/
def Obligations.DigestRaisesBusError : Prop :=
  ∀ s : State, s.accepting → s.cfg.granularity = .command → s.goodArguments →
    (readBytes s s.msgBase.toNat s.msgLen.toNat = .busError →
      exec .digest s = .next (raise .busError s)) ∧
    ∀ a, readBytes s s.msgBase.toNat s.msgLen.toNat = .device a →
      exec .digest s = .refused (.deviceAccess a)

/-- R17, R18, R82: at the finer step granularities a `DIGEST` is accepted with its operands sampled,
the digest of the command before holds no value, and the sequencer is at `S_CHECK`. The fields for the
sampled operands and the three granularities are the model's choices (log entries 13, 10). -/
def Obligations.DigestIsAccepted : Prop :=
  ∀ s : State, s.accepting → s.cfg.granularity ≠ .command →
    exec .digest s = .next { s with
      seq := .sCheck, base := some s.msgBase, len := some s.msgLen, digest := none
      sub := .start, disturbed := false }

/-- R5, R81, R137, D25: at every step granularity a command comes to the end that the one-step
command gives, after finitely many steps. The three granularities are the model's choice (log entry 10),
and so are the refusals, of a device region (log entry 7). -/
def Obligations.GranularitiesEndAlike : Prop :=
  ∀ (s : State) (g : StepGranularity) (p : List HostAction),
    s.accepting → s.events = [] →
    ∃ n : Nat,
      match exec .digest (State.atGranularity .command { s with program := p }) with
      | .next t =>
        Sys2Proof.core.run n (State.atGranularity g { s with program := .command 1 :: p }) =
          .next (State.atGranularity g t)
      | .refused x =>
        Sys2Proof.core.run n (State.atGranularity g { s with program := .command 1 :: p }) =
          .refused x
      | .fault _ => False

/-- R47, R115, R117: a reserved command in `IDLE` or `DONE`, also one written with `WR CMD`, raises
`ILLEGAL_CMD`: `S_FAULT`, the cause in `ERR`, every result and internal item without value, and
`MSG_BASE`, `MSG_LEN`, memory and the rest as before. `raise` does the same for every cause. That the
sampled operands lose their values and the model's `sub` and `disturbed` are cleared is the model's
choice (log entries 13, 10, 9). -/
def Obligations.FaultEntryErasesResults : Prop :=
  ∀ (s u : State) (op : Quad) (x : Err),
    u = { s with
      seq := .sFault, err := x
      digest := none, blocks := none, hash := none, work := none
      sched := Vector.replicate 64 none, block := none, scratch := none
      i := none, j := none, t := none, nfull := none, rest := none, npad := none
      bitLength := none, base := none, len := none, sub := .start, disturbed := false } →
    raise x s = u ∧
    (x = .illegalCmd → op ≠ 1 → s.accepting →
      exec (.reserved op) s = .next u ∧ exec (.wr .cmd op) s = .next u)

/-- R118: in `FAULT` every write to `CMD` is ignored, operand writes take effect, and a step changes
neither the phase nor the cause unless it is the reset. -/
def Obligations.FaultAbsorbsUntilReset : Prop :=
  ∀ s : State, s.phase = .fault →
    exec .digest s = .next s ∧
    (∀ op, exec (.reserved op) s = .next s) ∧
    (∀ v, exec (.wr .cmd v) s = .next s) ∧
    (∀ v, exec (.wr .msgLen v) s = .next { s with msgLen := v }) ∧
    (∀ v : Quad, v.toNat < 2 ^ s.cfg.addrWidth →
      exec (.wr .msgBase v) s = .next { s with msgBase := v }) ∧
    ∀ t, step s = .next t →
      s.events.head? ≠ some (some .reset) →
      (s.program.head? ≠ some .reset ∨ ∃ e r, s.events = some e :: r) →
      t.phase = .fault ∧ t.err = s.err

/-- R24, R99: two commands with equal messages and equal lengths end with equal `D`, `BLOCKS` and
`STATUS`, wherever the messages lie and whatever ran before. -/
def Obligations.DigestIgnoresHistory : Prop :=
  ∀ (s₁ s₂ : State) (m : List Byte),
    s₁.accepting → s₂.accepting → s₁.err = .none → s₂.err = .none →
    s₁.cfg.granularity = .command → s₂.cfg.granularity = .command →
    s₁.cfg.emptyPolicy = s₂.cfg.emptyPolicy →
    s₁.msgBase ≠ 0 → s₂.msgBase ≠ 0 → s₁.msgLen = s₂.msgLen → s₁.message m → s₂.message m →
    ∃ t₁ t₂ : State, exec .digest s₁ = .next t₁ ∧ exec .digest s₂ = .next t₂ ∧
      t₁.digest = t₂.digest ∧ t₁.blocks = t₂.blocks ∧ statusByte t₁ = statusByte t₂

/-- R38: a command depends on no byte of memory outside its message. -/
def Obligations.DigestReadsMessageOnly : Prop :=
  ∀ (s : State) (m : Memory),
    (∀ a, s.msgBase.toNat ≤ a → a < s.msgBase.toNat + s.msgLen.toNat →
      readByte { s with mem := m } a = readByte s a) →
    exec .digest { s with mem := m } = mapNext (fun t => { t with mem := m }) (exec .digest s)

/-! ### Host accesses -/

/-- R18: operand writes outside `BUSY`. -/
def Obligations.WriteSetsOperand : Prop :=
  ∀ (s : State) (v : Quad), s.phase ≠ .busy →
    exec (.wr .msgLen v) s = .next { s with msgLen := v } ∧
    (v.toNat < 2 ^ s.cfg.addrWidth → exec (.wr .msgBase v) s = .next { s with msgBase := v })

/-- R19, R46, R47: a write to `CMD` issues the command whose opcode is the value; a wider value with
a bit above 7 set is reserved. -/
def Obligations.WriteIssuesCommand : Prop :=
  ∀ (s : State) (v : Quad),
    exec (.wr .cmd v) s = if v = 1 then exec .digest s else exec (.reserved v) s

/-- R48 (log entry 4): accesses that have no effect and return no value. -/
def Obligations.ForbiddenAccessHasNoEffect : Prop :=
  ∀ (s : State) (v : Quad) (reg : HostReg), s.phase ≠ .busy →
    ((reg = .status ∨ reg = .blocks ∨ (∃ j, reg = .digest j) ∨ ∃ n, reg = .unlisted n) →
      exec (.wr reg v) s = .next s) ∧
    (2 ^ s.cfg.addrWidth ≤ v.toNat → exec (.wr .msgBase v) s = .next s) ∧
    ((reg = .cmd ∨ ∃ n, reg = .unlisted n) →
      exec (.rd reg) s = .next { s with readLog := s.readLog ++ [⟨reg, none⟩] })

/-- R18, R20: a read of `STATUS` in any phase, with its codes, and of the operand registers outside
`BUSY`. -/
def Obligations.ReadReturnsStatusAndOperands : Prop :=
  ∀ s : State,
    (∃ v : Quad,
      exec (.rd .status) s = .next { s with readLog := s.readLog ++ [⟨.status, some v⟩] } ∧
      v.toNat % 4 = (match s.phase with | .idle => 0 | .busy => 1 | .done => 2 | .fault => 3) ∧
      v.toNat / 4 = (match s.err with
        | .none => 0 | .nullRef => 1 | .zeroLen => 2 | .lenOverflow => 3 | .busError => 4
        | .illegalCmd => 5)) ∧
    (s.phase ≠ .busy →
      exec (.rd .msgBase) s =
        .next { s with readLog := s.readLog ++ [⟨.msgBase, some s.msgBase⟩] } ∧
      exec (.rd .msgLen) s =
        .next { s with readLog := s.readLog ++ [⟨.msgLen, some s.msgLen⟩] })

/-- R17, R21, R133: in `DONE` the digest bytes and the block count can be read, any number of times;
`BLOCKS` also in `IDLE`. -/
def Obligations.ReadReturnsDigestInDone : Prop :=
  ∀ s : State,
    (∀ (d : Vector Byte 32) (j : Fin 32), s.phase = .done → s.digest = some d →
      exec (.rd (.digest j)) s =
        .next { s with readLog := s.readLog ++ [⟨.digest j, some (d[j].setWidth 64)⟩] }) ∧
    (∀ n : Quad, s.accepting → s.blocks = some n →
      exec (.rd .blocks) s = .next { s with readLog := s.readLog ++ [⟨.blocks, some n⟩] })

/-- The model's choice (log entry 3) on R133 and U6: a read with no defined value returns a free
value and goes on. -/
def Obligations.UndefinedReadIsFree : Prop :=
  ∀ s : State,
    (∀ j : Fin 32, s.phase = .idle ∨ s.phase = .fault →
      exec (.rd (.digest j)) s = .next { s with
        freeCount := s.freeCount + 1
        readLog := s.readLog ++
          [⟨.digest j, some (((Config.freeValue s.freeCount).setWidth 8).setWidth 64)⟩] }) ∧
    (s.phase = .fault →
      exec (.rd .blocks) s = .next { s with
        freeCount := s.freeCount + 1
        readLog := s.readLog ++ [⟨.blocks, some (Config.freeValue s.freeCount)⟩] })

/-- The model's choice (log entry 6) on R134 and U8 (`refuse`): no access while `BUSY` but a read of
`STATUS`, which returns `0x01` when `ERR` is `NONE`. -/
def Obligations.BusyRefusesAccess : Prop :=
  ∀ s : State, s.phase = .busy →
    exec .digest s = .refused .accessWhileBusy ∧
    (∀ op, exec (.reserved op) s = .refused .accessWhileBusy) ∧
    (∀ reg v, exec (.wr reg v) s = .refused .accessWhileBusy) ∧
    (∀ reg, reg ≠ .status → exec (.rd reg) s = .refused .accessWhileBusy) ∧
    (s.err = .none →
      exec (.rd .status) s = .next { s with readLog := s.readLog ++ [⟨.status, some 0x01⟩] })

/-! ### The machine -/

/-- R27, R130: the reset input, in any phase, as an event of any agent or as the host's next line. What it
leaves in `base`, `len`, `sub`, `disturbed` and `unitOut` is the model's choice (log entries 13, 24). -/
def Obligations.ResetReachesResetState : Prop :=
  ∀ (s u : State),
    u = { s with
      seq := .sIdle, err := .none, msgBase := 0, msgLen := 0, blocks := some 0
      digest := none, hash := none, work := none, sched := Vector.replicate 64 none
      block := none, scratch := none, i := none, j := none, t := none, nfull := none
      rest := none, npad := none, bitLength := none, base := none, len := none
      sub := .start, disturbed := false, unitOut := none } →
    (∀ rest, s.events = some .reset :: rest → step s = .next { u with events := rest }) ∧
    (∀ rest, s.events = [] → s.phase ≠ .busy → s.program = .reset :: rest →
      step s = .next { u with program := rest })

/-- The invariant holds at reset. -/
def Obligations.ResetMeetsInvariant : Prop := State.reset.Inv

/-- R20, R22, R24: every step keeps the invariant, from every state that meets it. -/
def Obligations.StepKeepsInvariant : Prop :=
  ∀ s t : State, s.Inv → step s = .next t → t.Inv

/-- R24, R27: "No rule reads any "no value" item before writing it": a state that meets the invariant
never faults. -/
def Obligations.InvariantExcludesFaults : Prop :=
  ∀ (s : State) (x : Fault), s.Inv → step s ≠ .fault x

/-- R98, R131, R137: with a host that keeps its duties the machine never stops, and goes on so. -/
def Obligations.DutifulHostNeverStops : Prop :=
  ∀ s : State, s.Inv → s.dutiful → ∃ t : State, step s = .next t ∧ t.Inv ∧ t.dutiful

/-- R31: no instruction changes message memory: every address reads as before. -/
def Obligations.NoInstructionWritesMemory : Prop :=
  ∀ (i : Instr) (s t : State), exec i s = .next t →
    t.mem = s.mem ∧ ∀ a, readByte t a = readByte s a

/-- R18, R25, R117: an instruction other than an operand write leaves both operand registers, and
none changes the platform, the parameters or what is pending outside. -/
def Obligations.OnlyWritesChangeOperands : Prop :=
  ∀ (i : Instr) (s t : State), exec i s = .next t →
    ((∀ v, i ≠ .wr .msgBase v) → t.msgBase = s.msgBase) ∧
    ((∀ v, i ≠ .wr .msgLen v) → t.msgLen = s.msgLen) ∧
    t.cfg = s.cfg ∧ t.devices = s.devices ∧ t.program = s.program ∧ t.events = s.events ∧
    ((∀ reg, i ≠ .rd reg) → t.readLog = s.readLog)

/-- The step runs the decoded instruction: the host's next word, at a state with that word taken
from its program; and the word another agent presents, in any phase. A step before which other agents
do nothing is the engine's and its host's own (log entry 11), so what the statements say of a step with
no events holds for it. -/
def Obligations.StepRunsDecodedWord : Prop :=
  ∀ (s : State) (i : Instr) (w : BitVec 80) (v : Quad),
    (∀ rest, s.events = [] → s.phase ≠ .busy → s.program = .transaction w :: rest →
      decode (.transaction w) = .ok i → step s = exec i { s with program := rest }) ∧
    (∀ rest, s.events = [] → s.phase ≠ .busy → s.program = .command v :: rest →
      decode (.command v) = .ok i → step s = exec i { s with program := rest }) ∧
    (∀ rest, s.events = some (.transaction w) :: rest →
      decode (.transaction w) = .ok i → step s = exec i { s with events := rest }) ∧
    (∀ rest, s.events = some (.command v) :: rest →
      decode (.command v) = .ok i → step s = exec i { s with events := rest }) ∧
    (s.events = [] → s.phase ≠ .busy → s.program = [] → step s = .next s) ∧
    ∀ rest, s.events = none :: rest →
      step s = mapNext (fun t => { t with events := rest }) (step { s with events := [] })

/-- R82, R98: while a command runs the issuing host is blocked, and the step is the row of R82's
table at the sequencer position; at the finest granularity too, but for a position with a block to
process. The three granularities are the model's choice (log entry 10). -/
def Obligations.StepRunsSequencerRow : Prop :=
  ∀ (s : State) (i : Instr), s.events = [] → stepAt s.seq = some i →
    (s.cfg.granularity ≠ .round ∨ (s.seq ≠ .sAbsorb ∧ s.seq ≠ .sPadcomp) ∨
      (s.seq = .sAbsorb ∧ ∃ k n : Nat, s.i = some k ∧ s.nfull = some n ∧ n ≤ k)) →
    step s = exec i s ∧ ∀ t, step s = .next t → t.program = s.program

/-- R77, R79, R81: at the finest granularity one step inside a block runs one `ROUND`, and after round
63 comes `FEEDBACK`; the same in a full block and in a pad block. The cut is the model's choice (log entry
10). -/
def Obligations.FinestStepRunsOneRound : Prop :=
  ∀ (s : State) (t : Fin 64) (i nfull : Nat) (v : Working) (w : Word),
    s.events = [] → s.cfg.granularity = .round →
    (s.seq = .sAbsorb ∧ s.i = some i ∧ s.nfull = some nfull ∧ i < nfull) ∨ s.seq = .sPadcomp →
    s.sub = .round → s.t = some t → s.work = some v → s.sched[t] = some w →
    step s = .next { s with
      work := some (mixRound (roundConstant t) w v)
      t := if h : t.val + 1 < 64 then some ⟨t.val + 1, h⟩ else none
      sub := if t.val + 1 < 64 then .round else .feedback }

/-- R81, R82, the cut being the model's (log entry 10): at the finest granularity the first step of a
block fetches it, `LDW`, `EXPAND` and `CINIT` are a step each, and the step of `FEEDBACK` also counts
the block (R79) and ends its row; the same in a full block and in a pad block. That a block in a device
region is refused (U9) is the model's choice too (log entry 7), and so is that the lowest address decides
within a block (log entry 17). -/
def Obligations.FinestStepRunsBlockPositions : Prop :=
  ∀ s : State, s.events = [] → s.cfg.granularity = .round →
    (∀ (base : Quad) (i nfull : Nat), s.seq = .sAbsorb → s.sub = .start → s.base = some base →
      s.i = some i → s.nfull = some nfull → i < nfull →
      (∀ bs, readBytes s (base.toNat + 64 * i) 64 = .bytes bs →
        step s = .next { s with block := some (toBuffer 64 bs), sub := .ldw }) ∧
      (readBytes s (base.toNat + 64 * i) 64 = .busError → step s = .next (raise .busError s)) ∧
      ∀ a, readBytes s (base.toNat + 64 * i) 64 = .device a →
        step s = .refused (.deviceAccess a)) ∧
    (∀ (buf : Vector Byte 128) (j : Nat), s.seq = .sPadcomp → s.sub = .start →
      s.scratch = some buf → s.j = some j → (hj : j < 2) →
      ∃ b : Block, (∀ k, (hk : k < 64) → b[k] = buf[64 * j + k]) ∧
        step s = .next { s with block := some b, sub := .ldw }) ∧
    ((s.seq = .sAbsorb ∧ ∃ i nfull : Nat, s.i = some i ∧ s.nfull = some nfull ∧ i < nfull) ∨
        s.seq = .sPadcomp →
      (∀ u, s.sub = .ldw → exec .ldw s = .next u → step s = .next { u with sub := .expand }) ∧
      (∀ u, s.sub = .expand → exec .expand s = .next u → step s = .next { u with sub := .cinit }) ∧
      ∀ u, s.sub = .cinit → exec .cinit s = .next u →
        step s = .next { u with sub := .round, t := some 0 }) ∧
    ∀ (u : State) (n : Quad), s.sub = .feedback → exec .feedback s = .next u → s.blocks = some n →
      (∀ i nfull : Nat, s.seq = .sAbsorb → s.i = some i → s.nfull = some nfull → i < nfull →
        step s = .next { u with
          sub := .start, blocks := some (n + 1), sched := noSchedule, i := some (i + 1)
          seq := if i + 1 < nfull then .sAbsorb else .sTail }) ∧
      ∀ j npad : Nat, s.seq = .sPadcomp → s.j = some j → s.npad = some npad →
        step s = .next { u with
          sub := .start, blocks := some (n + 1), sched := noSchedule, j := some (j + 1)
          seq := if j + 1 < npad then .sPadcomp else .sSerialize
          scratch := if j + 1 < npad then s.scratch else none }

/-- R35, R36: what a read of one byte and of several answers. Below `2^ADDR_WIDTH` an address that is
not listed is one the platform does not admit (log entry 8), a device region has an answer of its own
(log entry 7), and the lowest address that is no ordinary byte decides (log entry 17): the model's
choices. -/
def Obligations.MemoryReadAnswers : Prop :=
  ∀ (s : State) (a : Nat),
    (s.inDevice a = true ↔ ∃ r ∈ s.devices, r.base ≤ a ∧ a < r.base + r.size) ∧
    (s.mem.wf s.cfg = true → ∀ b, s.mem.lookup a = some b ↔ (a, b) ∈ s.mem) ∧
    (2 ^ s.cfg.addrWidth ≤ a → readByte s a = .busError) ∧
    (a < 2 ^ s.cfg.addrWidth → s.inDevice a = true → readByte s a = .device) ∧
    (a < 2 ^ s.cfg.addrWidth → s.inDevice a = false → s.mem.lookup a = none →
      readByte s a = .busError) ∧
    (∀ b, a < 2 ^ s.cfg.addrWidth → s.inDevice a = false → s.mem.lookup a = some b →
      readByte s a = .byte b) ∧
    ∀ n : Nat,
      (∀ bs, readBytes s a n = .bytes bs ↔
        bs.length = n ∧ ∀ k, (h : k < bs.length) → readByte s (a + k) = .byte bs[k]) ∧
      ∀ k < n, (∀ k' < k, ∃ b, readByte s (a + k') = .byte b) →
        (readByte s (a + k) = .busError → readBytes s a n = .busError) ∧
        (readByte s (a + k) = .device → readBytes s a n = .device (a + k))

/-- 20_memory.md, log entry 8: an outside write to an address that is listed, and to one that is not,
and the canonical form. -/
def Obligations.MemoryWriteReadsBack : Prop :=
  ∀ (cfg : Config) (m : Memory) (a x : Nat) (b c : Byte), m.wf cfg = true →
    (m.write a b).wf cfg = true ∧ (m.lookup a = none → m.write a b = m) ∧
    (x ≠ a → (m.write a b).lookup x = m.lookup x) ∧
    (m.lookup a = some c → (m.write a b).lookup a = some b ∧ (m.write a b).write a c = m)

/-! ### Formatting, on the host -/

/-- R101, R104: 64 lowercase hexadecimal characters, which decode to the digest. -/
def Obligations.HexRoundTrips : Prop :=
  ∀ d : Vector Byte 32,
    (digestToHex d).length = 64 ∧
    (∀ c ∈ digestToHex d, c ∈ ['0', '1', '2', '3', '4', '5', '6', '7', '8', '9',
      'a', 'b', 'c', 'd', 'e', 'f']) ∧
    hexDecode (digestToHex d) = d.toList ∧ digestToHexConsuming d = digestToHex d

/-- R103: with the default style the dump adds 96 characters to the sink: for each byte its two hex
digits and a line break, in order. -/
def Obligations.DumpPrintsOneBytePerLine : Prop :=
  ∀ (sink : List Char) (d : Vector Byte 32),
    (printDigest {} sink d).length = sink.length + 96 ∧
    (printDigest {} sink d).take sink.length = sink ∧
    ∀ j, (h : j < 32) →
      ((printDigest {} sink d).drop (sink.length + 3 * j)).take 3 =
        ((digestToHex d).drop (2 * j)).take 2 ++ ['\n']
end

