-- ==== Sys2Proof/Laws/State.lean ====
section
/-! SUPPORT. What each named update of the state does to each field, so that no later proof unfolds one. -/

namespace Sys2Proof.Machine

/-! ### `discardInternals` -/

@[simp] theorem discardInternals_msgBase (s : State) : (discardInternals s).msgBase = s.msgBase := rfl
@[simp] theorem discardInternals_msgLen (s : State) : (discardInternals s).msgLen = s.msgLen := rfl
@[simp] theorem discardInternals_err (s : State) : (discardInternals s).err = s.err := rfl
@[simp] theorem discardInternals_blocks (s : State) : (discardInternals s).blocks = s.blocks := rfl
@[simp] theorem discardInternals_digest (s : State) : (discardInternals s).digest = s.digest := rfl
@[simp] theorem discardInternals_hash (s : State) : (discardInternals s).hash = none := rfl
@[simp] theorem discardInternals_work (s : State) : (discardInternals s).work = none := rfl
@[simp] theorem discardInternals_sched (s : State) : (discardInternals s).sched = noSchedule := rfl
@[simp] theorem discardInternals_block (s : State) : (discardInternals s).block = none := rfl
@[simp] theorem discardInternals_scratch (s : State) : (discardInternals s).scratch = none := rfl
@[simp] theorem discardInternals_seq (s : State) : (discardInternals s).seq = s.seq := rfl
@[simp] theorem discardInternals_i (s : State) : (discardInternals s).i = none := rfl
@[simp] theorem discardInternals_j (s : State) : (discardInternals s).j = none := rfl
@[simp] theorem discardInternals_t (s : State) : (discardInternals s).t = none := rfl
@[simp] theorem discardInternals_nfull (s : State) : (discardInternals s).nfull = none := rfl
@[simp] theorem discardInternals_rest (s : State) : (discardInternals s).rest = none := rfl
@[simp] theorem discardInternals_npad (s : State) : (discardInternals s).npad = none := rfl
@[simp] theorem discardInternals_bitLength (s : State) : (discardInternals s).bitLength = none := rfl
@[simp] theorem discardInternals_base (s : State) : (discardInternals s).base = none := rfl
@[simp] theorem discardInternals_len (s : State) : (discardInternals s).len = none := rfl
@[simp] theorem discardInternals_sub (s : State) : (discardInternals s).sub = .start := rfl
@[simp] theorem discardInternals_disturbed (s : State) : (discardInternals s).disturbed = false := rfl
@[simp] theorem discardInternals_mem (s : State) : (discardInternals s).mem = s.mem := rfl
@[simp] theorem discardInternals_devices (s : State) : (discardInternals s).devices = s.devices := rfl
@[simp] theorem discardInternals_cfg (s : State) : (discardInternals s).cfg = s.cfg := rfl
@[simp] theorem discardInternals_program (s : State) : (discardInternals s).program = s.program := rfl
@[simp] theorem discardInternals_events (s : State) : (discardInternals s).events = s.events := rfl
@[simp] theorem discardInternals_readLog (s : State) : (discardInternals s).readLog = s.readLog := rfl
@[simp] theorem discardInternals_unitOut (s : State) : (discardInternals s).unitOut = s.unitOut := rfl
@[simp] theorem discardInternals_freeCount (s : State) : (discardInternals s).freeCount = s.freeCount := rfl

/-! ### `raise` -/

@[simp] theorem raise_msgBase (x : Err) (s : State) : (raise x s).msgBase = s.msgBase := rfl
@[simp] theorem raise_msgLen (x : Err) (s : State) : (raise x s).msgLen = s.msgLen := rfl
@[simp] theorem raise_err (x : Err) (s : State) : (raise x s).err = x := rfl
@[simp] theorem raise_blocks (x : Err) (s : State) : (raise x s).blocks = none := rfl
@[simp] theorem raise_digest (x : Err) (s : State) : (raise x s).digest = none := rfl
@[simp] theorem raise_hash (x : Err) (s : State) : (raise x s).hash = none := rfl
@[simp] theorem raise_work (x : Err) (s : State) : (raise x s).work = none := rfl
@[simp] theorem raise_sched (x : Err) (s : State) : (raise x s).sched = noSchedule := rfl
@[simp] theorem raise_block (x : Err) (s : State) : (raise x s).block = none := rfl
@[simp] theorem raise_scratch (x : Err) (s : State) : (raise x s).scratch = none := rfl
@[simp] theorem raise_seq (x : Err) (s : State) : (raise x s).seq = .sFault := rfl
@[simp] theorem raise_i (x : Err) (s : State) : (raise x s).i = none := rfl
@[simp] theorem raise_j (x : Err) (s : State) : (raise x s).j = none := rfl
@[simp] theorem raise_t (x : Err) (s : State) : (raise x s).t = none := rfl
@[simp] theorem raise_nfull (x : Err) (s : State) : (raise x s).nfull = none := rfl
@[simp] theorem raise_rest (x : Err) (s : State) : (raise x s).rest = none := rfl
@[simp] theorem raise_npad (x : Err) (s : State) : (raise x s).npad = none := rfl
@[simp] theorem raise_bitLength (x : Err) (s : State) : (raise x s).bitLength = none := rfl
@[simp] theorem raise_base (x : Err) (s : State) : (raise x s).base = none := rfl
@[simp] theorem raise_len (x : Err) (s : State) : (raise x s).len = none := rfl
@[simp] theorem raise_sub (x : Err) (s : State) : (raise x s).sub = .start := rfl
@[simp] theorem raise_disturbed (x : Err) (s : State) : (raise x s).disturbed = false := rfl
@[simp] theorem raise_mem (x : Err) (s : State) : (raise x s).mem = s.mem := rfl
@[simp] theorem raise_devices (x : Err) (s : State) : (raise x s).devices = s.devices := rfl
@[simp] theorem raise_cfg (x : Err) (s : State) : (raise x s).cfg = s.cfg := rfl
@[simp] theorem raise_program (x : Err) (s : State) : (raise x s).program = s.program := rfl
@[simp] theorem raise_events (x : Err) (s : State) : (raise x s).events = s.events := rfl
@[simp] theorem raise_readLog (x : Err) (s : State) : (raise x s).readLog = s.readLog := rfl
@[simp] theorem raise_unitOut (x : Err) (s : State) : (raise x s).unitOut = s.unitOut := rfl
@[simp] theorem raise_freeCount (x : Err) (s : State) : (raise x s).freeCount = s.freeCount := rfl

/-! ### `engineReset` -/

@[simp] theorem engineReset_msgBase (s : State) : (engineReset s).msgBase = 0 := rfl
@[simp] theorem engineReset_msgLen (s : State) : (engineReset s).msgLen = 0 := rfl
@[simp] theorem engineReset_err (s : State) : (engineReset s).err = .none := rfl
@[simp] theorem engineReset_blocks (s : State) : (engineReset s).blocks = some 0 := rfl
@[simp] theorem engineReset_digest (s : State) : (engineReset s).digest = none := rfl
@[simp] theorem engineReset_hash (s : State) : (engineReset s).hash = none := rfl
@[simp] theorem engineReset_work (s : State) : (engineReset s).work = none := rfl
@[simp] theorem engineReset_sched (s : State) : (engineReset s).sched = noSchedule := rfl
@[simp] theorem engineReset_block (s : State) : (engineReset s).block = none := rfl
@[simp] theorem engineReset_scratch (s : State) : (engineReset s).scratch = none := rfl
@[simp] theorem engineReset_seq (s : State) : (engineReset s).seq = .sIdle := rfl
@[simp] theorem engineReset_i (s : State) : (engineReset s).i = none := rfl
@[simp] theorem engineReset_j (s : State) : (engineReset s).j = none := rfl
@[simp] theorem engineReset_t (s : State) : (engineReset s).t = none := rfl
@[simp] theorem engineReset_nfull (s : State) : (engineReset s).nfull = none := rfl
@[simp] theorem engineReset_rest (s : State) : (engineReset s).rest = none := rfl
@[simp] theorem engineReset_npad (s : State) : (engineReset s).npad = none := rfl
@[simp] theorem engineReset_bitLength (s : State) : (engineReset s).bitLength = none := rfl
@[simp] theorem engineReset_base (s : State) : (engineReset s).base = none := rfl
@[simp] theorem engineReset_len (s : State) : (engineReset s).len = none := rfl
@[simp] theorem engineReset_sub (s : State) : (engineReset s).sub = .start := rfl
@[simp] theorem engineReset_disturbed (s : State) : (engineReset s).disturbed = false := rfl
@[simp] theorem engineReset_mem (s : State) : (engineReset s).mem = s.mem := rfl
@[simp] theorem engineReset_devices (s : State) : (engineReset s).devices = s.devices := rfl
@[simp] theorem engineReset_cfg (s : State) : (engineReset s).cfg = s.cfg := rfl
@[simp] theorem engineReset_program (s : State) : (engineReset s).program = s.program := rfl
@[simp] theorem engineReset_events (s : State) : (engineReset s).events = s.events := rfl
@[simp] theorem engineReset_readLog (s : State) : (engineReset s).readLog = s.readLog := rfl
@[simp] theorem engineReset_unitOut (s : State) : (engineReset s).unitOut = none := rfl
@[simp] theorem engineReset_freeCount (s : State) : (engineReset s).freeCount = s.freeCount := rfl

/-! ### `acceptDigest` -/

@[simp] theorem acceptDigest_msgBase (s : State) : (acceptDigest s).msgBase = s.msgBase := rfl
@[simp] theorem acceptDigest_msgLen (s : State) : (acceptDigest s).msgLen = s.msgLen := rfl
@[simp] theorem acceptDigest_err (s : State) : (acceptDigest s).err = s.err := rfl
@[simp] theorem acceptDigest_blocks (s : State) : (acceptDigest s).blocks = s.blocks := rfl
@[simp] theorem acceptDigest_digest (s : State) : (acceptDigest s).digest = none := rfl
@[simp] theorem acceptDigest_hash (s : State) : (acceptDigest s).hash = s.hash := rfl
@[simp] theorem acceptDigest_work (s : State) : (acceptDigest s).work = s.work := rfl
@[simp] theorem acceptDigest_sched (s : State) : (acceptDigest s).sched = s.sched := rfl
@[simp] theorem acceptDigest_block (s : State) : (acceptDigest s).block = s.block := rfl
@[simp] theorem acceptDigest_scratch (s : State) : (acceptDigest s).scratch = s.scratch := rfl
@[simp] theorem acceptDigest_seq (s : State) : (acceptDigest s).seq = .sCheck := rfl
@[simp] theorem acceptDigest_i (s : State) : (acceptDigest s).i = s.i := rfl
@[simp] theorem acceptDigest_j (s : State) : (acceptDigest s).j = s.j := rfl
@[simp] theorem acceptDigest_t (s : State) : (acceptDigest s).t = s.t := rfl
@[simp] theorem acceptDigest_nfull (s : State) : (acceptDigest s).nfull = s.nfull := rfl
@[simp] theorem acceptDigest_rest (s : State) : (acceptDigest s).rest = s.rest := rfl
@[simp] theorem acceptDigest_npad (s : State) : (acceptDigest s).npad = s.npad := rfl
@[simp] theorem acceptDigest_bitLength (s : State) : (acceptDigest s).bitLength = s.bitLength := rfl
@[simp] theorem acceptDigest_base (s : State) : (acceptDigest s).base = some s.msgBase := rfl
@[simp] theorem acceptDigest_len (s : State) : (acceptDigest s).len = some s.msgLen := rfl
@[simp] theorem acceptDigest_sub (s : State) : (acceptDigest s).sub = .start := rfl
@[simp] theorem acceptDigest_disturbed (s : State) : (acceptDigest s).disturbed = false := rfl
@[simp] theorem acceptDigest_mem (s : State) : (acceptDigest s).mem = s.mem := rfl
@[simp] theorem acceptDigest_devices (s : State) : (acceptDigest s).devices = s.devices := rfl
@[simp] theorem acceptDigest_cfg (s : State) : (acceptDigest s).cfg = s.cfg := rfl
@[simp] theorem acceptDigest_program (s : State) : (acceptDigest s).program = s.program := rfl
@[simp] theorem acceptDigest_events (s : State) : (acceptDigest s).events = s.events := rfl
@[simp] theorem acceptDigest_readLog (s : State) : (acceptDigest s).readLog = s.readLog := rfl
@[simp] theorem acceptDigest_unitOut (s : State) : (acceptDigest s).unitOut = s.unitOut := rfl
@[simp] theorem acceptDigest_freeCount (s : State) : (acceptDigest s).freeCount = s.freeCount := rfl

/-! ### `init` -/

@[simp] theorem init_msgBase (s : State) : (init s).msgBase = s.msgBase := rfl
@[simp] theorem init_msgLen (s : State) : (init s).msgLen = s.msgLen := rfl
@[simp] theorem init_err (s : State) : (init s).err = s.err := rfl
@[simp] theorem init_blocks (s : State) : (init s).blocks = some 0 := rfl
@[simp] theorem init_digest (s : State) : (init s).digest = s.digest := rfl
@[simp] theorem init_hash (s : State) : (init s).hash = some iv := rfl
@[simp] theorem init_work (s : State) : (init s).work = s.work := rfl
@[simp] theorem init_sched (s : State) : (init s).sched = s.sched := rfl
@[simp] theorem init_block (s : State) : (init s).block = s.block := rfl
@[simp] theorem init_scratch (s : State) : (init s).scratch = s.scratch := rfl
@[simp] theorem init_seq (s : State) : (init s).seq = s.seq := rfl
@[simp] theorem init_i (s : State) : (init s).i = some 0 := rfl
@[simp] theorem init_j (s : State) : (init s).j = s.j := rfl
@[simp] theorem init_t (s : State) : (init s).t = s.t := rfl
@[simp] theorem init_nfull (s : State) : (init s).nfull = s.nfull := rfl
@[simp] theorem init_rest (s : State) : (init s).rest = s.rest := rfl
@[simp] theorem init_npad (s : State) : (init s).npad = s.npad := rfl
@[simp] theorem init_bitLength (s : State) : (init s).bitLength = s.bitLength := rfl
@[simp] theorem init_base (s : State) : (init s).base = s.base := rfl
@[simp] theorem init_len (s : State) : (init s).len = s.len := rfl
@[simp] theorem init_sub (s : State) : (init s).sub = s.sub := rfl
@[simp] theorem init_disturbed (s : State) : (init s).disturbed = s.disturbed := rfl
@[simp] theorem init_mem (s : State) : (init s).mem = s.mem := rfl
@[simp] theorem init_devices (s : State) : (init s).devices = s.devices := rfl
@[simp] theorem init_cfg (s : State) : (init s).cfg = s.cfg := rfl
@[simp] theorem init_program (s : State) : (init s).program = s.program := rfl
@[simp] theorem init_events (s : State) : (init s).events = s.events := rfl
@[simp] theorem init_readLog (s : State) : (init s).readLog = s.readLog := rfl
@[simp] theorem init_unitOut (s : State) : (init s).unitOut = s.unitOut := rfl
@[simp] theorem init_freeCount (s : State) : (init s).freeCount = s.freeCount := rfl

/-! ### `logRead` -/

@[simp] theorem logRead_msgBase (reg : HostReg) (v : Option Quad) (s : State) :
    (logRead reg v s).msgBase = s.msgBase := rfl
@[simp] theorem logRead_msgLen (reg : HostReg) (v : Option Quad) (s : State) :
    (logRead reg v s).msgLen = s.msgLen := rfl
@[simp] theorem logRead_err (reg : HostReg) (v : Option Quad) (s : State) :
    (logRead reg v s).err = s.err := rfl
@[simp] theorem logRead_blocks (reg : HostReg) (v : Option Quad) (s : State) :
    (logRead reg v s).blocks = s.blocks := rfl
@[simp] theorem logRead_digest (reg : HostReg) (v : Option Quad) (s : State) :
    (logRead reg v s).digest = s.digest := rfl
@[simp] theorem logRead_hash (reg : HostReg) (v : Option Quad) (s : State) :
    (logRead reg v s).hash = s.hash := rfl
@[simp] theorem logRead_work (reg : HostReg) (v : Option Quad) (s : State) :
    (logRead reg v s).work = s.work := rfl
@[simp] theorem logRead_sched (reg : HostReg) (v : Option Quad) (s : State) :
    (logRead reg v s).sched = s.sched := rfl
@[simp] theorem logRead_block (reg : HostReg) (v : Option Quad) (s : State) :
    (logRead reg v s).block = s.block := rfl
@[simp] theorem logRead_scratch (reg : HostReg) (v : Option Quad) (s : State) :
    (logRead reg v s).scratch = s.scratch := rfl
@[simp] theorem logRead_seq (reg : HostReg) (v : Option Quad) (s : State) :
    (logRead reg v s).seq = s.seq := rfl
@[simp] theorem logRead_i (reg : HostReg) (v : Option Quad) (s : State) :
    (logRead reg v s).i = s.i := rfl
@[simp] theorem logRead_j (reg : HostReg) (v : Option Quad) (s : State) :
    (logRead reg v s).j = s.j := rfl
@[simp] theorem logRead_t (reg : HostReg) (v : Option Quad) (s : State) :
    (logRead reg v s).t = s.t := rfl
@[simp] theorem logRead_nfull (reg : HostReg) (v : Option Quad) (s : State) :
    (logRead reg v s).nfull = s.nfull := rfl
@[simp] theorem logRead_rest (reg : HostReg) (v : Option Quad) (s : State) :
    (logRead reg v s).rest = s.rest := rfl
@[simp] theorem logRead_npad (reg : HostReg) (v : Option Quad) (s : State) :
    (logRead reg v s).npad = s.npad := rfl
@[simp] theorem logRead_bitLength (reg : HostReg) (v : Option Quad) (s : State) :
    (logRead reg v s).bitLength = s.bitLength := rfl
@[simp] theorem logRead_base (reg : HostReg) (v : Option Quad) (s : State) :
    (logRead reg v s).base = s.base := rfl
@[simp] theorem logRead_len (reg : HostReg) (v : Option Quad) (s : State) :
    (logRead reg v s).len = s.len := rfl
@[simp] theorem logRead_sub (reg : HostReg) (v : Option Quad) (s : State) :
    (logRead reg v s).sub = s.sub := rfl
@[simp] theorem logRead_disturbed (reg : HostReg) (v : Option Quad) (s : State) :
    (logRead reg v s).disturbed = s.disturbed := rfl
@[simp] theorem logRead_mem (reg : HostReg) (v : Option Quad) (s : State) :
    (logRead reg v s).mem = s.mem := rfl
@[simp] theorem logRead_devices (reg : HostReg) (v : Option Quad) (s : State) :
    (logRead reg v s).devices = s.devices := rfl
@[simp] theorem logRead_cfg (reg : HostReg) (v : Option Quad) (s : State) :
    (logRead reg v s).cfg = s.cfg := rfl
@[simp] theorem logRead_program (reg : HostReg) (v : Option Quad) (s : State) :
    (logRead reg v s).program = s.program := rfl
@[simp] theorem logRead_events (reg : HostReg) (v : Option Quad) (s : State) :
    (logRead reg v s).events = s.events := rfl
@[simp] theorem logRead_readLog (reg : HostReg) (v : Option Quad) (s : State) :
    (logRead reg v s).readLog = s.readLog ++ [{ reg := reg, value := v }] := rfl
@[simp] theorem logRead_unitOut (reg : HostReg) (v : Option Quad) (s : State) :
    (logRead reg v s).unitOut = s.unitOut := rfl
@[simp] theorem logRead_freeCount (reg : HostReg) (v : Option Quad) (s : State) :
    (logRead reg v s).freeCount = s.freeCount := rfl

/-! ### `drawFree` -/

@[simp] theorem drawFree_msgBase (s : State) : (drawFree s).2.msgBase = s.msgBase := rfl
@[simp] theorem drawFree_msgLen (s : State) : (drawFree s).2.msgLen = s.msgLen := rfl
@[simp] theorem drawFree_err (s : State) : (drawFree s).2.err = s.err := rfl
@[simp] theorem drawFree_blocks (s : State) : (drawFree s).2.blocks = s.blocks := rfl
@[simp] theorem drawFree_digest (s : State) : (drawFree s).2.digest = s.digest := rfl
@[simp] theorem drawFree_hash (s : State) : (drawFree s).2.hash = s.hash := rfl
@[simp] theorem drawFree_work (s : State) : (drawFree s).2.work = s.work := rfl
@[simp] theorem drawFree_sched (s : State) : (drawFree s).2.sched = s.sched := rfl
@[simp] theorem drawFree_block (s : State) : (drawFree s).2.block = s.block := rfl
@[simp] theorem drawFree_scratch (s : State) : (drawFree s).2.scratch = s.scratch := rfl
@[simp] theorem drawFree_seq (s : State) : (drawFree s).2.seq = s.seq := rfl
@[simp] theorem drawFree_i (s : State) : (drawFree s).2.i = s.i := rfl
@[simp] theorem drawFree_j (s : State) : (drawFree s).2.j = s.j := rfl
@[simp] theorem drawFree_t (s : State) : (drawFree s).2.t = s.t := rfl
@[simp] theorem drawFree_nfull (s : State) : (drawFree s).2.nfull = s.nfull := rfl
@[simp] theorem drawFree_rest (s : State) : (drawFree s).2.rest = s.rest := rfl
@[simp] theorem drawFree_npad (s : State) : (drawFree s).2.npad = s.npad := rfl
@[simp] theorem drawFree_bitLength (s : State) : (drawFree s).2.bitLength = s.bitLength := rfl
@[simp] theorem drawFree_base (s : State) : (drawFree s).2.base = s.base := rfl
@[simp] theorem drawFree_len (s : State) : (drawFree s).2.len = s.len := rfl
@[simp] theorem drawFree_sub (s : State) : (drawFree s).2.sub = s.sub := rfl
@[simp] theorem drawFree_disturbed (s : State) : (drawFree s).2.disturbed = s.disturbed := rfl
@[simp] theorem drawFree_mem (s : State) : (drawFree s).2.mem = s.mem := rfl
@[simp] theorem drawFree_devices (s : State) : (drawFree s).2.devices = s.devices := rfl
@[simp] theorem drawFree_cfg (s : State) : (drawFree s).2.cfg = s.cfg := rfl
@[simp] theorem drawFree_program (s : State) : (drawFree s).2.program = s.program := rfl
@[simp] theorem drawFree_events (s : State) : (drawFree s).2.events = s.events := rfl
@[simp] theorem drawFree_readLog (s : State) : (drawFree s).2.readLog = s.readLog := rfl
@[simp] theorem drawFree_unitOut (s : State) : (drawFree s).2.unitOut = s.unitOut := rfl
@[simp] theorem drawFree_freeCount (s : State) : (drawFree s).2.freeCount = s.freeCount + 1 := rfl

end Sys2Proof.Machine
end

