-- ==== Sys2Proof/Laws/Ops.lean ====
section
/-! SUPPORT. One spec lemma per shared operation of Machine/Ops.lean and Machine/Operands.lean. -/

namespace Sys2Proof.Machine

/-! ### Sequencing -/

@[simp] theorem andThen_next (s : State) (f : State → Result) : andThen (.next s) f = f s := rfl
@[simp] theorem andThen_fault (x : Fault) (f : State → Result) : andThen (.fault x) f = .fault x := rfl
@[simp] theorem andThen_refused (x : Refusal) (f : State → Result) :
    andThen (.refused x) f = .refused x := rfl

theorem andThen_eq_next {r : Result} {f : State → Result} {t : State} :
    andThen r f = .next t ↔ ∃ u, r = .next u ∧ f u = .next t := by
  cases r <;> simp

theorem andThen_assoc (r : Result) (f g : State → Result) :
    andThen (andThen r f) g = andThen r fun s => andThen (f s) g := by
  cases r <;> rfl

theorem unlessFault_next (s : State) (f : State → Result) :
    unlessFault (.next s) f = if s.seq = .sFault then .next s else f s := rfl

@[simp] theorem unlessFault_raise (x : Err) (s : State) (f : State → Result) :
    unlessFault (.next (raise x s)) f = .next (raise x s) := rfl

theorem unlessFault_eq_next {r : Result} {f : State → Result} {t : State} :
    unlessFault r f = .next t ↔
      ∃ u, r = .next u ∧ ((u.seq = .sFault ∧ u = t) ∨ (u.seq ≠ .sFault ∧ f u = .next t)) := by
  cases r with
  | next u =>
    by_cases h : u.seq = .sFault <;> simp [unlessFault_next, h]
  | fault x => simp [unlessFault]
  | refused x => simp [unlessFault]

@[simp] theorem need_some {α : Type} (v : α) (item : Item) (f : α → Result) :
    need (some v) item f = f v := rfl
@[simp] theorem need_none {α : Type} (item : Item) (f : α → Result) :
    need none item f = .fault (.noValue item) := rfl

/-- Rewrites the read alone, and leaves the item in the rest of the goal. -/
theorem need_of_some {α : Type} {x : Option α} {v : α} (h : x = some v) (item : Item)
    (f : α → Result) : need x item f = f v := by
  rw [h]; rfl

theorem need_eq_next {α : Type} {x : Option α} {item : Item} {f : α → Result} {t : State} :
    need x item f = .next t ↔ ∃ v, x = some v ∧ f v = .next t := by
  cases x <;> simp

/-! ### Fault entry and reset -/

theorem discardInternals_idem (s : State) :
    discardInternals (discardInternals s) = discardInternals s := rfl

/-- After a fault nothing internal holds a value (R117). -/
theorem raise_quiet (x : Err) (s : State) : (raise x s).quiet := rfl

theorem engineReset_quiet (s : State) : (engineReset s).quiet := rfl

@[simp] theorem raise_phase (x : Err) (s : State) : (raise x s).phase = .fault := rfl
@[simp] theorem engineReset_phase (s : State) : (engineReset s).phase = .idle := rfl
@[simp] theorem acceptDigest_phase (s : State) : (acceptDigest s).phase = .busy := rfl

theorem phase_eq_fault {s : State} : s.phase = .fault ↔ s.seq = .sFault := by
  unfold State.phase Seq.phase
  cases s.seq <;> simp

theorem phase_eq_done {s : State} : s.phase = .done ↔ s.seq = .sDone := by
  unfold State.phase Seq.phase
  cases s.seq <;> simp

theorem phase_eq_idle {s : State} : s.phase = .idle ↔ s.seq = .sIdle := by
  unfold State.phase Seq.phase
  cases s.seq <;> simp

/-! ### Message memory -/

namespace MemoryLaws

theorem write_lookup (m : Memory) (a : Nat) (b : Byte) (x : Nat) :
    (m.write a b).lookup x = if x = a then (m.lookup a).map (fun _ => b) else m.lookup x := by
  induction m with
  | nil => simp [Memory.write, Memory.lookup]
  | cons c m ih =>
    obtain ⟨k, v⟩ := c
    simp only [Memory.write, Memory.lookup]
    by_cases hk : k = a
    · subst hk
      by_cases hx : x = k
      · subst hx; simp [Memory.lookup]
      · have hkx : ¬ k = x := fun h => hx h.symm
        simp [Memory.lookup, hx, hkx]
    · by_cases hx : x = a
      · subst hx; simp [Memory.lookup, hk, ih]
      · simp only [hk, if_false, hx, Memory.lookup]
        split <;> simp_all

theorem write_wfFrom {limit : Nat} {m : Memory} {low : Nat} (a : Nat) (b : Byte)
    (h : Memory.wfFrom limit low m = true) : Memory.wfFrom limit low (m.write a b) = true := by
  induction m generalizing low with
  | nil => rfl
  | cons c m ih =>
    obtain ⟨k, v⟩ := c
    simp only [Memory.wfFrom, Bool.and_eq_true] at h
    by_cases hk : k = a
    · simpa [Memory.write, hk, Memory.wfFrom] using h
    · simp only [Memory.write, hk, if_false, Memory.wfFrom, Bool.and_eq_true]
      exact ⟨h.1, ih h.2⟩

/-- A write keeps memory in its canonical form. -/
theorem write_wf {cfg : Config} {m : Memory} (a : Nat) (b : Byte) (h : m.wf cfg = true) :
    (m.write a b).wf cfg = true := write_wfFrom a b h

theorem wfFrom_mono {limit : Nat} {m : Memory} {low low' : Nat} (hl : low' ≤ low)
    (h : Memory.wfFrom limit low m = true) : Memory.wfFrom limit low' m = true := by
  cases m with
  | nil => rfl
  | cons c m =>
    obtain ⟨k, v⟩ := c
    simp only [Memory.wfFrom, Bool.and_eq_true, decide_eq_true_eq] at h ⊢
    exact ⟨⟨by omega, h.1.2⟩, h.2⟩

theorem place_wfFrom {limit : Nat} {m : Memory} {low a : Nat} (b : Byte) (hlow : low ≤ a)
    (ha : a < limit) (h : Memory.wfFrom limit low m = true) :
    Memory.wfFrom limit low (m.place a b) = true := by
  induction m generalizing low with
  | nil => simp [Memory.place, Memory.wfFrom, hlow, ha]
  | cons c m ih =>
    obtain ⟨k, v⟩ := c
    simp only [Memory.wfFrom, Bool.and_eq_true, decide_eq_true_eq] at h
    unfold Memory.place
    split
    · simp only [Memory.wfFrom, Bool.and_eq_true, decide_eq_true_eq]
      exact ⟨⟨hlow, ha⟩, ⟨by omega, h.1.2⟩, h.2⟩
    · split
      · next hak =>
        subst hak
        simp only [Memory.wfFrom, Bool.and_eq_true, decide_eq_true_eq]
        exact h
      · simp only [Memory.wfFrom, Bool.and_eq_true, decide_eq_true_eq]
        exact ⟨h.1, ih (by omega) h.2⟩

/-- Placing launch memory keeps the canonical form. -/
theorem place_wf {cfg : Config} {m : Memory} {a : Nat} (b : Byte) (ha : a < 2 ^ cfg.addrWidth)
    (h : m.wf cfg = true) : (m.place a b).wf cfg = true :=
  place_wfFrom b (Nat.zero_le a) ha h

/-- In canonical form two memories that answer every lookup alike are equal data. -/
theorem lookup_below {limit : Nat} {m : Memory} {low a : Nat}
    (h : Memory.wfFrom limit low m = true) (ha : a < low) : m.lookup a = none := by
  induction m generalizing low with
  | nil => rfl
  | cons c m ih =>
    obtain ⟨k, v⟩ := c
    simp only [Memory.wfFrom, Bool.and_eq_true, decide_eq_true_eq] at h
    have : k ≠ a := by omega
    simp only [Memory.lookup, this, if_false]
    exact ih h.2 (by omega)

/-- In canonical form a byte is listed at an address exactly when the pair is in the list, and no
address lies below the bound. -/
theorem lookup_eq_some {limit low : Nat} {m : Memory} (h : Memory.wfFrom limit low m = true)
    (a : Nat) (b : Byte) :
    (m.lookup a = some b ↔ (a, b) ∈ m) ∧ ((a, b) ∈ m → low ≤ a) := by
  induction m generalizing low with
  | nil => simp [Memory.lookup]
  | cons c m ih =>
    obtain ⟨k, v⟩ := c
    simp only [Memory.wfFrom, Bool.and_eq_true, decide_eq_true_eq] at h
    obtain ⟨i1, i2⟩ := ih h.2
    simp only [Memory.lookup, List.mem_cons, Prod.mk.injEq]
    by_cases hk : k = a
    · subst hk
      simp only [if_true, Option.some.injEq, true_and]
      exact ⟨⟨fun h => .inl h.symm, fun h' => h'.elim Eq.symm fun h' => absurd (i2 h') (by omega)⟩,
        fun _ => h.1.1⟩
    · simp only [if_neg hk, i1, Ne.symm hk, false_and, false_or, true_and]
      exact fun h' => by have := i2 h'; omega

end MemoryLaws

/-- Reset memory is in canonical form. -/
theorem reset_mem_wf : Memory.wf State.reset.cfg State.reset.mem = true := rfl

/-- A byte read depends on the address width, the regions and memory only. -/
theorem readByte_congr {s t : State} (hc : t.cfg.addrWidth = s.cfg.addrWidth)
    (hd : t.devices = s.devices) (hm : t.mem = s.mem) (a : Nat) : readByte t a = readByte s a := by
  simp [readByte, State.inDevice, hc, hd, hm]

theorem readBytes_congr {s t : State} (hc : t.cfg.addrWidth = s.cfg.addrWidth)
    (hd : t.devices = s.devices) (hm : t.mem = s.mem) (a n : Nat) :
    readBytes t a n = readBytes s a n := by
  induction n generalizing a with
  | zero => rfl
  | succ n ih => simp [readBytes, readByte_congr hc hd hm, ih]

/-- A read of `n` bytes that succeeds gives `n` bytes. -/
theorem readBytes_length {s : State} {a n : Nat} {bs : List Byte} (h : readBytes s a n = .bytes bs) :
    bs.length = n := by
  induction n generalizing a bs with
  | zero => simp only [readBytes, MemReads.bytes.injEq] at h; simp [← h]
  | succ n ih =>
    simp only [readBytes] at h
    split at h <;> try simp at h
    split at h <;> try simp at h
    next hb => rw [← h]; simp [ih hb]

/-- It succeeds exactly when each of its single-byte reads gives a byte, and gives those bytes
(R35). -/
theorem readBytes_eq_bytes {s : State} {a n : Nat} {bs : List Byte} :
    readBytes s a n = .bytes bs ↔
      bs.length = n ∧ ∀ k, (h : k < bs.length) → readByte s (a + k) = .byte bs[k] := by
  induction n generalizing a bs with
  | zero =>
    simp only [readBytes, MemReads.bytes.injEq]
    constructor
    · rintro rfl; simp
    · rintro ⟨h, -⟩; exact (List.length_eq_zero_iff.mp h).symm
  | succ n ih =>
    constructor
    · intro h
      refine ⟨readBytes_length h, ?_⟩
      simp only [readBytes] at h
      split at h <;> try simp at h
      split at h <;> try simp at h
      next b hb _ cs hcs =>
        subst h
        intro k hk
        cases k with
        | zero => simpa using hb
        | succ k =>
          have := (ih.mp hcs).2 k (by simpa using hk)
          simpa [Nat.add_assoc, Nat.add_comm 1 k] using this
    · rintro ⟨hlen, hall⟩
      cases bs with
      | nil => simp at hlen
      | cons b cs =>
        have h0 := hall 0 (by simp)
        have hcs : readBytes s (a + 1) n = .bytes cs := by
          refine ih.mpr ⟨by simpa using hlen, fun k hk => ?_⟩
          have := hall (k + 1) (by simpa using hk)
          simpa [Nat.add_assoc, Nat.add_comm 1 k] using this
        simp only [Nat.add_zero, List.getElem_cons_zero] at h0
        simp [readBytes, h0, hcs]

/-- The first single-byte read that gives no byte decides what the whole read answers (log entry 17). -/
theorem readBytes_stops {s : State} {a n k : Nat} (hk : k < n)
    (hb : ∀ k' < k, ∃ b, readByte s (a + k') = .byte b) :
    (readByte s (a + k) = .busError → readBytes s a n = .busError) ∧
    (readByte s (a + k) = .device → readBytes s a n = .device (a + k)) := by
  induction n generalizing a k with
  | zero => omega
  | succ n ih =>
    cases k with
    | zero => constructor <;> intro h <;> simp only [Nat.add_zero] at h <;> simp [readBytes, h]
    | succ k =>
      obtain ⟨b, h0⟩ := hb 0 (by omega)
      have := ih (a := a + 1) (k := k) (by omega) fun k' hk' => by
        have := hb (k' + 1) (by omega)
        rwa [show a + (k' + 1) = a + 1 + k' by omega] at this
      rw [show a + 1 + k = a + (k + 1) by omega] at this
      simp only [Nat.add_zero] at h0
      exact ⟨fun h => by simp [readBytes, h0, this.1 h], fun h => by simp [readBytes, h0, this.2 h]⟩

/-- Two adjacent reads are one longer read. -/
theorem readBytes_append {s : State} {a m n : Nat} {bs cs : List Byte}
    (hb : readBytes s a m = .bytes bs) (hc : readBytes s (a + m) n = .bytes cs) :
    readBytes s a (m + n) = .bytes (bs ++ cs) := by
  rw [readBytes_eq_bytes] at hb hc ⊢
  refine ⟨by simp [hb.1, hc.1], fun k hk => ?_⟩
  by_cases h : k < bs.length
  · rw [List.getElem_append_left h]; exact hb.2 k h
  · rw [List.getElem_append_right (by omega)]
    have := hc.2 (k - bs.length) (by simp at hk; omega)
    rwa [show a + m + (k - bs.length) = a + k by omega] at this

/-- A part of a read that succeeds succeeds. -/
theorem readBytes_part {s : State} {a n : Nat} {bs : List Byte} (h : readBytes s a n = .bytes bs)
    {o k : Nat} (hk : o + k ≤ n) : readBytes s (a + o) k = .bytes ((bs.drop o).take k) := by
  rw [readBytes_eq_bytes] at h ⊢
  refine ⟨by simp; omega, fun j hj => ?_⟩
  have hj' : j < k := by simp at hj; omega
  have := h.2 (o + j) (by omega)
  simp only [List.getElem_take, List.getElem_drop]
  rwa [Nat.add_assoc]

/-- What a read of message bytes leads to: the bytes, `BUS_ERROR`, or a refusal (R36, U9). -/
theorem withMessageBytes_cases (s : State) (a n : Nat) (f : List Byte → Result) :
    (∃ bs, readBytes s a n = .bytes bs ∧ withMessageBytes s a n f = f bs) ∨
    (readBytes s a n = .busError ∧ withMessageBytes s a n f = .next (raise .busError s)) ∨
    (∃ x, readBytes s a n = .device x ∧ withMessageBytes s a n f = .refused (.deviceAccess x)) := by
  unfold withMessageBytes
  cases h : readBytes s a n <;> simp

/-- A memory write from outside: refused in a device region, else memory and `disturbed` change. -/
theorem storeByte_cases (a : Nat) (b : Byte) (s : State) :
    (s.inDevice a = true ∧ storeByte a b s = .refused (.deviceAccess a)) ∨
    (s.inDevice a = false ∧
      storeByte a b s = .next { s with
        mem := s.mem.write a b, disturbed := s.disturbed || s.inRunningMessage a }) := by
  unfold storeByte
  cases h : s.inDevice a <;> simp

/-! ### Host registers -/

/-- A host read changes the log of reads and, for a value that is not defined, the count of free
values; nothing else. -/
theorem readRegister_frame (reg : HostReg) (s : State) :
    ∃ v n, readRegister reg s =
      { s with readLog := s.readLog ++ [{ reg := reg, value := v }], freeCount := n } := by
  unfold readRegister
  cases reg <;> simp only [] <;> first
    | exact ⟨none, s.freeCount, rfl⟩
    | (split
       · next v _ => exact ⟨some v, s.freeCount, rfl⟩
       · exact ⟨_, s.freeCount + 1, rfl⟩)

/-- A host write changes an operand register or nothing. -/
theorem writeRegister_frame (reg : HostReg) (data : Quad) (s : State) :
    ∃ a l, writeRegister reg data s = { s with msgBase := a, msgLen := l } := by
  unfold writeRegister
  cases reg <;> simp only [] <;> first
    | exact ⟨_, _, rfl⟩
    | (split <;> exact ⟨_, _, rfl⟩)

end Sys2Proof.Machine
end

