-- ==== Sys2Proof/Laws/Blocks.lean ====
section
/-! SUPPORT. One spec lemma per operation on a block: the schedule (41_message_schedule.md) and the compression (42_compression.md). -/

namespace Sys2Proof.Machine

/-! ### Reading words that may hold no value -/

theorem mapM_id_eq_some {α : Type} {l : List (Option α)} {ws : List α} :
    l.mapM id = some ws ↔ l = ws.map some := by
  induction l generalizing ws with
  | nil => cases ws <;> simp
  | cons x l ih =>
    cases x with
    | none => cases ws <;> simp
    | some v =>
      cases ws with
      | nil => cases h : l.mapM id <;> simp [List.mapM_cons, h]
      | cons w ws =>
        simp only [List.mapM_cons, id, List.map_cons, List.cons.injEq, Option.some.injEq]
        cases h : l.mapM id with
        | none =>
          have : ¬ l = ws.map some := fun hl => by simp [ih.mpr hl] at h
          simp [this]
        | some us =>
          have hu := ih.mp h
          simp only [Option.bind_eq_bind, Option.bind_some, Option.pure_def, Option.some.injEq,
            List.cons.injEq, hu]
          rw [List.map_inj_right (fun _ _ => Option.some.inj)]

/-- `W[0..15]` hold the 16 words of a list exactly when they are its elements. -/
theorem firstWords_eq_some {w : ScheduleRegs} {ws : List Word} :
    firstWords w = some ws ↔
      ws.length = 16 ∧ ∀ k, (h : k < 64) → (h' : k < ws.length) → w[k] = some ws[k] := by
  have hlen : (w.toList.take 16).length = 16 := by simp
  simp only [firstWords, mapM_id_eq_some]
  constructor
  · intro h
    have hl : ws.length = 16 := by rw [h] at hlen; simpa using hlen
    refine ⟨hl, fun k hk hk' => ?_⟩
    have := congrArg (fun l => l[k]?) h
    simpa [show k < 16 by omega, hk, hk'] using this
  · rintro ⟨hl, h⟩
    apply List.ext_getElem (by simp [hl])
    intro k h1 h2
    simp only [List.getElem_take, Vector.getElem_toList, List.getElem_map]
    exact h k (by simp at h1; omega) (by simpa using h2)

/-- `W` holds a whole schedule exactly when each of its words does. -/
theorem allWords_eq_some {w : ScheduleRegs} {ws : Schedule} :
    allWords w = some ws ↔ ∀ t, (h : t < 64) → w[t] = some ws[t] := by
  unfold allWords
  constructor
  · intro h t ht
    split at h
    · next hall =>
      simp only [Option.some.injEq] at h
      rw [List.all_eq_true] at hall
      have hsome := hall w[t] (by simp)
      rw [← h]
      simp only [Vector.getElem_ofFn]
      obtain ⟨v, hv⟩ := Option.isSome_iff_exists.mp hsome
      simp [hv]
    · simp at h
  · intro h
    have hall : w.toList.all Option.isSome = true := by
      rw [List.all_eq_true]
      intro x hx
      obtain ⟨t, ht, rfl⟩ := List.getElem_of_mem hx
      rw [Vector.getElem_toList, h t (by simpa using ht)]
      rfl
    rw [if_pos hall, Option.some.injEq]
    ext t ht
    simp [h t ht]

/-! ### The schedule -/

@[simp] theorem expandWords_zero (ws : List Word) : expandWords 0 ws = ws := by
  unfold expandWords; rfl

theorem expandWords_succ (n : Nat) (ws : List Word) :
    expandWords (n + 1) ws = expandWords n (ws ++ [nextWord ws ws.length]) := by
  rw [expandWords]

@[simp] theorem expandWords_length (n : Nat) (ws : List Word) :
    (expandWords n ws).length = ws.length + n := by
  induction n generalizing ws with
  | zero => simp
  | succ n ih => rw [expandWords_succ, ih, List.length_append, List.length_singleton]; omega

/-- Words already there stay. -/
theorem expandWords_getD_lt {n k : Nat} {ws : List Word} (h : k < ws.length) :
    (expandWords n ws).getD k 0 = ws.getD k 0 := by
  induction n generalizing ws with
  | zero => simp
  | succ n ih =>
    rw [expandWords_succ, ih (by simp; omega), List.getD_append _ _ _ _ h]

/-- The recurrence of R72 at every new word. -/
theorem expandWords_getD {n t : Nat} {ws : List Word} (hlen : 16 ≤ ws.length) (ht : ws.length ≤ t)
    (hn : t < ws.length + n) :
    (expandWords n ws).getD t 0 =
      add32 (add32 (add32 (ssig1 ((expandWords n ws).getD (t - 2) 0))
        ((expandWords n ws).getD (t - 7) 0)) (ssig0 ((expandWords n ws).getD (t - 15) 0)))
        ((expandWords n ws).getD (t - 16) 0) := by
  induction n generalizing ws with
  | zero => omega
  | succ n ih =>
    by_cases h : t = ws.length
    · subst h
      have hsmall : ∀ k, k < ws.length →
          (expandWords (n + 1) ws).getD k 0 = ws.getD k 0 := fun k hk => expandWords_getD_lt hk
      rw [hsmall (ws.length - 2) (by omega), hsmall (ws.length - 7) (by omega),
        hsmall (ws.length - 15) (by omega), hsmall (ws.length - 16) (by omega)]
      rw [expandWords_succ, expandWords_getD_lt (by simp), List.getD_append_right _ _ _ _ (by omega)]
      simp [nextWord]
    · rw [expandWords_succ]
      exact ih (by simp; omega) (by simp; omega) (by simp; omega)

theorem scheduleOf_getElem (b : Block) (t : Nat) (h : t < 64) :
    (scheduleOf b)[t] = (expandWords 48 ((List.finRange 16).map (blockWord b))).getD t 0 := by
  rw [scheduleOf, Vector.getElem_ofFn]

/-- `SCHED` as a function, first part (R73). -/
theorem scheduleOf_first (b : Block) (k : Fin 16) : (scheduleOf b)[k.val] = blockWord b k := by
  rw [scheduleOf_getElem, expandWords_getD_lt (by simp)]
  simp [List.getD_eq_getElem?_getD]

/-- `SCHED` as a function, second part (R73). -/
theorem scheduleOf_next (b : Block) (t : Nat) (h : t < 64) (h16 : 16 ≤ t) :
    (scheduleOf b)[t] =
      add32 (add32 (add32 (ssig1 (scheduleOf b)[t - 2]) (scheduleOf b)[t - 7])
        (ssig0 (scheduleOf b)[t - 15])) (scheduleOf b)[t - 16] := by
  simp only [scheduleOf_getElem]
  exact expandWords_getD (by simp) (by simpa using h16) (by simp; omega)

/-- The schedule registers that hold a whole schedule. -/
def fullSchedule (ws : Schedule) : ScheduleRegs := Vector.ofFn fun t => some ws[t]

@[simp] theorem allWords_fullSchedule (ws : Schedule) : allWords (fullSchedule ws) = some ws := by
  rw [allWords_eq_some]; intro t ht; simp [fullSchedule]

/-- `LDW` (R71). -/
theorem ldw_of_block {s : State} {b : Block} (h : s.block = some b) :
    ldw s = .next { s with
      sched := Vector.ofFn fun t =>
        if h : t.val < 16 then some (blockWord b ⟨t.val, h⟩) else s.sched[t] } := by
  simp [ldw, h]

theorem firstWords_after_ldw (b : Block) (w : ScheduleRegs) :
    firstWords (Vector.ofFn fun t : Fin 64 =>
      if h : t.val < 16 then some (blockWord b ⟨t.val, h⟩) else w[t]) =
      some ((List.finRange 16).map (blockWord b)) := by
  rw [firstWords_eq_some]
  refine ⟨by simp, fun k hk hk' => ?_⟩
  have : k < 16 := by simpa using hk'
  simp [this]

/-- What `EXPAND` leaves in `W` after `LDW` is the whole schedule. -/
theorem expanded_eq_fullSchedule (b : Block) (w : ScheduleRegs) :
    (Vector.ofFn fun t : Fin 64 =>
      if t.val < 16 then
        (Vector.ofFn fun t : Fin 64 =>
          if h : t.val < 16 then some (blockWord b ⟨t.val, h⟩) else w[t])[t]
      else some ((expandWords 48 ((List.finRange 16).map (blockWord b))).getD t.val 0)) =
      fullSchedule (scheduleOf b) := by
  apply Vector.ext
  intro t ht
  by_cases h16 : t < 16
  · simpa [fullSchedule, h16] using (scheduleOf_first b ⟨t, h16⟩).symm
  · rw [fullSchedule, Vector.getElem_ofFn, Vector.getElem_ofFn, if_neg h16]
    exact congrArg some (scheduleOf_getElem b t ht).symm

/-- `SCHED` gives the whole schedule of the block and changes nothing else (R73). -/
theorem schedule_of_block {s : State} {b : Block} (h : s.block = some b) :
    schedule s = .next { s with sched := fullSchedule (scheduleOf b) } := by
  rw [schedule, ldw_of_block h, andThen_next, expand]
  simp only [firstWords_after_ldw, need_some]
  rw [expanded_eq_fullSchedule]

/-! ### The compression -/

/-- `COMPRESS` (R79): the running state, the block count, and the schedule and working registers
without value. -/
theorem compress_of_schedule {s : State} {h : Hash} {ws : Schedule} {n : Quad}
    (hh : s.hash = some h) (hw : allWords s.sched = some ws) (hn : s.blocks = some n) :
    compress s = .next { s with
      hash := some (compressHash h ws), work := none, sched := noSchedule, blocks := some (n + 1) } := by
  simp [compress, countBlock, hh, hw, hn]

/-- `SCHED ; COMPRESS` of a block (R85, R91). -/
theorem compressBlock_of_hash {s : State} {h : Hash} {n : Quad} (b : Block)
    (hh : s.hash = some h) (hn : s.blocks = some n) :
    compressBlock b s = .next { s with
      block := some b, hash := some (compressHash h (scheduleOf b)), work := none
      sched := noSchedule, blocks := some (n + 1) } := by
  rw [compressBlock, schedule_of_block (s := { s with block := some b }) rfl, andThen_next]
  exact compress_of_schedule
    (s := { s with block := some b, sched := fullSchedule (scheduleOf b) })
    hh (allWords_fullSchedule _) hn

/-- `COMPRESS` without `H`, without a word of `W` or without `BLOCKS` stops, and names such an item
(R27). -/
theorem compress_stops {s : State}
    (h : s.hash = none ∨ s.blocks = none ∨ ∃ t : Fin 64, s.sched[t] = none) :
    ∃ x, s.lacks x ∧ compress s = .fault (.noValue x) := by
  cases hh : s.hash with
  | none => exact ⟨.hash, hh, by simp [compress, hh]⟩
  | some v =>
    by_cases hw : ∃ t : Fin 64, s.sched[t] = none
    · refine ⟨.sched, hw, ?_⟩
      obtain ⟨t, ht⟩ := hw
      have : allWords s.sched = none := by
        cases ha : allWords s.sched with
        | none => rfl
        | some ws => cases ht.symm.trans (allWords_eq_some.mp ha t.val t.isLt)
      simp [compress, hh, this]
    · have hn : s.blocks = none := (h.resolve_left (by simp [hh])).resolve_right hw
      refine ⟨.blocks, hn, ?_⟩
      cases ha : allWords s.sched with
      | some ws => simp [compress, hh, ha, countBlock, hn]
      | none =>
        have : ∀ t : Fin 64, s.sched[t] = some (s.sched[t].getD 0) := fun t => by
          cases hx : s.sched[t] with
          | none => exact absurd ⟨t, hx⟩ hw
          | some w => rfl
        have hs : allWords s.sched = some (Vector.ofFn fun t => s.sched[t].getD 0) :=
          allWords_eq_some.mpr fun t ht => by simpa using this ⟨t, ht⟩
        cases ha.symm.trans hs

/-- A block without `H` or `BLOCKS` to fold it into stops, and the fault names such an item (R27). -/
theorem compressBlock_stops {s : State} (b : Block) (h : s.hash = none ∨ s.blocks = none) :
    ∃ x, s.lacks x ∧ compressBlock b s = .fault (.noValue x) := by
  rw [compressBlock, schedule_of_block (s := { s with block := some b }) rfl, andThen_next]
  cases hh : s.hash with
  | none => exact ⟨.hash, hh, by simp [compress]⟩
  | some v =>
    have hn : s.blocks = none := by simpa [hh] using h
    exact ⟨.blocks, hn, by simp [compress, countBlock, hn]⟩

/-- A round with its word and the working registers (R77). -/
theorem roundOp_of_work {s : State} {v : Working} {w : Word} {t : Fin 64}
    (hv : s.work = some v) (hw : s.sched[t] = some w) :
    roundOp t s = .next { s with work := some (mixRound (roundConstant t) w v) } := by
  simp only [roundOp, hv, need_some, hw]

theorem cinit_of_hash {s : State} {h : Hash} (hh : s.hash = some h) :
    cinit s = .next { s with work := some (loadWorking h) } := by
  simp [cinit, hh]

theorem feedback_of_work {s : State} {h : Hash} {v : Working} (hh : s.hash = some h)
    (hv : s.work = some v) :
    feedback s = .next { s with hash := some (addBack h v), work := none } := by
  simp [feedback, hh, hv]

/-! ### The driver's steps -/

theorem tail_of_bytes {s : State} {base : Quad} {nfull rest : Nat} {bs : List Byte}
    (hb : s.base = some base) (hn : s.nfull = some nfull) (hr : s.rest = some rest)
    (hbs : readBytes s (base.toNat + 64 * nfull) rest = .bytes bs) :
    tail s = .next { s with scratch := some (tailBuffer rest bs) } := by
  simp [tail, hb, hn, hr, withMessageBytes, hbs]

theorem absorbBlock_of_bytes {s : State} {base : Quad} {i : Nat} {bs : List Byte} {h : Hash} {n : Quad}
    (hb : s.base = some base) (hi : s.i = some i) (hh : s.hash = some h) (hn : s.blocks = some n)
    (hbs : readBytes s (base.toNat + 64 * i) 64 = .bytes bs) :
    absorbBlock s = .next { s with
      block := some (toBuffer 64 bs), hash := some (compressHash h (scheduleOf (toBuffer 64 bs)))
      work := none, sched := noSchedule, blocks := some (n + 1) } := by
  have hf : ∀ f, withFullBlock s f = f (toBuffer 64 bs) := fun f => by
    simp [withFullBlock, hb, hi, withMessageBytes, hbs]
  rw [absorbBlock, hf]
  exact compressBlock_of_hash _ hh hn

theorem padlen_of_scratch {s : State} {len : Quad} {rest : Nat} {buf : Vector Byte 128}
    (hl : s.len = some len) (hr : s.rest = some rest) (hs : s.scratch = some buf) :
    padlen s = .next { s with
      bitLength := some (len * 8), npad := some (padBlocks rest)
      scratch := some (putLength (len * 8) (lengthAt (padBlocks rest)) buf) } := by
  simp [padlen, hl, hr, hs]

theorem padcompBlock_of_scratch {s : State} {buf : Vector Byte 128} {j : Fin 2} {h : Hash} {n : Quad}
    (hs : s.scratch = some buf) (hj : s.j = some j.val) (hh : s.hash = some h)
    (hn : s.blocks = some n) :
    padcompBlock s = .next { s with
      block := some (padBlock buf j), hash := some (compressHash h (scheduleOf (padBlock buf j)))
      work := none, sched := noSchedule, blocks := some (n + 1) } := by
  have hf : ∀ f, withPadBlock s f = f (padBlock buf j) := fun f => by
    simp only [withPadBlock, hs, hj, need_some, dif_pos j.isLt]
  rw [padcompBlock, hf]
  exact compressBlock_of_hash _ hh hn

theorem serialize_of_hash {s : State} {h : Hash} (hh : s.hash = some h) (hd : s.disturbed = false) :
    serialize s = .next { discardInternals s with digest := some (digestBytes h), seq := .sDone } := by
  simp [serialize, hh, hd, finalDigest, discardInternals]

theorem padBlocks_eq (rest : Nat) : padBlocks rest = if 56 ≤ rest then 2 else 1 := by
  unfold padBlocks
  split <;> split <;> omega

/-- The block count in closed form (R93). -/
theorem blockCount_eq (n : Nat) : blockCount n = (n + 8) / 64 + 1 := by
  rw [blockCount, padBlocks_eq]
  split <;> omega

end Sys2Proof.Machine
end

