-- ==== Sys2Proof/Laws/Digest.lean ====
section
/-! SUPPORT. The loops of DIGEST against the digest as a function: message pieces, full blocks, pad blocks (R85 to R93). -/

namespace Sys2Proof.Machine


/-- A block is a function of its first 64 bytes. -/
theorem toBuffer_append {bs cs : List Byte} (h : 64 ≤ bs.length) :
    toBuffer 64 (bs ++ cs) = toBuffer 64 bs := by
  apply Vector.ext; intro k hk
  simp [toBuffer, List.getElem?_append_left (show k < bs.length by omega)]

/-- Bytes after the first `n` pieces do not matter. -/
theorem hashPieces_append (n : Nat) (bs cs : List Byte) (h : Hash) (hl : 64 * n ≤ bs.length) :
    hashPieces n (bs ++ cs) h = hashPieces n bs h := by
  induction n generalizing bs h with
  | zero => rfl
  | succ n ih =>
    simp only [hashPieces]
    rw [toBuffer_append (by omega), List.drop_append_of_le_length (by omega), ih]
    simp; omega

/-- Pieces in two parts. -/
theorem hashPieces_add (a b : Nat) (bs : List Byte) (h : Hash) :
    hashPieces (a + b) bs h = hashPieces b (bs.drop (64 * a)) (hashPieces a bs h) := by
  induction a generalizing bs h with
  | zero => simp [hashPieces]
  | succ a ih =>
    rw [show a + 1 + b = (a + b) + 1 by omega]
    simp only [hashPieces]
    rw [ih, List.drop_drop]
    congr 2
    omega

/-- `n` full blocks from block `i` on, all readable (R85): the running state after those pieces, `n`
more in `BLOCKS`, `i` counted on; only the items of a block besides. -/
theorem absorbLoop_bytes (n : Nat) : ∀ (s : State) (base : Quad) (i : Nat) (bs : List Byte)
    (h : Hash) (c : Quad),
    s.seq ≠ .sFault → s.base = some base → s.i = some i → s.hash = some h → s.blocks = some c →
    readBytes s (base.toNat + 64 * i) (64 * n) = .bytes bs →
    ∃ bl wk sc, absorbLoop n s = .next
        { s with hash := some (hashPieces n bs h), blocks := some (c + BitVec.ofNat 64 n), i := some (i + n), block := bl, work := wk, sched := sc }
        := by
  induction n with
  | zero =>
    intro s base i bs h c hs hb hi hh hc hr
    refine ⟨s.block, s.work, s.sched, ?_⟩
    cases s; simp_all [hashPieces, absorbLoop]
  | succ n ih =>
    intro s base i bs h c hs hb hi hh hc hr
    have h1 := readBytes_part hr (o := 0) (k := 64) (by omega)
    have h2 := readBytes_part hr (o := 64) (k := 64 * n) (by omega)
    have hl := readBytes_length hr
    simp only [Nat.add_zero, List.drop_zero] at h1
    have h3 : (bs.drop 64).take (64 * n) = bs.drop 64 := List.take_of_length_le (by simp; omega)
    rw [h3] at h2
    have ha := absorbBlock_of_bytes hb hi hh hc h1
    have ht : toBuffer 64 (bs.take 64) = toBuffer 64 bs := by
      conv_rhs => rw [← List.take_append_drop 64 bs]
      rw [toBuffer_append]; simp; omega
    rw [ht] at ha
    obtain ⟨bl, wk, sc, hu⟩ := ih { s with
      block := some (toBuffer 64 bs), hash := some (compressHash h (scheduleOf (toBuffer 64 bs)))
      work := none, sched := noSchedule, blocks := some (c + 1), i := some (i + 1) } base (i +
          1) (bs.drop 64) _ (c + 1) hs hb rfl rfl rfl (by
        have := readBytes_congr (s := s) (t := { s with
      block := some (toBuffer 64 bs), hash := some (compressHash h (scheduleOf (toBuffer 64 bs)))
      work := none, sched := noSchedule, blocks := some (c + 1), i := some (i + 1)
          }) rfl rfl rfl (base.toNat + 64 * (i+1)) (64*n)
        rw [this, ← h2]; congr 1)
    refine ⟨bl, wk, sc, ?_⟩
    rw [absorbLoop, ha, unlessFault_next, if_neg (by exact hs)]
    simp only [hi, need_some]
    rw [hu]
    congr 2
    · rw [BitVec.add_assoc]; congr 2
      apply BitVec.eq_of_toNat_eq; simp; omega
    · congr 1; omega

/-- The pad blocks (R91): the running state after the pieces of `P`, where `S` holds `P`. -/
theorem padLoop_blocks (s : State) (buf : Vector Byte 128) (npad : Nat) (h : Hash) (c : Quad)
    (P : List Byte)
    (hn : npad = 1 ∨ npad = 2) (hs : s.scratch = some buf) (hj : s.j = some 0)
        (hh : s.hash = some h) (hc : s.blocks = some c)
    (hP : ∀ k (hk : k < 128), k < 64 * npad → buf[k] = P.getD k 0) :
    ∃ bl wk sc j, padLoop npad s = .next
        { s with hash := some (hashPieces npad P h), blocks := some (c + BitVec.ofNat 64 npad), j := j, block := bl, work := wk, sched := sc }
        := by
  have hb : ∀ j : Fin 2, j.val < npad → padBlock buf j = toBuffer 64 (P.drop (64 * j.val)) := by
    intro j hj
    apply Vector.ext; intro k hk
    simp [padBlock, toBuffer]
    rw [hP _ (by omega) (by omega)]
    simp
  have h0 := padcompBlock_of_scratch (j := 0) hs hj hh hc
  rw [hb 0 (by rcases hn with h | h <;> subst h <;> decide)] at h0
  rcases hn with rfl | rfl
  · refine ⟨some (toBuffer 64 (P.drop 0)), none, noSchedule, some 1, ?_⟩
    rw [padLoop, h0, andThen_next]; simp only [hj, need_some, padLoop]
    rfl
  · have h1 := padcompBlock_of_scratch (s := { s with
      block := some (toBuffer 64 (P.drop 0)), hash := some
          (compressHash h (scheduleOf (toBuffer 64 (P.drop 0))))
      work := none, sched := noSchedule, blocks := some (c + 1), j := some 1
          }) (j := 1) hs rfl rfl rfl
    rw [hb 1 (by decide)] at h1
    refine ⟨some (toBuffer 64 (P.drop 64)), none, noSchedule, some 2, ?_⟩
    rw [padLoop, h0, andThen_next]; simp only [hj, need_some]
    rw [padLoop]
    erw [h1]
    rw [andThen_next]; simp only [need_some, padLoop]
    simp [hashPieces, BitVec.add_assoc]

/-- `S` after `PADLEN` holds the padded message from its last full block on (R86 to R90, R93). -/
theorem padded_getD (m : List Byte) (len : Quad)
    (hlen : len.toNat = m.length) (k : Nat) (hk : k < 128)
    (hk' : k < 64 * padBlocks (m.length % 64)) :
    (putLength (len * 8) (lengthAt (padBlocks (m.length % 64))) (tailBuffer (m.length % 64) (m.drop (64 * (m.length / 64)))))[k]
      = ((paddedMessage m).drop (64 * (m.length / 64))).getD k 0 := by
  have hlen8 : (len * 8#64) = BitVec.ofNat 64 (8 * m.length) := by
    apply BitVec.eq_of_toNat_eq; simp [hlen]; omega
  have hz : zeroCount m.length = if 56 ≤ m.length % 64 then 119 - m.length % 64 else 55 - m.length % 64 := by
    unfold zeroCount; split <;> omega
  have hmd : m.length = 64 * (m.length / 64) + m.length % 64 := by omega
  have hr : m.length % 64 < 64 := Nat.mod_lt _ (by decide)
  have hdrop : (paddedMessage m).drop (64 * (m.length / 64)) = m.drop (64 * (m.length / 64)) ++ ([0x80] ++ (List.replicate (zeroCount m.length) 0x00 ++ lengthField m.length)) := by
    simp only [paddedMessage, List.append_assoc]
    rw [List.drop_append_of_le_length (by omega)]
  rw [hdrop, hz, padBlocks_eq] at *
  have hl : (m.drop (64 * (m.length / 64))).length = m.length % 64 := by simp; omega
  generalize m.drop (64 * (m.length / 64)) = tl at *
  generalize m.length % 64 = r at *
  have hlf : ∀ q, q < 8 → (lengthField m.length)[q]? = some (be64Byte (len * 8) q) := by
    intro q hq
    simp [lengthField, hlen8, hq]
  simp only [putLength, Vector.getElem_ofFn, lengthAt]
  by_cases h56 : 56 ≤ r
  · simp only [h56, if_true] at *
    by_cases hA : 120 ≤ k
    · rw [if_pos (by omega)]
      rw
          [List.getD_eq_getElem?_getD, List.getElem?_append_right (by omega), List.getElem?_append_right (by simp; omega), List.getElem?_append_right (by simp; omega)]
      simp only [hl, List.length_singleton, List.length_replicate]
      rw [hlf _ (by omega)]; simp; congr 1; omega
    · rw [if_neg (by omega)]
      simp only [tailBuffer, Fin.getElem_fin, Vector.getElem_ofFn]
      split
      · rw
          [List.getD_eq_getElem?_getD, List.getD_eq_getElem?_getD, List.getElem?_append_left (by omega)]
      · rw [List.getD_eq_getElem?_getD, List.getElem?_append_right (by omega)]
        split
        · have : k - tl.length = 0 := by omega
          simp [this]
        · rw
            [List.getElem?_append_right (by simp; omega), List.getElem?_append_left (by simp; omega)]
          simp [List.getElem?_replicate]
          rw [if_pos (by omega)]
          rfl
  · have h55 : r ≤ 55 := by omega
    simp only [h56, if_false] at *
    simp only [show ¬ (1 = 2) by decide, if_false]
    by_cases hA : 56 ≤ k
    · rw [if_pos (by omega)]
      rw
          [List.getD_eq_getElem?_getD, List.getElem?_append_right (by omega), List.getElem?_append_right (by simp; omega), List.getElem?_append_right (by simp; omega)]
      simp only [hl, List.length_singleton, List.length_replicate]
      rw [hlf _ (by omega)]; simp; congr 1; omega
    · rw [if_neg (by omega)]
      simp only [tailBuffer, Fin.getElem_fin, Vector.getElem_ofFn]
      split
      · rw
          [List.getD_eq_getElem?_getD, List.getD_eq_getElem?_getD, List.getElem?_append_left (by omega)]
      · rw [List.getD_eq_getElem?_getD, List.getElem?_append_right (by omega)]
        split
        · have : k - tl.length = 0 := by omega
          simp [this]
        · rw
            [List.getElem?_append_right (by simp; omega), List.getElem?_append_left (by simp; omega)]
          simp [List.getElem?_replicate]
          rw [if_pos (by omega)]
          rfl
end Sys2Proof.Machine
end

