-- ==== Sys2Proof/Laws/Events.lean ====
section
/-! SUPPORT. What another agent does later plays no part in a step of the engine or of its host: one closure lemma per shared operation, and the operations by them (log entry 11). -/

namespace Sys2Proof.Machine

/-- The same state with these actions of other agents to come. -/
def State.expecting (e : List (Option HostAction)) (s : State) : State := { s with events := e }

/-- The operation neither looks at the actions to come nor changes them. -/
def Oblivious (f : State → Result) : Prop :=
  ∀ (s : State) (e : List (Option HostAction)),
    f (s.expecting e) = mapNext (State.expecting e) (f s)

namespace Oblivious

theorem next {u : State → State} (h : ∀ s e, u (s.expecting e) = (u s).expecting e) :
    Oblivious fun s => .next (u s) := fun s e => by simp [mapNext, h]

theorem stop {x : Fault} : Oblivious fun _ => .fault x := fun _ _ => rfl
theorem refuse {x : Refusal} : Oblivious fun _ => .refused x := fun _ _ => rfl

theorem andThen {f g : State → Result} (hf : Oblivious f) (hg : Oblivious g) :
    Oblivious fun s => andThen (f s) g := fun s e => by
  simp only [hf s e]
  cases f s <;> simp [mapNext, hg _ e]

theorem unlessFault {f g : State → Result} (hf : Oblivious f) (hg : Oblivious g) :
    Oblivious fun s => unlessFault (f s) g := fun s e => by
  simp only [hf s e]
  cases f s with
  | fault x => rfl
  | refused x => rfl
  | next t =>
    simp only [mapNext, andThen_next, unlessFault_next, show (t.expecting e).seq = t.seq from rfl,
      hg t e]
    split <;> rfl

theorem need {α : Type} {x : State → Option α} {item : Item} {f : α → State → Result}
    (hx : ∀ s e, x (s.expecting e) = x s) (hf : ∀ v, Oblivious (f v)) :
    Oblivious fun s => need (x s) item fun v => f v s := fun s e => by
  simp only [hx]
  cases x s with
  | none => rfl
  | some v => exact hf v s e

theorem ite {c : State → Prop} [∀ s, Decidable (c s)] {f g : State → Result}
    (hc : ∀ s e, c (s.expecting e) ↔ c s) (hf : Oblivious f) (hg : Oblivious g) :
    Oblivious fun s => if c s then f s else g s := fun s e => by
  by_cases h : c s
  · simp only [if_pos h, if_pos ((hc s e).mpr h), hf s e]
  · simp only [if_neg h, if_neg (fun h' => h ((hc s e).mp h')), hg s e]

theorem withMessageBytes {a : Nat} {n : Nat} {f : List Byte → State → Result}
    (hf : ∀ bs, Oblivious (f bs)) :
    Oblivious fun s => withMessageBytes s a n fun bs => f bs s := fun s e => by
  have h : readBytes (s.expecting e) a n = readBytes s a n :=
    readBytes_congr (s := s) (t := s.expecting e) rfl rfl rfl a n
  simp only [Machine.withMessageBytes, h]
  cases readBytes s a n with
  | bytes bs => exact hf bs s e
  | busError => rfl
  | device x => rfl

/-- The cases of the phase. -/
theorem phase {f : Phase → State → Result} (hf : ∀ q, Oblivious (f q)) :
    Oblivious fun s => f s.phase s := fun s e => hf s.phase s e

end Oblivious

/-! ### The operations on a block -/

theorem ldw_oblivious : Oblivious ldw :=
  .need (fun _ _ => rfl) fun _ => .next fun _ _ => rfl

theorem expand_oblivious : Oblivious expand :=
  .need (x := fun s => firstWords s.sched) (fun _ _ => rfl) fun _ => .next fun _ _ => rfl

theorem schedule_oblivious : Oblivious schedule := ldw_oblivious.andThen expand_oblivious

theorem cinit_oblivious : Oblivious cinit :=
  .need (fun _ _ => rfl) fun _ => .next fun _ _ => rfl

theorem roundOp_oblivious (t : Fin 64) : Oblivious (roundOp t) :=
  .need (fun _ _ => rfl) fun v =>
    .need (x := fun s => s.sched[t]) (fun _ _ => rfl)
      (f := fun w s => .next { s with work := some (mixRound (roundConstant t) w v) })
      fun _ => .next fun _ _ => rfl

theorem feedback_oblivious : Oblivious feedback :=
  .need (fun _ _ => rfl) fun h =>
    .need (x := State.work) (fun _ _ => rfl)
      (f := fun v s => .next { s with hash := some (addBack h v), work := none })
      fun _ => .next fun _ _ => rfl

theorem countBlock_oblivious : Oblivious countBlock :=
  .need (fun _ _ => rfl) fun _ => .next fun _ _ => rfl

theorem compress_oblivious : Oblivious compress :=
  .need (fun _ _ => rfl) fun h =>
    .need (x := fun s => allWords s.sched) (fun _ _ => rfl)
      (f := fun ws s => countBlock { s with hash := some (compressHash h ws), work := none })
      fun _ s e => countBlock_oblivious { s with hash := _, work := none } e

theorem compressBlock_oblivious (b : Block) : Oblivious (compressBlock b) := fun s e =>
  schedule_oblivious.andThen compress_oblivious { s with block := some b } e

/-! ### The driver's steps -/

theorem check_oblivious : Oblivious check :=
  .need (fun _ _ => rfl) fun base =>
    .need (x := State.len) (fun _ _ => rfl)
      (f := fun len s => match argumentError s.cfg base len with
        | some x => .next (raise x s)
        | none => .next { s with
            digest := none, blocks := none
            nfull := some (len.toNat / 64), rest := some (len.toNat % 64) })
      fun len s e => by
        simp only [show (s.expecting e).cfg = s.cfg from rfl]
        cases argumentError s.cfg base len <;> rfl

theorem withFullBlock_oblivious {f : Block → State → Result} (hf : ∀ b, Oblivious (f b)) :
    Oblivious fun s => withFullBlock s fun b => f b s :=
  .need (fun _ _ => rfl) fun base =>
    .need (x := State.i) (fun _ _ => rfl)
      (f := fun i s => withMessageBytes s (base.toNat + 64 * i) 64 fun bs => f (toBuffer 64 bs) s)
      fun _ => .withMessageBytes fun _ => hf _

theorem absorbBlock_oblivious : Oblivious absorbBlock :=
  withFullBlock_oblivious compressBlock_oblivious

theorem tail_oblivious : Oblivious tail :=
  .need (fun _ _ => rfl) fun base =>
    .need (x := State.nfull) (fun _ _ => rfl)
      (f := fun nfull s => need s.rest .rest fun rest =>
        withMessageBytes s (base.toNat + 64 * nfull) rest fun bs =>
          .next { s with scratch := some (tailBuffer rest bs) })
      fun nfull => .need (x := State.rest) (fun _ _ => rfl)
        (f := fun rest s => withMessageBytes s (base.toNat + 64 * nfull) rest fun bs =>
          .next { s with scratch := some (tailBuffer rest bs) })
        fun _ => .withMessageBytes fun _ => .next fun _ _ => rfl

theorem padlen_oblivious : Oblivious padlen := fun s e => by
  simp only [padlen, State.expecting]
  cases s.len <;> cases s.rest <;> cases s.scratch <;> rfl

theorem withPadBlock_oblivious {f : Block → State → Result} (hf : ∀ b, Oblivious (f b)) :
    Oblivious fun s => withPadBlock s fun b => f b s :=
  .need (fun _ _ => rfl) fun buf =>
    .need (x := State.j) (fun _ _ => rfl)
      (f := fun j s => if h : j < 2 then f (padBlock buf ⟨j, h⟩) s else .fault .noSuchPadBlock)
      fun j s e => by
        by_cases h : j < 2
        · simp only [dif_pos h]; exact hf _ s e
        · simp only [dif_neg h]; rfl

theorem padcompBlock_oblivious : Oblivious padcompBlock :=
  withPadBlock_oblivious compressBlock_oblivious

theorem serialize_oblivious : Oblivious serialize :=
  .need (fun _ _ => rfl) fun _ => .next fun _ _ => rfl

theorem afterAbsorb_oblivious : Oblivious afterAbsorb := fun s e => by
  simp only [afterAbsorb, State.expecting]
  cases s.i <;> cases s.nfull <;> rfl

theorem afterPadcomp_oblivious : Oblivious afterPadcomp := fun s e => by
  simp only [afterPadcomp, State.expecting]
  cases s.j with
  | none => rfl
  | some j =>
    cases s.npad with
    | none => rfl
    | some n => simp only [need_some]; split <;> rfl

theorem goTo_oblivious (q : Seq) : Oblivious (goTo q) := .next fun _ _ => rfl

theorem ifBlocksLeft_oblivious {f g : State → Result} (hf : Oblivious f) (hg : Oblivious g) :
    Oblivious fun s => ifBlocksLeft s (f s) (g s) := fun s e => by
  simp only [ifBlocksLeft, hf s e, hg s e, show (s.expecting e).i = s.i from rfl,
    show (s.expecting e).nfull = s.nfull from rfl]
  cases s.i with
  | none => rfl
  | some i =>
    cases s.nfull with
    | none => rfl
    | some n => simp only [need_some]; split <;> rfl

/-! ### The command as one function -/

theorem absorbLoop_oblivious : ∀ n, Oblivious (absorbLoop n)
  | 0 => .next fun _ _ => rfl
  | n + 1 => absorbBlock_oblivious.unlessFault <|
      .need (x := State.i) (fun _ _ => rfl)
        (f := fun i s => absorbLoop n { s with i := some (i + 1) })
        fun i s e => absorbLoop_oblivious n { s with i := some (i + 1) } e

theorem padLoop_oblivious : ∀ n, Oblivious (padLoop n)
  | 0 => .next fun _ _ => rfl
  | n + 1 => padcompBlock_oblivious.andThen <|
      .need (x := State.j) (fun _ _ => rfl)
        (f := fun j s => padLoop n { s with j := some (j + 1) })
        fun j s e => padLoop_oblivious n { s with j := some (j + 1) } e

theorem digestBody_oblivious : Oblivious digestBody := by
  refine check_oblivious.unlessFault (.unlessFault ?_ (tail_oblivious.unlessFault
    (padlen_oblivious.andThen (.andThen ?_ serialize_oblivious))))
  · exact .need (x := State.nfull) (fun _ _ => rfl) (f := fun n s => absorbLoop n (init s))
      fun n s e => absorbLoop_oblivious n (init s) e
  · exact .need (x := State.npad) (fun _ _ => rfl) (f := fun n s => padLoop n { s with j := some 0 })
      fun n s e => padLoop_oblivious n { s with j := some 0 } e

theorem runDigest_oblivious : Oblivious runDigest := fun s e => by
  simp only [runDigest, show (s.expecting e).cfg = s.cfg from rfl]
  cases s.cfg.granularity
  · exact digestBody_oblivious (acceptDigest s) e
  · rfl
  · rfl

/-! ### Instructions and steps -/

theorem issue_oblivious {f : State → Result} (hf : Oblivious f) : Oblivious (issue f) :=
  .phase (f := fun q s => match q with
    | .idle | .done => f s
    | .fault => .next s
    | .busy => .refused .accessWhileBusy) fun q => by
    cases q
    · exact hf
    · exact .refuse
    · exact hf
    · exact .next fun _ _ => rfl

theorem readRegister_expecting (reg : HostReg) (s : State) (e : List (Option HostAction)) :
    readRegister reg (s.expecting e) = (readRegister reg s).expecting e := by
  have h : definedRead reg (s.expecting e) = definedRead reg s := rfl
  unfold readRegister
  cases reg <;> simp only [h] <;> first | rfl | (split <;> rfl)

theorem writeRegister_expecting (reg : HostReg) (v : Quad) (s : State)
    (e : List (Option HostAction)) :
    writeRegister reg v (s.expecting e) = (writeRegister reg v s).expecting e := by
  unfold writeRegister
  cases reg <;> first
    | rfl
    | (simp only [show (s.expecting e).cfg = s.cfg from rfl]; split <;> rfl)

theorem writeCommand_oblivious (v : Quad) : Oblivious (writeCommand v) :=
  .ite (fun _ _ => Iff.rfl) (issue_oblivious runDigest_oblivious)
    (issue_oblivious (.next fun _ _ => rfl))

theorem execWr_oblivious (reg : HostReg) (v : Quad) : Oblivious (execWr reg v) := by
  refine .phase (f := fun q s => match q with
    | .busy => .refused .accessWhileBusy
    | .idle | .done | .fault => match reg with
      | .cmd => writeCommand v s
      | .status | .msgBase | .msgLen | .blocks | .digest _ | .unlisted _ =>
        .next (writeRegister reg v s)) fun q => ?_
  cases q <;> first
    | exact .refuse
    | (cases reg <;> first
        | exact writeCommand_oblivious v
        | exact .next (writeRegister_expecting _ v))

theorem execRd_oblivious (reg : HostReg) : Oblivious (execRd reg) := by
  refine .phase (f := fun q s => match q with
    | .busy => if reg = .status then .next (readRegister .status s) else .refused .accessWhileBusy
    | .idle | .done | .fault => .next (readRegister reg s)) fun q => ?_
  cases q <;> first
    | exact .next (readRegister_expecting reg)
    | exact .ite (fun _ _ => Iff.rfl) (.next (readRegister_expecting .status)) .refuse

theorem readWithData_oblivious (reg : HostReg) : Oblivious (readWithData reg) := by
  refine .phase (f := fun q s => match q with
    | .busy => .refused .accessWhileBusy
    | .idle | .done | .fault => .next (logRead reg none s)) fun q => ?_
  cases q <;> first
    | exact .refuse
    | exact .next fun _ _ => rfl

/-- An instruction does the same whatever other agents will do later. -/
theorem exec_oblivious (i : Instr) : Oblivious (exec i) := by
  cases i with
  | digest => exact issue_oblivious runDigest_oblivious
  | reserved op => exact issue_oblivious (.next fun _ _ => rfl)
  | wr reg v => exact execWr_oblivious reg v
  | rd reg => exact execRd_oblivious reg
  | check => exact check_oblivious.unlessFault (goTo_oblivious .sInit)
  | init => exact .next fun _ _ => rfl
  | absorb =>
    exact ifBlocksLeft_oblivious (absorbBlock_oblivious.unlessFault afterAbsorb_oblivious)
      (goTo_oblivious .sTail)
  | tail => exact tail_oblivious.unlessFault (goTo_oblivious .sPadlen)
  | padlen => exact padlen_oblivious.andThen (.next fun _ _ => rfl)
  | padcomp => exact padcompBlock_oblivious.andThen afterPadcomp_oblivious
  | serialize => exact serialize_oblivious
  | sched => exact schedule_oblivious
  | ldw => exact ldw_oblivious
  | expand => exact expand_oblivious
  | compress => exact compress_oblivious
  | cinit => exact cinit_oblivious
  | round t => exact roundOp_oblivious t
  | feedback => exact feedback_oblivious
  | add32 x y => exact .next fun _ _ => rfl
  | rotr x n => exact .next fun _ _ => rfl
  | shr x n => exact .next fun _ _ => rfl
  | ch x y z => exact .next fun _ _ => rfl
  | maj x y z => exact .next fun _ _ => rfl
  | bsig0 x => exact .next fun _ _ => rfl
  | bsig1 x => exact .next fun _ _ => rfl
  | ssig0 x => exact .next fun _ _ => rfl
  | ssig1 x => exact .next fun _ _ => rfl

theorem runWord_oblivious (w : HostWord) : Oblivious (runWord w) := by
  unfold runWord
  cases decode w with
  | ok i => exact exec_oblivious i
  | error x =>
    cases x with
    | notATransaction k => exact .refuse
    | readDataNotZero reg v => exact readWithData_oblivious reg

theorem runAction_oblivious (a : HostAction) : Oblivious (runAction a) := by
  cases a with
  | transaction w => exact runWord_oblivious (.transaction w)
  | command v => exact runWord_oblivious (.command v)
  | store addr b =>
    exact .ite (c := fun s => s.inDevice addr = true) (fun _ _ => Iff.rfl) .refuse
      (.next fun _ _ => rfl)
  | reset => exact .next fun _ _ => rfl

theorem tableStep_oblivious : Oblivious tableStep := fun s e => by
  simp only [tableStep, show (s.expecting e).seq = s.seq from rfl]
  cases stepAt s.seq with
  | none => rfl
  | some i => exact exec_oblivious i s e

theorem blockStep_oblivious {fetch : State → (Block → Result) → Result} {after : State → Result}
    (hf : ∀ {f : Block → State → Result}, (∀ b, Oblivious (f b)) →
      Oblivious fun s => fetch s fun b => f b s)
    (ha : Oblivious after) : Oblivious fun s => blockStep (fetch s) after s := fun s e => by
  simp only [blockStep, show (s.expecting e).sub = s.sub from rfl]
  cases s.sub with
  | start => exact hf (f := beginBlock) (fun b => .next fun _ _ => rfl) s e
  | ldw => exact (exec_oblivious .ldw).andThen (.next fun _ _ => rfl) s e
  | expand => exact (exec_oblivious .expand).andThen (.next fun _ _ => rfl) s e
  | cinit => exact (exec_oblivious .cinit).andThen (.next fun _ _ => rfl) s e
  | round =>
    refine Oblivious.need (x := State.t) (fun _ _ => rfl)
      (f := fun t s => andThen (exec (.round t) s) (afterRound t))
      (fun t => (exec_oblivious (.round t)).andThen fun s e => ?_) s e
    unfold afterRound
    split <;> rfl
  | feedback =>
    refine (exec_oblivious .feedback).andThen (g := endBlock after) (fun s e => ?_) s e
    exact countBlock_oblivious.andThen ha { s with sub := .start } e

theorem busyStep_oblivious : Oblivious busyStep := fun s e => by
  simp only [busyStep, show (s.expecting e).cfg = s.cfg from rfl]
  cases s.cfg.granularity with
  | command => exact tableStep_oblivious s e
  | sequencer => exact tableStep_oblivious s e
  | round =>
    simp only [roundStep, show (s.expecting e).seq = s.seq from rfl]
    cases s.seq with
    | sAbsorb =>
      exact ifBlocksLeft_oblivious
        (blockStep_oblivious (fetch := withFullBlock) withFullBlock_oblivious afterAbsorb_oblivious)
        (exec_oblivious .absorb) s e
    | sPadcomp =>
      exact blockStep_oblivious (fetch := withPadBlock) withPadBlock_oblivious
        afterPadcomp_oblivious s e
    | sIdle => exact tableStep_oblivious s e
    | sCheck => exact tableStep_oblivious s e
    | sInit => exact tableStep_oblivious s e
    | sTail => exact tableStep_oblivious s e
    | sPadlen => exact tableStep_oblivious s e
    | sSerialize => exact tableStep_oblivious s e
    | sDone => exact tableStep_oblivious s e
    | sFault => exact tableStep_oblivious s e

/-- What the engine and its host do is the same whatever other agents will do later. -/
theorem ownStep_oblivious : Oblivious ownStep := by
  have hrun : Oblivious fun s => match s.program with
      | [] => .next s
      | a :: rest => runAction a { s with program := rest } := fun s e => by
    simp only [show (s.expecting e).program = s.program from rfl]
    cases s.program with
    | nil => rfl
    | cons a rest => exact runAction_oblivious a { s with program := rest } e
  refine .phase (f := fun q s => match q with
    | .busy => busyStep s
    | .idle | .done | .fault => match s.program with
      | [] => .next s
      | a :: rest => runAction a { s with program := rest }) fun q => ?_
  cases q <;> first | exact busyStep_oblivious | exact hrun

end Sys2Proof.Machine
end

