-- ==== Sys2Proof/Laws/Invariant.lean ====
section
/-! SUPPORT. What each step and each action can do from a state that meets the invariant: one lemma per operation. -/

namespace Sys2Proof.Machine


/-- The outcome is no fault: a next state with `P`, or a device refusal, and none of these when `nd`. -/
def EndsIn (nd : Prop) (P : State → Prop) : Result → Prop
  | .next t => P t
  | .fault _ => False
  | .refused x => (∃ a, x = .deviceAccess a) ∧ ¬ nd

theorem EndsIn.andThen {nd} {P Q : State → Prop} {r : Result} {f} (h : EndsIn nd P r)
    (hf : ∀ t, P t → EndsIn nd Q (f t)) : EndsIn nd Q (andThen r f) := by
  cases r with
  | next t => exact hf t h
  | fault => exact h.elim
  | refused x => exact h

theorem EndsIn.unlessFault {nd} {P Q : State → Prop} {r : Result} {f} (h : EndsIn nd P r)
   (hs : ∀ t, P t → t.seq = .sFault → Q t)
   (hf : ∀ t, P t → t.seq ≠ .sFault → EndsIn nd Q (f t)) : EndsIn nd Q (unlessFault r f) := by
  cases r with
  | next t =>
    rw [unlessFault_next]; split
    · next hh => exact hs t h hh
    · next hh => exact hf t h hh
  | fault => exact h.elim
  | refused x => exact h

theorem EndsIn.mono {nd} {P Q : State → Prop} {r : Result} (h : EndsIn nd P r) (hf : ∀ t, P t → Q t)
    : EndsIn nd Q r := by
  cases r with
  | next t => exact hf t h
  | fault => exact h.elim
  | refused x => exact h

/-- What the engine's own steps never change. -/
def SameOutside (s t : State) : Prop :=
  t.msgBase = s.msgBase ∧ t.msgLen = s.msgLen ∧ t.mem = s.mem ∧ t.devices = s.devices ∧ t.cfg =
      s.cfg ∧ t.program = s.program ∧ t.events = s.events

/-- The state is one that fault entry leaves (R117). -/
def FaultEntered (t : State) : Prop := t.seq = .sFault ∧ t.err ≠ .none ∧ t.seqInv

theorem raise_faultEntered (x : Err) (hx : x ≠ .none) (s : State) : FaultEntered (raise x s) :=
    ⟨rfl, hx, rfl, rfl, rfl⟩

theorem readBytes_device {s : State} {a n x : Nat} (h : readBytes s a n = .device x) : s.devices ≠
    [] := by
  induction n generalizing a with
  | zero => simp [readBytes] at h
  | succ n ih =>
    simp only [readBytes] at h
    split at h <;> try simp at h
    next hb =>
      intro hd
      simp only [readByte, State.inDevice, hd, List.any_nil] at hb
      repeat' split at hb
      all_goals simp_all
    next hb =>
      split at h <;> try simp at h
      next hx => subst h; exact ih hx

theorem endsIn_withMessageBytes {P : State → Prop} (s : State) (a n : Nat) (f)
   (h1 : ∀ bs, readBytes s a n = .bytes bs → EndsIn (s.devices = []) P (f bs))
       (h2 : P (raise .busError s)) :
   EndsIn (s.devices = []) P (withMessageBytes s a n f) := by
  rcases withMessageBytes_cases s a n f with ⟨bs, hb, h⟩ | ⟨hb, h⟩ | ⟨x, hb, h⟩
  · rw [h]; exact h1 bs hb
  · rw [h]; exact h2
  · rw [h]; exact ⟨⟨x, rfl⟩, readBytes_device hb⟩

/-- After a step of a running command: fault entry, or on with the invariant of the new position. -/
abbrev StepPost (s t : State) : Prop := SameOutside s t ∧
    (FaultEntered t ∨ (t.seq ≠ .sFault ∧ t.err = s.err ∧ t.seqInv))

theorem counted_of_same {s t : State} {b l : Quad} (h : s.counted b l) (h1 : t.base = s.base)
    (h2 : t.len = s.len) (h3 : t.cfg = s.cfg) (h4 : t.nfull = s.nfull) (h5 : t.rest = s.rest)
    (h6 : t.digest = s.digest) (h7 : t.hash.isSome) : t.counted b l := by
  obtain ⟨⟨a1, a2, a3, a4, a5, a6⟩, a7⟩ := h
  exact ⟨⟨h1 ▸ a1, h2 ▸ a2, h3 ▸ a3, h4 ▸ a4, h5 ▸ a5, h6 ▸ a6⟩, h7⟩

theorem argumentError_ne_none {cfg b l x} (h : argumentError cfg b l = some x) : x ≠ .none := by
  unfold argumentError at h
  split at h
  · simp at h; subst h; simp
  · split at h
    · simp at h; subst h; simp
    · split at h
      · simp at h; subst h; simp
      · simp at h

theorem execCheck_endsIn {s : State} (hs : s.seq = .sCheck) (h : s.seqInv) : EndsIn (s.devices = [])
    (StepPost s) (execCheck s) := by
  simp only [State.seqInv, hs] at h
  obtain ⟨hb, hl, -, hS, hsub⟩ := h
  obtain ⟨b, hb⟩ := Option.isSome_iff_exists.mp hb
  obtain ⟨l, hl⟩ := Option.isSome_iff_exists.mp hl
  unfold execCheck check
  rw [need_of_some hb, need_of_some hl]
  cases harg : argumentError s.cfg b l with
  | some x =>
    simp only [unlessFault_raise]
    exact
        ⟨⟨rfl, rfl, rfl, rfl, rfl, rfl, rfl⟩, .inl (raise_faultEntered _ (argumentError_ne_none harg) _)⟩
  | none =>
    simp only [unlessFault_next]
    rw [if_neg (by simp [hs])]
    refine ⟨⟨rfl, rfl, rfl, rfl, rfl, rfl, rfl⟩, .inr ⟨by simp, rfl, ?_⟩⟩
    exact ⟨b, l, ⟨hb, hl, harg, rfl, rfl, rfl⟩, hS, hsub⟩

theorem execInit_endsIn {s : State} (hs : s.seq = .sInit) (h : s.seqInv) : EndsIn (s.devices = [])
    (StepPost s) (execInit s) := by
  simp only [State.seqInv, hs] at h
  obtain ⟨b, l, ⟨h1, h2, h3, h4, h5, h6⟩, hS, hsub⟩ := h
  refine ⟨⟨rfl, rfl, rfl, rfl, rfl, rfl, rfl⟩, .inr ⟨by simp, rfl, ?_⟩⟩
  exact ⟨b, l, 0, ⟨⟨h1, h2, h3, h4, h5, h6⟩, rfl⟩, rfl, by omega, rfl, fun _ => hsub, hS,
    by simp [State.subReady, hsub]⟩

theorem ofNat_add_one (i : Nat) : BitVec.ofNat 64 i + 1#64 = BitVec.ofNat 64 (i + 1) := by
  apply BitVec.eq_of_toNat_eq; simp

theorem execAbsorb_endsIn {s : State} (hs : s.seq = .sAbsorb) (h : s.seqInv) (hsub : s.sub = .start)
    : EndsIn (s.devices = []) (StepPost s) (execAbsorb s) := by
  simp only [State.seqInv, hs] at h
  obtain ⟨b, l, i, hc, hi, hle, hbl, hsub', hS, hready⟩ := h
  obtain ⟨⟨h1, h2, h3, h4, h5, h6⟩, h7⟩ := id hc
  obtain ⟨hh, h7⟩ := Option.isSome_iff_exists.mp h7
  unfold execAbsorb ifBlocksLeft
  rw [need_of_some hi, need_of_some h4]
  split
  · next hlt =>
    unfold absorbBlock withFullBlock
    rw [need_of_some h1, need_of_some hi]
    apply EndsIn.unlessFault
        (P := fun t => (FaultEntered t ∧ SameOutside s t) ∨ (t.seq ≠ .sFault ∧ SameOutside s t ∧
          t.err = s.err ∧ t.counted b l ∧ t.i = some i ∧
          t.blocks = some (BitVec.ofNat 64 (i+1)) ∧ t.scratch = none ∧ t.sub = .start))
    · apply endsIn_withMessageBytes
      · intro bs hbs
        show EndsIn _ _ (compressBlock (toBuffer 64 bs) s)
        rw [compressBlock_of_hash _ h7 hbl]
        refine .inr
            ⟨?_, ⟨rfl, rfl, rfl, rfl, rfl, rfl, rfl⟩, rfl, counted_of_same hc rfl rfl rfl rfl rfl rfl rfl, hi, ?_, hS, hsub⟩
        · simp [hs]
        · simp [ofNat_add_one]
      · exact .inl ⟨raise_faultEntered _ (by simp) _, ⟨rfl, rfl, rfl, rfl, rfl, rfl, rfl⟩⟩
    · rintro t (⟨h, hk⟩ | ⟨h, -⟩) hf
      · exact ⟨hk, .inl h⟩
      · exact absurd hf h
    · rintro t (⟨h, hk⟩ | ⟨h, hk, he, hct, hti, htb, htS, hts⟩) hf
      · exact absurd h.1 hf
      · unfold afterAbsorb
        obtain ⟨⟨_, _, _, h4', _, _⟩, _⟩ := id hct
        rw [need_of_some hti, need_of_some h4']
        refine ⟨hk, .inr ⟨by dsimp; split <;> simp, he, ?_⟩⟩
        simp only [State.seqInv]
        split
        · next hh =>
          split at hh <;> simp at hh
        all_goals try (next hh => split at hh <;> simp at hh; done)
        · next hh =>
          refine
              ⟨b, l, i+1, counted_of_same hct rfl rfl rfl rfl rfl rfl hct.2, rfl, by omega, htb, fun _ => hts, htS, ?_⟩
          simp [State.subReady, hts]
        · next hh =>
          split at hh
          · simp at hh
          · refine ⟨b, l, counted_of_same hct rfl rfl rfl rfl rfl rfl hct.2, ?_, htS, hts⟩
            have : i + 1 = l.toNat / 64 := by omega
            rw [← this]; exact htb
  · next hlt =>
    refine ⟨⟨rfl, rfl, rfl, rfl, rfl, rfl, rfl⟩, .inr ⟨by simp, rfl, ?_⟩⟩
    refine ⟨b, l, counted_of_same hc rfl rfl rfl rfl rfl rfl hc.2, ?_, hS, hsub⟩
    have : i = l.toNat / 64 := by omega
    rw [← this]; exact hbl

theorem execTail_endsIn {s : State} (hs : s.seq = .sTail) (h : s.seqInv) : EndsIn (s.devices = [])
    (StepPost s) (execTail s) := by
  simp only [State.seqInv, hs] at h
  obtain ⟨b, l, hc, hbl, -, hsub⟩ := h
  obtain ⟨⟨h1, h2, h3, h4, h5, h6⟩, h7⟩ := id hc
  unfold execTail tail
  rw [need_of_some h1, need_of_some h4, need_of_some h5]
  apply EndsIn.unlessFault (P := fun t => (FaultEntered t ∧ SameOutside s t) ∨ (∃ S, t = {s with scratch := some S}))
  · apply endsIn_withMessageBytes
    · intro bs hbs
      exact .inr ⟨_, rfl⟩
    · exact .inl ⟨raise_faultEntered _ (by simp) _, ⟨rfl, rfl, rfl, rfl, rfl, rfl, rfl⟩⟩
  · rintro t (⟨h, hk⟩ | ⟨S, rfl⟩) hf
    · exact ⟨hk, .inl h⟩
    · simp [hs] at hf
  · rintro t (⟨h, hk⟩ | ⟨S, rfl⟩) hf
    · exact absurd h.1 hf
    · refine ⟨⟨rfl, rfl, rfl, rfl, rfl, rfl, rfl⟩, .inr ⟨by simp, rfl, ?_⟩⟩
      exact ⟨b, l, counted_of_same hc rfl rfl rfl rfl rfl rfl hc.2, hbl, rfl, hsub⟩

theorem execPadlen_endsIn {s : State} (hs : s.seq = .sPadlen) (h : s.seqInv) : EndsIn
    (s.devices = []) (StepPost s) (execPadlen s) := by
  simp only [State.seqInv, hs] at h
  obtain ⟨b, l, hc, hbl, hS, hsub⟩ := h
  obtain ⟨⟨h1, h2, h3, h4, h5, h6⟩, h7⟩ := id hc
  obtain ⟨S, hS⟩ := Option.isSome_iff_exists.mp hS
  unfold execPadlen
  rw [padlen_of_scratch h2 h5 hS, andThen_next]
  refine ⟨⟨rfl, rfl, rfl, rfl, rfl, rfl, rfl⟩, .inr ⟨by simp, rfl, ?_⟩⟩
  refine ⟨b, l, 0, counted_of_same hc rfl rfl rfl rfl rfl rfl hc.2, rfl, rfl, rfl, rfl, ?_, by simpa using hbl, by simp [State.subReady, hsub]⟩
  rw [padBlocks_eq]; split <;> decide

theorem afterPadcomp_endsIn {s t : State} {b l : Quad} {j : Nat} (hk : SameOutside s t)
    (he : t.err = s.err) (hct : t.counted b l)
  (hnp : t.npad = some (padBlocks (l.toNat % 64))) (hbits : t.bitLength = some (l * 8))
      (hS : t.scratch.isSome)
  (hj : t.j = some j) (hlt : j < padBlocks (l.toNat % 64))
      (hb : t.blocks = some (BitVec.ofNat 64 (l.toNat / 64 + j + 1))) (hsub : t.sub = .start) (nd) :
  EndsIn nd (StepPost s) (afterPadcomp t) := by
  unfold afterPadcomp
  rw [need_of_some hj, need_of_some hnp]
  split
  · next hlt' =>
    exact ⟨hk, .inr ⟨by simp, he, b, l, j + 1, counted_of_same hct rfl rfl rfl rfl rfl rfl hct.2, hnp,
      hbits, hS, rfl, hlt', by rw [← Nat.add_assoc]; exact hb, by simp [State.subReady, hsub]⟩⟩
  · next hlt' =>
    refine ⟨hk, .inr ⟨by simp, he, b, l, counted_of_same hct rfl rfl rfl rfl rfl rfl hct.2, ?_, rfl,
      hsub⟩⟩
    have : blockCount l.toNat = l.toNat / 64 + j + 1 := by unfold blockCount; omega
    rw [this]; exact hb

theorem execPadcomp_endsIn {s : State} (hs : s.seq = .sPadcomp) (h : s.seqInv)
    (hsub : s.sub = .start) : EndsIn (s.devices = []) (StepPost s) (execPadcomp s) := by
  simp only [State.seqInv, hs] at h
  obtain ⟨b, l, j, hc, hnp, hbits, hS, hj, hlt, hbl, hready⟩ := h
  obtain ⟨⟨h1, h2, h3, h4, h5, h6⟩, h7⟩ := id hc
  obtain ⟨hh, h7⟩ := Option.isSome_iff_exists.mp h7
  obtain ⟨S, hS'⟩ := Option.isSome_iff_exists.mp hS
  have hj2 : j < 2 := by rw [padBlocks_eq] at hlt; split at hlt <;> omega
  unfold execPadcomp
  rw [padcompBlock_of_scratch (j := ⟨j, hj2⟩) hS' hj h7 hbl, andThen_next]
  refine afterPadcomp_endsIn (b := b) (l := l) (j := j) ⟨rfl, rfl, rfl, rfl, rfl, rfl, rfl⟩ rfl (counted_of_same (t := { s with block := _, hash := some _, work := _, sched := _, blocks := _}) hc rfl rfl rfl rfl rfl rfl rfl) hnp hbits hS hj hlt ?_ hsub _
  simp [ofNat_add_one]

theorem execSerialize_endsIn {s : State} (hs : s.seq = .sSerialize) (h : s.seqInv) : EndsIn
    (s.devices = []) (StepPost s) (execSerialize s) := by
  simp only [State.seqInv, hs] at h
  obtain ⟨b, l, hc, hbl, -⟩ := h
  obtain ⟨hh, h7⟩ := Option.isSome_iff_exists.mp hc.2
  unfold execSerialize serialize
  simp only [h7, need_some]
  refine ⟨⟨rfl, rfl, rfl, rfl, rfl, rfl, rfl⟩, .inr ⟨by simp, rfl, ?_⟩⟩
  exact ⟨rfl, rfl, by simp [hbl]⟩

/-- Every row of R82's table, from the invariant. -/
theorem tableStep_endsIn {s : State} (h : s.seqInv) (hb : s.phase = .busy) (hsub : s.sub = .start) :
    EndsIn (s.devices = []) (StepPost s) (tableStep s) := by
  unfold tableStep
  cases hs : s.seq <;> simp only [stepAt, exec]
  · simp [State.phase, Seq.phase, hs] at hb
  · exact execCheck_endsIn hs h
  · exact execInit_endsIn hs h
  · exact execAbsorb_endsIn hs h hsub
  · exact execTail_endsIn hs h
  · exact execPadlen_endsIn hs h
  · exact execPadcomp_endsIn hs h hsub
  · exact execSerialize_endsIn hs h
  · simp [State.phase, Seq.phase, hs] at hb
  · simp [State.phase, Seq.phase, hs] at hb

theorem seqInv_sub_start {s : State} (h : s.seqInv) (hs : s.seq ≠ .sAbsorb)
    (hs' : s.seq ≠ .sPadcomp) (hb : s.phase = .busy) : s.sub = .start := by
  unfold State.seqInv at h
  cases hq : s.seq <;> simp only [hq] at h hs hs' <;> simp [State.phase, Seq.phase, hq] at hb
  · exact h.2.2.2.2
  · obtain ⟨b, l, -, -, h⟩ := h; exact h
  · simp at hs
  · obtain ⟨b, l, -, -, -, h⟩ := h; exact h
  · obtain ⟨b, l, -, -, -, h⟩ := h; exact h
  · simp at hs'
  · obtain ⟨b, l, -, -, -, h⟩ := h; exact h

theorem firstWords_isSome {w : ScheduleRegs} {ws} (h : allWords w = some ws) : (firstWords w).isSome
    := by
  rw [Option.isSome_iff_exists]
  refine ⟨(ws.toList.take 16), ?_⟩
  rw [allWords_eq_some] at h
  rw [firstWords_eq_some]
  refine ⟨by simp, fun k hk hk' => ?_⟩
  rw [h k hk]; simp

/-- Every small step inside a block. -/
theorem blockStep_endsIn {s : State} {R : State → Prop} (hr : s.subReady)
    (hg : s.cfg.granularity = .round) (hh : s.hash.isSome) {n : Nat}
    (hbl : s.blocks = some (BitVec.ofNat 64 n))
  (fetch : (Block → Result) → Result) (after : State → Result)
  (hfetch : s.sub = .start → EndsIn (s.devices = []) R (fetch fun b => beginBlock b s))
  (hR : ∀ t : State, t.subReady → (∃ bl wk sc tt sb, t = { s with block := bl, work := wk, sched := sc, t := tt, sub := sb}) → R t)
  (hafter : ∀ t : State, (∃ h', t = {s with hash := some h', work := none, sched := noSchedule, sub := .start, blocks := some (BitVec.ofNat 64 (n + 1))}) → EndsIn (s.devices = []) R (after t))
      :
  EndsIn (s.devices = []) R (blockStep fetch after s) := by
  obtain ⟨hh', hh⟩ := Option.isSome_iff_exists.mp hh
  unfold State.subReady at hr
  obtain ⟨-, hr⟩ := hr
  unfold blockStep
  cases hs : s.sub <;> simp only [hs] at hr ⊢
  · exact hfetch hs
  · obtain ⟨b, hb⟩ := Option.isSome_iff_exists.mp hr
    simp only [exec, execLdw]; rw [ldw_of_block hb, andThen_next]
    refine hR _ ⟨fun _ => hg, ?_⟩ ⟨_, _, _, _, _, rfl⟩
    dsimp only
    rw [firstWords_after_ldw]; rfl
  · obtain ⟨ws, hw⟩ := Option.isSome_iff_exists.mp hr
    simp only [exec, execExpand, expand]; rw [need_of_some hw, andThen_next]
    refine hR _ ⟨fun _ => hg, ?_⟩ ⟨_, _, _, _, _, rfl⟩
    dsimp only
    rw [Option.isSome_iff_exists]
    refine ⟨Vector.ofFn fun t => (expandWords 48 ws).getD t.val 0, ?_⟩
    rw [allWords_eq_some]
    intro t ht
    simp only [Vector.getElem_ofFn]
    split
    · next h16 =>
      rw [firstWords_eq_some] at hw
      rw [expandWords_getD_lt (by omega)]
      have := hw.2 t ht (by omega)
      simp only [Fin.getElem_fin]
      rw [this, List.getD_eq_getElem?_getD, List.getElem?_eq_getElem (by omega)]; rfl
    · rfl
  · obtain ⟨ws, hw⟩ := Option.isSome_iff_exists.mp hr
    simp only [exec, execCinit]; rw [cinit_of_hash hh, andThen_next]
    exact hR _ ⟨fun _ => hg, by simp [hw]⟩ ⟨_, _, _, _, _, rfl⟩
  · obtain ⟨hw, hv, ht⟩ := hr
    obtain ⟨ws, hw⟩ := Option.isSome_iff_exists.mp hw
    obtain ⟨v, hv⟩ := Option.isSome_iff_exists.mp hv
    obtain ⟨t, ht⟩ := Option.isSome_iff_exists.mp ht
    rw [need_of_some ht]
    simp only [exec, execRound]
    rw [roundOp_of_work hv (allWords_eq_some.mp hw t t.isLt), andThen_next]
    unfold afterRound
    split
    · exact hR _ ⟨fun _ => hg, by simp [hw, hs]⟩ ⟨_, _, _, _, _, rfl⟩
    · exact hR _ ⟨fun _ => hg, by simp⟩ ⟨_, _, _, _, _, rfl⟩
  · obtain ⟨v, hv⟩ := Option.isSome_iff_exists.mp hr
    simp only [exec, execFeedback]
    rw [feedback_of_work hh hv, andThen_next]
    unfold endBlock countBlock
    rw [need_of_some (x := State.blocks _) hbl, andThen_next]
    apply hafter
    exact ⟨_, by rw [← ofNat_add_one]; rfl⟩

/-- Every step at the finest granularity, from the invariant. -/
theorem roundStep_endsIn {s : State} (h : s.seqInv) (hb : s.phase = .busy)
    (hg : s.cfg.granularity = .round) : EndsIn (s.devices = []) (StepPost s) (roundStep s) := by
  unfold roundStep
  have hst := seqInv_sub_start h
  cases hs : s.seq <;> simp only [] <;> try (exact tableStep_endsIn h hb (hst (by simp [hs]) (by simp [hs]) hb))
  · have h0 := h
    simp only [State.seqInv, hs] at h
    obtain ⟨b, l, i, hc, hi, hle, hbl, hsub', hS, hready⟩ := h
    obtain ⟨⟨h1, h2, h3, h4, h5, h6⟩, h7⟩ := id hc
    unfold ifBlocksLeft
    rw [need_of_some hi, need_of_some h4]
    split
    · next hlt =>
      refine blockStep_endsIn hready hg h7 hbl _ _ ?_ ?_ ?_
      · intro hss
        unfold withFullBlock
        rw [need_of_some h1, need_of_some hi]
        apply endsIn_withMessageBytes
        · intro bs hbs
          refine ⟨⟨rfl, rfl, rfl, rfl, rfl, rfl, rfl⟩, .inr ⟨by simp [hs], rfl, ?_⟩⟩
          simp only [State.seqInv, hs]
          exact
              ⟨b, l, i, counted_of_same hc rfl rfl rfl rfl rfl rfl hc.2, hi, hle, hbl, by omega, hS, fun _ => hg, rfl⟩
        · exact ⟨⟨rfl, rfl, rfl, rfl, rfl, rfl, rfl⟩, .inl (raise_faultEntered _ (by simp) _)⟩
      · rintro t hr ⟨bl, wk, sc, tt, sb, rfl⟩
        refine ⟨⟨rfl, rfl, rfl, rfl, rfl, rfl, rfl⟩, .inr ⟨by simp [hs], rfl, ?_⟩⟩
        simp only [State.seqInv, hs]
        exact ⟨b, l, i, counted_of_same hc rfl rfl rfl rfl rfl rfl hc.2, hi, hle, hbl, by omega, hS, hr⟩
      · rintro t ⟨h', rfl⟩
        unfold afterAbsorb
        rw [need_of_some (x := State.i _) hi, need_of_some (x := State.nfull _) h4]
        refine ⟨⟨rfl, rfl, rfl, rfl, rfl, rfl, rfl⟩, .inr ⟨by dsimp; split <;> simp, rfl, ?_⟩⟩
        simp only [State.seqInv]
        split
        all_goals try (next hh => split at hh <;> simp at hh; done)
        · refine
            ⟨b, l, i+1, counted_of_same hc rfl rfl rfl rfl rfl rfl rfl, rfl, by omega, rfl, fun _ => trivial, hS, by simp [State.subReady]⟩
        · next hh =>
          split at hh <;> simp at hh
          refine ⟨b, l, counted_of_same hc rfl rfl rfl rfl rfl rfl rfl, ?_, hS, trivial⟩
          have : i + 1 = l.toNat / 64 := by omega
          rw [← this]
    · next hlt =>
      have hsub := hsub' (by omega)
      exact execAbsorb_endsIn hs h0 hsub
  · simp only [State.seqInv, hs] at h
    obtain ⟨b, l, j, hc, hnp, hbits, hS, hj, hlt, hbl, hready⟩ := h
    obtain ⟨⟨h1, h2, h3, h4, h5, h6⟩, h7⟩ := id hc
    obtain ⟨S, hS'⟩ := Option.isSome_iff_exists.mp hS
    have hj2 : j < 2 := by rw [padBlocks_eq] at hlt; split at hlt <;> omega
    refine blockStep_endsIn hready hg h7 hbl _ _ ?_ ?_ ?_
    · intro hss
      unfold withPadBlock
      rw [need_of_some hS', need_of_some hj, dif_pos hj2]
      refine ⟨⟨rfl, rfl, rfl, rfl, rfl, rfl, rfl⟩, .inr ⟨by simp [hs], rfl, ?_⟩⟩
      simp only [State.seqInv, hs]
      exact
          ⟨b, l, j, counted_of_same hc rfl rfl rfl rfl rfl rfl hc.2, hnp, hbits, hS, hj, hlt, hbl, fun _ => hg, rfl⟩
    · rintro t hr ⟨bl, wk, sc, tt, sb, rfl⟩
      refine ⟨⟨rfl, rfl, rfl, rfl, rfl, rfl, rfl⟩, .inr ⟨by simp [hs], rfl, ?_⟩⟩
      simp only [State.seqInv, hs]
      exact
          ⟨b, l, j, counted_of_same hc rfl rfl rfl rfl rfl rfl hc.2, hnp, hbits, hS, hj, hlt, hbl, hr⟩
    · rintro t ⟨h', rfl⟩
      exact afterPadcomp_endsIn
          (t := { s with hash := some h', work := none, sched := noSchedule, sub := .start, blocks := some (BitVec.ofNat 64 (l.toNat / 64 + j + 1)) })
          (b := b) (l := l) (j := j) ⟨rfl, rfl, rfl, rfl, rfl, rfl, rfl⟩ rfl
          (counted_of_same hc rfl rfl rfl rfl rfl rfl rfl) hnp hbits hS hj hlt rfl rfl _

/-- Every step of a running command, from the invariant. -/
theorem busyStep_endsIn {s : State} (h : s.seqInv) (hb : s.phase = .busy) : EndsIn (s.devices = [])
    (StepPost s) (busyStep s) := by
  have key : s.cfg.granularity ≠ .round → s.sub = .start := by
    intro hg
    by_cases h1 : s.seq = .sAbsorb
    · simp only [State.seqInv, h1] at h
      obtain ⟨b, l, i, -, -, -, -, -, -, hr⟩ := h
      by_contra hc; exact hg (hr.1 hc)
    · by_cases h2 : s.seq = .sPadcomp
      · simp only [State.seqInv, h2] at h
        obtain ⟨b, l, i, -, -, -, -, -, -, -, hr⟩ := h
        by_contra hc; exact hg (hr.1 hc)
      · exact seqInv_sub_start h h1 h2 hb
  unfold busyStep
  cases hg : s.cfg.granularity <;> simp only []
  · exact tableStep_endsIn h hb (key (by simp [hg]))
  · exact tableStep_endsIn h hb (key (by simp [hg]))
  · exact roundStep_endsIn h hb hg

theorem StepPost.inv {s t : State} (h : s.Inv) (hnf : s.phase ≠ .fault) (hp : StepPost s t) : t.Inv
    := by
  obtain ⟨h1, h2, h3, h4⟩ := h
  obtain ⟨⟨k1, k2, k3, k4, k5, k6, k7⟩, hp⟩ := hp
  refine ⟨by rw [k3, k5]; exact h1, by rw [k1, k5]; exact h2, ?_, ?_⟩
  · rcases hp with ⟨a, b, c⟩ | ⟨a, b, c⟩
    · simp [State.phase, Seq.phase, a, b]
    · have : t.phase ≠ .fault := by rw [Ne, phase_eq_fault]; exact a
      rw [b, h3]; simp [this, hnf]
  · rcases hp with ⟨a, b, c⟩ | ⟨a, b, c⟩ <;> exact c

/-- After the full blocks of a command run in one step. -/
abbrev LoopPost (s : State) (b l : Quad) (n : Nat) (t : State) : Prop :=
  (FaultEntered t ∧ SameOutside s t) ∨
      (t.seq ≠ .sFault ∧ SameOutside s t ∧ t.err = s.err ∧ t.counted b l ∧ t.blocks = some (BitVec.ofNat 64 n) ∧ t.sub = .start)

theorem absorbLoop_endsIn {s : State} {b l : Quad} : ∀ (n i : Nat) (t : State), t.seq ≠ .sFault →
    SameOutside s t → t.err = s.err → t.counted b l → t.i = some i → t.blocks = some
    (BitVec.ofNat 64 i) → t.sub = .start →
   EndsIn (s.devices = []) (LoopPost s b l (i + n)) (absorbLoop n t) := by
  intro n
  induction n with
  | zero =>
    intro i t h1 h2 h3 h4 h5 h6 h7
    exact .inr ⟨h1, h2, h3, h4, h6, h7⟩
  | succ n ih =>
    intro i t hq hk he hc hi hbl hsub
    obtain ⟨⟨h1, h2, h3, h4, h5, h6⟩, h7⟩ := id hc
    obtain ⟨hh, h7⟩ := Option.isSome_iff_exists.mp h7
    unfold absorbLoop absorbBlock withFullBlock
    rw [need_of_some h1, need_of_some hi]
    apply EndsIn.unlessFault
        (P := fun t => (FaultEntered t ∧ SameOutside s t) ∨ (t.seq ≠ .sFault ∧ SameOutside s t ∧ t.err = s.err ∧ t.counted b l ∧ t.i = some i ∧ t.blocks = some (BitVec.ofNat 64 (i+1)) ∧ t.sub = .start))
    · have hdev : t.devices = s.devices := hk.2.2.2.1
      rw [← hdev]
      apply endsIn_withMessageBytes
      · intro bs hbs
        show EndsIn _ _ (compressBlock (toBuffer 64 bs) t)
        rw [compressBlock_of_hash _ h7 hbl]
        refine .inr ⟨hq, hk, he, counted_of_same hc rfl rfl rfl rfl rfl rfl rfl, hi, ?_, hsub⟩
        simp [ofNat_add_one]
      · exact .inl ⟨raise_faultEntered _ (by simp) _, hk⟩
    · rintro t (⟨h, hk⟩ | ⟨h, -⟩) hf
      · exact .inl ⟨h, hk⟩
      · exact absurd hf h
    · rintro t (⟨h, hk⟩ | ⟨h, hk, he, hct, hti, htb, hts⟩) hf
      · exact absurd h.1 hf
      · rw [need_of_some hti]
        have := ih (i+1) { t with i := some (i+1) } h hk he
            (counted_of_same hct rfl rfl rfl rfl rfl rfl hct.2) rfl htb hts
        rw [show i + 1 + n = i + (n + 1) by omega] at this
        exact this

theorem padLoop_endsIn {s : State} {b l : Quad} : ∀ (n j m : Nat) (t : State), t.seq ≠ .sFault →
    SameOutside s t → t.err = s.err → t.counted b l → t.j = some j → t.scratch.isSome → j + n ≤ 2 →
    t.blocks = some (BitVec.ofNat 64 m) → t.sub = .start →
   EndsIn (s.devices = [])
       (fun t => t.seq ≠ .sFault ∧ SameOutside s t ∧ t.err = s.err ∧ t.counted b l ∧ t.blocks = some (BitVec.ofNat 64 (m + n)) ∧ t.sub = .start)
       (padLoop n t) := by
  intro n
  induction n with
  | zero =>
    intro i m t h1 h2 h3 h4 h5 h6 h7 h8 h9
    exact ⟨h1, h2, h3, h4, h8, h9⟩
  | succ n ih =>
    intro j m t hq hk he hc hj hS hlt hbl hsub
    obtain ⟨⟨h1, h2, h3, h4, h5, h6⟩, h7⟩ := id hc
    obtain ⟨hh, h7⟩ := Option.isSome_iff_exists.mp h7
    obtain ⟨S, hS'⟩ := Option.isSome_iff_exists.mp hS
    unfold padLoop
    rw [padcompBlock_of_scratch (j := ⟨j, by omega⟩) hS' hj h7 hbl, andThen_next]
    rw [need_of_some (x := State.j _) hj]
    refine EndsIn.mono
        (ih (j+1) (m+1) _ hq hk he (counted_of_same hc rfl rfl rfl rfl rfl rfl rfl) rfl hS (by omega) ?_ hsub)
        ?_
    · simp [ofNat_add_one]
    · rintro t ⟨a, b, c, d, e, f⟩
      exact ⟨a, b, c, d, by rw [e]; congr 2; omega, f⟩

/-- A command run in one step, from `S_CHECK`. -/
theorem digestBody_endsIn {s : State} (hs : s.seq = .sCheck) (h : s.seqInv) : EndsIn
    (s.devices = []) (StepPost s) (digestBody s) := by
  simp only [State.seqInv, hs] at h
  obtain ⟨hb, hl, -, hS, hsub⟩ := h
  obtain ⟨b, hb⟩ := Option.isSome_iff_exists.mp hb
  obtain ⟨l, hl⟩ := Option.isSome_iff_exists.mp hl
  unfold digestBody check
  rw [need_of_some hb, need_of_some hl]
  cases harg : argumentError s.cfg b l with
  | some x =>
    simp only [unlessFault_raise]
    exact
        ⟨⟨rfl, rfl, rfl, rfl, rfl, rfl, rfl⟩, .inl (raise_faultEntered _ (argumentError_ne_none harg) _)⟩
  | none =>
    simp only [unlessFault_next]
    rw [if_neg (by simp [hs])]
    apply EndsIn.unlessFault (P := LoopPost s b l (0 + l.toNat / 64))
    · simp only [need_some]
      exact absorbLoop_endsIn (s := s) (b := b) (l := l) (l.toNat / 64) 0 _ (by simp [init, hs])
          ⟨rfl, rfl, rfl, rfl, rfl, rfl, rfl⟩ rfl ⟨⟨hb, hl, harg, rfl, rfl, rfl⟩, rfl⟩ rfl rfl hsub
    · rintro t (⟨h, hk⟩ | ⟨h, -⟩) hf
      · exact ⟨hk, .inl h⟩
      · exact absurd hf h
    rintro t (⟨h, hk⟩ | ⟨hq, hk, he, hc, hbl, hts⟩) hf
    · exact absurd h.1 hf
    rw [Nat.zero_add] at hbl
    obtain ⟨⟨h1, h2, h3, h4, h5, h6⟩, h7⟩ := id hc
    apply EndsIn.unlessFault
        (P := fun t' => (FaultEntered t' ∧ SameOutside s t') ∨ (∃ S, t' = {t with scratch := some S}))
    · unfold tail
      rw [need_of_some h1, need_of_some h4, need_of_some h5]
      have hdev : t.devices = s.devices := hk.2.2.2.1
      rw [← hdev]
      apply endsIn_withMessageBytes
      · intro bs hbs
        exact .inr ⟨_, rfl⟩
      · exact .inl ⟨raise_faultEntered _ (by simp) _, hk⟩
    · rintro t (⟨h, hk⟩ | ⟨S, rfl⟩) hf
      · exact ⟨hk, .inl h⟩
      · exact absurd hf hq
    rintro t' (⟨h, hk⟩ | ⟨S, rfl⟩) hf
    · exact absurd h.1 hf
    rw [padlen_of_scratch (s := {t with scratch := some S}) h2 h5 rfl, andThen_next]
    rw [need_of_some (x := State.npad _) rfl]
    refine EndsIn.andThen
        (padLoop_endsIn (s := s) (b := b) (l := l) (padBlocks (l.toNat % 64)) 0 (l.toNat / 64) _ hq hk he (counted_of_same hc rfl rfl rfl rfl rfl rfl hc.2) rfl rfl ?_ hbl hts)
        ?_
    · rw [padBlocks_eq]; split <;> omega
    rintro t2 ⟨hq, hk, he, hc, hbl, hts⟩
    obtain ⟨hh, h7⟩ := Option.isSome_iff_exists.mp hc.2
    unfold serialize
    rw [need_of_some h7]
    refine ⟨hk, .inr ⟨by simp, he, ?_⟩⟩
    exact ⟨rfl, rfl, by simp [hbl]⟩

/-- The invariant holds, and nothing outside the engine changed but memory and the log. -/
def InvAfter (s t : State) : Prop := t.Inv ∧ t.cfg = s.cfg ∧ t.devices = s.devices ∧ t.program =
    s.program ∧ t.events = s.events

theorem StepPost.invAfter {s t : State} (h : s.Inv) (hb : s.phase = .busy) (hp : StepPost s t) :
    InvAfter s t :=
  ⟨StepPost.inv h (by simp [hb]) hp, hp.1.2.2.2.2.1, hp.1.2.2.2.1, hp.1.2.2.2.2.2.1, hp.1.2.2.2.2.2.2⟩

theorem acceptDigest_inv {s : State} (h : s.Inv) (ha : s.accepting) : (acceptDigest s).Inv := by
  obtain ⟨h1, h2, h3, h4⟩ := h
  refine ⟨h1, h2, ?_, ?_⟩
  · have : s.phase ≠ .fault := by rcases ha with h | h <;> simp [h]
    have := h3.mpr this
    simp [acceptDigest, State.phase, Seq.phase, this]
  · have hS : s.scratch = none := by
      have hq : s.quiet := by
        unfold State.seqInv at h4
        rcases ha with ha | ha
        · rw [phase_eq_idle] at ha; simp only [ha] at h4; exact h4.1
        · rw [phase_eq_done] at ha; simp only [ha] at h4; exact h4.1
      exact (congrArg State.scratch hq).symm
    exact ⟨rfl, rfl, rfl, hS, rfl⟩

theorem runDigest_endsIn {s : State} (h : s.Inv) (ha : s.accepting) : EndsIn (s.devices = [])
    (InvAfter s) (runDigest s) := by
  have hA := acceptDigest_inv h ha
  unfold runDigest
  split
  · have := digestBody_endsIn (s := acceptDigest s) rfl hA.2.2.2
    refine EndsIn.mono this ?_
    intro t ht
    have := StepPost.invAfter (s := acceptDigest s) hA rfl ht
    exact this
  · exact ⟨hA, rfl, rfl, rfl, rfl⟩
  · exact ⟨hA, rfl, rfl, rfl, rfl⟩

theorem raise_invAfter {s : State} (h : s.Inv) (x : Err) (hx : x ≠ .none) : InvAfter s (raise x s)
    := by
  obtain ⟨h1, h2, h3, h4⟩ := h
  refine ⟨⟨h1, h2, ?_, ?_⟩, rfl, rfl, rfl, rfl⟩
  · simp [raise, State.phase, Seq.phase, hx]
  · exact (raise_faultEntered x hx s).2.2

theorem issue_endsIn {s : State} {f} (h : s.Inv) (hb : s.phase ≠ .busy)
    (hf : s.accepting → EndsIn (s.devices = []) (InvAfter s) (f s)) :
   EndsIn (s.devices = []) (InvAfter s) (issue f s) := by
  unfold issue
  cases hp : s.phase <;> simp only []
  · exact hf (.inl hp)
  · exact absurd hp hb
  · exact hf (.inr hp)
  · exact ⟨h, rfl, rfl, rfl, rfl⟩

theorem Inv_of_same {s t : State} (h : s.Inv) (hb : s.phase ≠ .busy) (h1 : t.mem = s.mem)
    (h2 : t.msgBase.toNat < 2 ^ s.cfg.addrWidth) (h3 : t.cfg = s.cfg) (h4 : t.err = s.err)
    (h5 : t.seq = s.seq) (hq : s.quiet → t.quiet) (hd : t.digest = s.digest)
    (hbl : t.blocks = s.blocks) : t.Inv := by
  obtain ⟨a, b, c, d⟩ := h
  refine ⟨by rw [h1, h3]; exact a, by rw [h3]; exact h2, by rw [h4, State.phase, h5]; exact c, ?_⟩
  unfold State.seqInv at d ⊢
  rw [h5]
  cases hs : s.seq <;> simp only [hs] at d ⊢ <;> first | (exact ⟨hq d.1, hd ▸ d.2.1, hbl ▸ d.2.2⟩) | (exfalso; simp [State.phase, Seq.phase, hs] at hb)

/-- No internal item holds a value, item by item. -/
theorem quiet_iff (s : State) : s.quiet ↔
    (s.hash = none ∧ s.work = none ∧ s.sched = noSchedule ∧ s.block = none ∧ s.scratch = none ∧ s.i = none ∧ s.j = none ∧ s.t = none ∧ s.nfull = none ∧ s.rest = none ∧ s.npad = none ∧ s.bitLength = none ∧ s.base = none ∧ s.len = none ∧ s.sub = .start ∧ s.disturbed = false)
    := by
  unfold State.quiet discardInternals
  constructor
  · intro h; rw [← h]; simp
  · rintro ⟨a1,a2,a3,a4,a5,a6,a7,a8,a9,a10,a11,a12,a13,a14,a15,a16⟩
    cases s; simp_all

theorem logRead_invAfter {s : State} (h : s.Inv) (hb : s.phase ≠ .busy) (reg : HostReg)
    (v : Option Quad) : InvAfter s (logRead reg v s) :=
  ⟨Inv_of_same h hb rfl h.2.1 rfl rfl rfl (by rw [quiet_iff, quiet_iff]; exact id) rfl rfl,
    rfl, rfl, rfl, rfl⟩

theorem readRegister_invAfter {s : State} (h : s.Inv) (hb : s.phase ≠ .busy) (reg) : InvAfter s
    (readRegister reg s) := by
  have : ∃ n l, readRegister reg s = { s with freeCount := n, readLog := l } := by
    unfold readRegister logRead drawFree
    cases reg <;> simp only [] <;> (try split) <;> exact ⟨_, _, rfl⟩
  obtain ⟨n, l, e⟩ := this
  rw [e]
  exact ⟨Inv_of_same (t := { s with freeCount := n, readLog := l }) h hb rfl h.2.1 rfl rfl rfl (by rw [quiet_iff, quiet_iff]; exact id) rfl rfl, rfl, rfl, rfl, rfl⟩

theorem readStatus_invAfter {s : State} (h : s.Inv) : InvAfter s (readRegister .status s) := by
  have : ∃ l, readRegister .status s = { s with readLog := l } := ⟨_, rfl⟩
  obtain ⟨l, e⟩ := this
  rw [e]
  refine ⟨?_, rfl, rfl, rfl, rfl⟩
  obtain ⟨a, b, c, d⟩ := h
  refine ⟨a, b, c, ?_⟩
  unfold State.seqInv at d ⊢
  cases hs : s.seq <;> simp only [hs] at d ⊢ <;> first | exact d | (refine ⟨?_, d.2⟩; have := d.1; rw [quiet_iff] at this ⊢; exact this)

theorem writeRegister_invAfter {s : State} (h : s.Inv) (hb : s.phase ≠ .busy) (reg v) : InvAfter s
    (writeRegister reg v s) := by
  unfold writeRegister
  cases reg <;> simp only []
  case msgBase =>
    split
    · next hv => exact
        ⟨Inv_of_same (t := { s with msgBase := v }) h hb rfl hv rfl rfl rfl (by rw [quiet_iff, quiet_iff]; exact id) rfl rfl, rfl, rfl, rfl, rfl⟩
    · exact ⟨h, rfl, rfl, rfl, rfl⟩
  case msgLen => exact ⟨Inv_of_same (t := { s with msgLen := v }) h hb rfl h.2.1 rfl rfl rfl (by rw [quiet_iff, quiet_iff]; exact id) rfl rfl, rfl, rfl, rfl, rfl⟩
  all_goals exact ⟨h, rfl, rfl, rfl, rfl⟩

/-- Every instruction the host can issue, outside `BUSY`. -/
theorem hostIssued_endsIn {s : State} (h : s.Inv) (hb : s.phase ≠ .busy) (i : Instr)
    (hi : i.hostIssued = true) : EndsIn (s.devices = []) (InvAfter s) (exec i s) := by
  have hdig : EndsIn (s.devices = []) (InvAfter s) (execDigest s) := issue_endsIn h hb (runDigest_endsIn h)
  have hres : ∀ op, EndsIn (s.devices = []) (InvAfter s) (execReserved op s) := fun op => issue_endsIn h hb fun _ => raise_invAfter h _ (by simp)
  cases i <;> simp only [Instr.hostIssued] at hi <;> simp only [exec] <;> try (simp at hi)
  · exact hdig
  · exact hres _
  · next reg v =>
    have hcmd : EndsIn (s.devices = []) (InvAfter s) (writeCommand v s) := by
      unfold writeCommand
      split
      · exact hdig
      · exact hres _
    have hreg : ∀ reg, EndsIn (s.devices = []) (InvAfter s) (.next (writeRegister reg v s)) :=
      fun reg => writeRegister_invAfter h hb reg v
    unfold execWr
    cases hp : s.phase <;> simp only []
    · cases reg <;> first | exact hcmd | exact hreg _
    · exact absurd hp hb
    · cases reg <;> first | exact hcmd | exact hreg _
    · cases reg <;> first | exact hcmd | exact hreg _
  · next reg =>
    unfold execRd
    cases hp : s.phase <;> simp only []
    · exact readRegister_invAfter h hb _
    · exact absurd hp hb
    · exact readRegister_invAfter h hb _
    · exact readRegister_invAfter h hb _

theorem decode_hostIssued {w i} (h : decode w = .ok i) : i.hostIssued = true := by
  cases w with
  | command v =>
    simp only [decode, decodeCommand] at h
    split at h <;> (cases h; rfl)
  | transaction w =>
    simp only [decode, decodeTransaction] at h
    split at h
    · cases h; rfl
    · split at h
      · split at h
        · cases h; rfl
        · cases h
      · cases h

/-- Every instruction the host can issue, in `BUSY`. -/
theorem hostIssued_while_busy {s : State} (h : s.Inv) (hb : s.phase = .busy) (i : Instr)
    (hi : i.hostIssued = true) :
   exec i s = .refused .accessWhileBusy ∨ ∃ t, exec i s = .next t ∧ InvAfter s t := by
  cases i <;> simp only [Instr.hostIssued] at hi <;> simp only [exec] <;> try (simp at hi)
  · left; simp [execDigest, issue, hb]
  · left; simp [execReserved, issue, hb]
  · left; simp [execWr, hb]
  · next reg =>
    unfold execRd; simp only [hb]
    split
    · right; exact ⟨_, rfl, readStatus_invAfter h⟩
    · left; rfl

theorem seqInv_of_store {s : State} (m : Memory) (d : Bool) (hd : s.quiet → d = false)
    (h : s.seqInv) : State.seqInv { s with mem := m, disturbed := d } := by
  unfold State.seqInv at h ⊢
  cases hs : s.seq <;> simp only [hs] at h ⊢ <;> first | exact h | (refine ⟨?_, h.2⟩; have h1 := h.1; have := hd h1; rw [quiet_iff] at h1 ⊢; simp only; simp only [h1, this]; simp)

/-- Every action from outside, in any phase. -/
theorem runAction_cases {s : State} (h : s.Inv) (a : HostAction) :
    (∃ t, runAction a s = .next t ∧ InvAfter s t) ∨
        (∃ x, runAction a s = .refused x ∧ (s.phase ≠ .busy → s.devices = [] → a.legal s → False))
        := by
  have word : ∀ w, (∀ i, decode w = .ok i → (∃ t, runWord w s = .next t ∧ InvAfter s t) ∨ (∃ x, runWord w s = .refused x ∧ (s.phase ≠ .busy → s.devices = [] → False))) := by
    intro w i hi
    have hh := decode_hostIssued hi
    unfold runWord; simp only [hi]
    by_cases hb : s.phase = .busy
    · rcases hostIssued_while_busy h hb i hh with h | ⟨t, h, hg⟩
      · exact .inr ⟨_, h, fun h => absurd hb h⟩
      · exact .inl ⟨_, h, hg⟩
    · have := hostIssued_endsIn h hb i hh
      revert this
      cases exec i s with
      | next t => exact fun h => .inl ⟨_, rfl, h⟩
      | fault => exact fun h => h.elim
      | refused x => exact fun h => .inr ⟨_, rfl, fun _ hd => h.2 hd⟩
  cases a with
  | transaction w =>
    simp only [runAction]
    cases hd : decode (.transaction w) with
    | ok i =>
      rcases word _ i hd with h | ⟨x, h, hx⟩
      · exact .inl h
      · exact .inr ⟨x, h, fun a b _ => hx a b⟩
    | error e =>
      unfold runWord
      rw [hd]
      cases e with
      | notATransaction k =>
        exact .inr ⟨_, rfl, fun _ _ ⟨i, hi, _⟩ => by simp [decode, hi] at hd⟩
      | readDataNotZero reg d =>
        by_cases hb : s.phase = .busy
        · exact .inr ⟨.accessWhileBusy, by simp [readWithData, hb], fun h => absurd hb h⟩
        · refine .inl ⟨logRead reg none s, ?_, logRead_invAfter h hb reg none⟩
          unfold readWithData
          cases hq : s.phase <;> first | rfl | exact absurd hq hb
  | command v =>
    simp only [runAction]
    rcases word (.command v) _ rfl with h | ⟨x, h, hx⟩
    · exact .inl h
    · exact .inr ⟨x, h, fun a b _ => hx a b⟩
  | store a b =>
    simp only [runAction, storeByte]
    split
    · next hd => exact .inr ⟨_, rfl, fun _ _ hl => by simp [HostAction.legal, hd] at hl⟩
    · refine .inl ⟨_, rfl, ⟨?_, rfl, rfl, rfl, rfl⟩⟩
      obtain ⟨h1, h2, h3, h4⟩ := h
      refine ⟨MemoryLaws.write_wf _ _ h1, h2, h3, seqInv_of_store _ _ ?_ h4⟩
      intro hq
      rw [quiet_iff] at hq
      simp [hq, State.inRunningMessage]
  | reset =>
    refine .inl ⟨_, rfl, ⟨⟨h.1, ?_, ?_, rfl, rfl, rfl⟩, rfl, rfl, rfl, rfl⟩⟩
    · simp [engineReset]
    · simp [engineReset, State.phase, Seq.phase]

/-- The invariant does not look at what is pending outside. -/
theorem Inv_of_schedule {s : State} (p e) (h : s.Inv) : State.Inv
    { s with program := p, events := e } := by
  obtain ⟨h1, h2, h3, h4⟩ := h
  refine ⟨h1, h2, h3, ?_⟩
  unfold State.seqInv at h4 ⊢
  cases hs : s.seq <;> simp only [hs] at h4 ⊢ <;> first | exact h4 | (refine ⟨?_, h4.2⟩; have h1 := h4.1; rw [quiet_iff] at h1 ⊢; exact h1)

/-- The engine's and its host's step. -/
theorem ownStep_cases {s : State} (h : s.Inv) :
   (∃ t, ownStep s = .next t ∧ t.Inv ∧ t.cfg = s.cfg ∧ t.devices = s.devices ∧ t.events = s.events ∧ (t.program = s.program ∨ ∃ a, s.program = a :: t.program))
       ∨ (∃ x, ownStep s = .refused x ∧ ((∀ a ∈ s.program, a.legal s) → s.devices = [] → False)) :=
       by
  unfold ownStep
  by_cases hb : s.phase = .busy
  · simp only [hb]
    have := busyStep_endsIn h.2.2.2 hb
    revert this
    cases busyStep s with
    | next t => intro hp; have := StepPost.invAfter h hb hp; exact .inl ⟨t, rfl, this.1, this.2.1, this.2.2.1, this.2.2.2.2, .inl this.2.2.2.1⟩
    | fault => exact fun h => h.elim
    | refused x => exact fun h => .inr ⟨_, rfl, fun _ hd => h.2 hd⟩
  · have key : (∃ t, (match s.program with
    | [] => Host.Outcome.next s
    | a :: rest => runAction a { s with program := rest }) = .next t ∧ t.Inv ∧ t.cfg = s.cfg ∧ t.devices = s.devices ∧ t.events = s.events ∧ (t.program = s.program ∨ ∃ a, s.program = a :: t.program)) ∨ (∃ x, (match s.program with
    | [] => Host.Outcome.next s
    | a :: rest => runAction a { s with program := rest }) = .refused x ∧ ((∀ a ∈ s.program, a.legal s) → s.devices = [] → False)) := by
      cases hp : s.program with
      | nil => exact .inl ⟨s, rfl, h, rfl, rfl, rfl, .inl hp⟩
      | cons a rest =>
        simp only []
        rcases runAction_cases (Inv_of_schedule rest s.events h) a with ⟨t, ht, g1, g2, g3, g4, g5⟩ | ⟨x, hx, hl⟩
        · refine .inl ⟨t, ht, g1, g2, g3, g5, .inr ⟨a, ?_⟩⟩
          rw [g4]
        · refine .inr ⟨x, hx, fun hlegal hd => hl hb hd ?_⟩
          have := hlegal a (by simp)
          cases a <;> exact this
    cases hp : s.phase <;> simp only []
    · exact key
    · exact absurd hp hb
    · exact key
    · exact key

end Sys2Proof.Machine
end

