-- ==== Sys2Proof/Laws/PerInstr.lean ====
section
/-! SUPPORT. The family NotIssuable: no word the host can present is an internal operation (30_encoding.md R49). -/

namespace Sys2Proof.Laws

/-- Whatever a word decodes to is a command or a host transaction. -/
theorem decode_cases {w : HostWord} {i : Instr} (h : decode w = .ok i) :
    i = .digest ∨ (∃ op, i = .reserved op) ∨ (∃ reg data, i = .wr reg data) ∨
      ∃ reg, i = .rd reg := by
  cases w with
  | command v =>
    simp only [decode, decodeCommand, Except.ok.injEq] at h
    subst h
    split <;> simp
  | transaction w =>
    simp only [decode, decodeTransaction] at h
    repeat' split at h
    all_goals cases h
    all_goals simp

namespace NotIssuable

/-- An operation that the host cannot issue has no word, and no word decodes to it (R49). -/
def Statement (i : Instr) : Prop :=
  i.hostIssued = false → encode i = none ∧ ∀ w, decode w ≠ .ok i

theorem of_decode_cases {i : Instr} (he : i.hostIssued = false → encode i = none) :
    Statement i := fun hi =>
  ⟨he hi, fun _ hw => by
    rcases decode_cases hw with rfl | ⟨_, rfl⟩ | ⟨_, _, rfl⟩ | ⟨_, rfl⟩ <;> cases hi⟩

theorem digest : Statement .digest := fun hi => by cases hi
theorem reserved (op : Quad) : Statement (.reserved op) := fun hi => by cases hi
theorem wr (reg : HostReg) (data : Quad) : Statement (.wr reg data) := fun hi => by cases hi
theorem rd (reg : HostReg) : Statement (.rd reg) := fun hi => by cases hi
theorem check : Statement .check := of_decode_cases fun _ => rfl
theorem init : Statement .init := of_decode_cases fun _ => rfl
theorem absorb : Statement .absorb := of_decode_cases fun _ => rfl
theorem tail : Statement .tail := of_decode_cases fun _ => rfl
theorem padlen : Statement .padlen := of_decode_cases fun _ => rfl
theorem padcomp : Statement .padcomp := of_decode_cases fun _ => rfl
theorem serialize : Statement .serialize := of_decode_cases fun _ => rfl
theorem sched : Statement .sched := of_decode_cases fun _ => rfl
theorem ldw : Statement .ldw := of_decode_cases fun _ => rfl
theorem expand : Statement .expand := of_decode_cases fun _ => rfl
theorem compress : Statement .compress := of_decode_cases fun _ => rfl
theorem cinit : Statement .cinit := of_decode_cases fun _ => rfl
theorem round (t : Fin 64) : Statement (.round t) := of_decode_cases fun _ => rfl
theorem feedback : Statement .feedback := of_decode_cases fun _ => rfl
theorem add32 (x y : Word) : Statement (.add32 x y) := of_decode_cases fun _ => rfl
theorem rotr (x : Word) (n : Nat) : Statement (.rotr x n) := of_decode_cases fun _ => rfl
theorem shr (x : Word) (n : Nat) : Statement (.shr x n) := of_decode_cases fun _ => rfl
theorem ch (x y z : Word) : Statement (.ch x y z) := of_decode_cases fun _ => rfl
theorem maj (x y z : Word) : Statement (.maj x y z) := of_decode_cases fun _ => rfl
theorem bsig0 (x : Word) : Statement (.bsig0 x) := of_decode_cases fun _ => rfl
theorem bsig1 (x : Word) : Statement (.bsig1 x) := of_decode_cases fun _ => rfl
theorem ssig0 (x : Word) : Statement (.ssig0 x) := of_decode_cases fun _ => rfl
theorem ssig1 (x : Word) : Statement (.ssig1 x) := of_decode_cases fun _ => rfl

end NotIssuable

end Sys2Proof.Laws
end

