-- ==== Sys2Proof/Tests/Slice0.lean ====
section
/-! SUPPORT. Tests with results from 95_test_vectors.md, and for each statement with hypotheses a state that meets them. -/

namespace Sys2Proof.Tests

set_option Elab.async false

open Sys2Proof.Machine

/-! ### States the tests start from -/

/-- The message "abc" at 0x1000 (P1). -/
def abcState : State :=
  { State.reset with
    mem := [(0x1000, 0x61), (0x1001, 0x62), (0x1002, 0x63)], msgBase := 0x1000, msgLen := 3 }

/-- The padded block of "abc" (V4). -/
def abcBlock : Block :=
  Vector.ofFn fun k =>
    if k.val = 0 then 0x61 else if k.val = 1 then 0x62 else if k.val = 2 then 0x63
    else if k.val = 3 then 0x80 else if k.val = 63 then 0x18 else 0

/-- A compression of "abc" about to begin. -/
def abcBlockState : State :=
  { State.reset with hash := some iv, block := some abcBlock, blocks := some 0 }

/-- `DONE` with the digest bytes 00 01 … 1f. -/
def doneState : State :=
  { State.reset with
    seq := .sDone, digest := some (Vector.ofFn fun k => BitVec.ofNat 8 k.val), blocks := some 1 }

/-- `FAULT` with `ERR = ZERO_LEN` and valid operands. -/
def zeroLenState : State := { abcState with seq := .sFault, err := .zeroLen, blocks := none }

/-- The next state has the property. -/
def after (r : Result) (p : State → Bool) : Bool :=
  match r with
  | .next s => p s
  | .fault _ => false
  | .refused _ => false

/-- The word a unit puts out. -/
def puts (i : Instr) (w : Word) : Bool := after (exec i State.reset) fun s => s.unitOut = some w

/-- A command ends with this `STATUS` byte. -/
def endsWith (i : Instr) (s : State) (status : Byte) : Bool :=
  after (exec i s) fun t => statusByte t = status

/-! ### Well-formedness refuses -/

theorem test_wf_reserved_one : Instr.wf (.reserved 1) = false := by decide
theorem test_wf_unlisted_status : Instr.wf (.wr (.unlisted 0x01) 0) = false := by decide
theorem test_wf_unlisted_digest : Instr.wf (.rd (.unlisted 0x3f)) = false := by decide
theorem test_wf_unlisted_free_number : Instr.wf (.rd (.unlisted 0x40)) = true := by decide
theorem test_legal_write_of_read_only :
    Instr.legal {} (.wr .status 0) = false ∧ Instr.legal {} (.wr .blocks 0) = false ∧
    Instr.legal {} (.wr (.digest 31) 0) = false := by decide
theorem test_legal_read_of_write_only : Instr.legal {} (.rd .cmd) = false := by decide
theorem test_legal_unlisted :
    Instr.legal {} (.wr (.unlisted 5) 0) = false ∧ Instr.legal {} (.rd (.unlisted 5)) = false := by
  decide
theorem test_legal_base_width :
    Instr.legal { addrWidth := 16 } (.wr .msgBase 0x10000) = false ∧
    Instr.legal { addrWidth := 16 } (.wr .msgBase 0xffff) = true := by decide
theorem test_legal_internal : Instr.legal {} .check = false ∧ Instr.legal {} (.ch 0 0 0) = false := by
  decide

/-! ### Decoding and encoding (R45 to R48, the words of section 9) -/

theorem test_decode_wr :
    decode (.transaction 0x01020000000000001000#80) = .ok (.wr .msgBase 0x1000) ∧
    decode (.transaction 0x01032000000000000000#80) = .ok (.wr .msgLen 0x2000000000000000) ∧
    decode (.transaction 0x01000000000000000002#80) = .ok (.wr .cmd 2) := by decide

theorem test_decode_rd :
    decode (.transaction 0x00010000000000000000#80) = .ok (.rd .status) ∧
    decode (.transaction 0x00020000000000000000#80) = .ok (.rd .msgBase) ∧
    decode (.transaction 0x00030000000000000000#80) = .ok (.rd .msgLen) ∧
    decode (.transaction 0x00040000000000000000#80) = .ok (.rd .blocks) ∧
    decode (.transaction 0x00200000000000000000#80) = .ok (.rd (.digest 0)) ∧
    decode (.transaction 0x003f0000000000000000#80) = .ok (.rd (.digest 31)) := by decide

theorem test_decode_unlisted_neighbours :
    decode (.transaction 0x00050000000000000000#80) = .ok (.rd (.unlisted 0x05)) ∧
    decode (.transaction 0x001f0000000000000000#80) = .ok (.rd (.unlisted 0x1f)) ∧
    decode (.transaction 0x00400000000000000000#80) = .ok (.rd (.unlisted 0x40)) := by decide

theorem test_decode_command :
    decode (.command 0x01) = .ok .digest ∧ decode (.command 0x00) = .ok (.reserved 0) ∧
    decode (.command 0xff) = .ok (.reserved 0xff) ∧
    decode (.command 0x101) = .ok (.reserved 0x101) := by decide

theorem test_decode_rejects :
    decode (.transaction 0x02000000000000000001#80) = .error (.notATransaction 2) ∧
    decode (.transaction 0x00030000000000000001#80) = .error (.readDataNotZero .msgLen 1) := by
  decide

theorem test_encode :
    encode (.wr .msgLen 3) = some (.transaction 0x01030000000000000003#80) ∧
    encode (.rd (.digest 13)) = some (.transaction 0x002d0000000000000000#80) ∧
    encode (.wr .cmd 1) = some (.transaction 0x01000000000000000001#80) := by decide

theorem test_decode_table_word :
    decodeTableWord 8 0x01 = some .digest ∧ decodeTableWord 8 0x02 = some (.reserved 2) ∧
    decodeTableWord 80 0x01030000000000000003 = some (.wr .msgLen 3) ∧
    decodeTableWord 80 0x00010000000000000000 = some (.rd .status) := by decide

/-! ### Function units (V6, V7, V8) -/

theorem test_add32 :
    puts (.add32 0xffffffff 0x00000001) 0 ∧ puts (.add32 0x6a09e667 0x506e3058) 0xba7816bf := by
  decide
theorem test_rotr :
    puts (.rotr 0x12345678 4) 0x81234567 ∧ puts (.rotr 0x12345678 31) 0x2468acf0 ∧
    puts (.rotr 0x12345678 36) 0x81234567 ∧ puts (.rotr 0x12345678 32) 0x12345678 := by decide
theorem test_shr :
    puts (.shr 0x80000000 3) 0x10000000 ∧ puts (.shr 0x00000001 1) 0 ∧
    puts (.shr 0x12345678 35) 0x02468acf := by decide
theorem test_ch : puts (.ch 0xf0f0f0f0 0xaaaaaaaa 0x55555555) 0xa5a5a5a5 := by decide
theorem test_maj : puts (.maj 0x510e527f 0x9b05688c 0x1f83d9ab) 0x1b0758af := by decide
theorem test_bsig0 : puts (.bsig0 0x12345678) 0x66146474 := by decide
theorem test_bsig1 : puts (.bsig1 0x12345678) 0x3561abda := by decide
theorem test_ssig0 :
    puts (.ssig0 0x12345678) 0xe7fce6ee ∧ puts (.ssig0 0xffffffff) 0x1fffffff := by decide
theorem test_ssig1 :
    puts (.ssig1 0x12345678) 0xa1f78649 ∧ puts (.ssig1 0xffffffff) 0x003fffff := by decide

/-! ### Tables (V5a) -/

theorem test_round_constants :
    ((List.finRange 64).map roundConstant).foldl (· + ·) 0 = 0x941d1755 ∧
    ((List.finRange 64).map roundConstant).foldl (· ^^^ ·) 0 = 0x95c49cf5 := by
  decide +kernel
theorem test_iv :
    iv.toList.foldl (· + ·) 0 = 0x6ea8df67 ∧ iv.toList.foldl (· ^^^ ·) 0 = 0xc62760eb := by
  decide +kernel

/-! ### Schedule (V4, V9) -/

theorem test_ldw :
    after (exec .ldw abcBlockState) fun s =>
      s.sched[0] = some 0x61626380 ∧ s.sched[14] = some 0 ∧ s.sched[15] = some 0x18 ∧
      s.sched[16] = none := by decide +kernel

theorem test_expand :
    after (exec .expand { State.reset with
      sched := Vector.ofFn fun t => if t.val < 16 then some 0xffffffff else none }) fun s =>
      s.sched[16] = some 0x203ffffc ∧ s.sched[18] = some 0x20099be4 ∧
      s.sched[63] = some 0x4bceaf09 := by decide +kernel

theorem test_sched :
    after (exec .sched abcBlockState) fun s =>
      s.sched[16] = some 0x61626380 ∧ s.sched[17] = some 0x000f0000 ∧
      s.sched[63] = some 0x12b1edeb := by decide +kernel

/-! ### Compression (V5, V10) -/

theorem test_cinit :
    after (exec .cinit abcBlockState) fun s =>
      s.work = some ⟨0x6a09e667, 0xbb67ae85, 0x3c6ef372, 0xa54ff53a,
        0x510e527f, 0x9b05688c, 0x1f83d9ab, 0x5be0cd19⟩ := by decide +kernel

theorem test_round :
    after (exec (.round 1) { State.reset with
      work := some ⟨0x5d6aebcd, 0x6a09e667, 0xbb67ae85, 0x3c6ef372,
        0xfa2a4622, 0x510e527f, 0x9b05688c, 0x1f83d9ab⟩
      sched := Vector.replicate 64 (some 0) }) fun s =>
      s.work = some ⟨0x5a6ad9ad, 0x5d6aebcd, 0x6a09e667, 0xbb67ae85,
        0x78ce7989, 0xfa2a4622, 0x510e527f, 0x9b05688c⟩ := by decide +kernel

theorem test_feedback :
    after (exec .feedback { abcBlockState with
      work := some ⟨0x506e3058, 0xd39a2165, 0x04d24d6c, 0xb85e2ce9,
        0x5ef50f24, 0xfb121210, 0x948d25b6, 0x961f4894⟩ }) fun s =>
      s.hash = some #v[0xba7816bf, 0x8f01cfea, 0x414140de, 0x5dae2223,
        0xb00361a3, 0x96177a9c, 0xb410ff61, 0xf20015ad] := by decide +kernel

/-- The all-zero block (V10). -/
theorem test_compress :
    after (exec .compress { abcBlockState with sched := Vector.replicate 64 (some 0) }) fun s =>
      s.hash = some #v[0xda5698be, 0x17b9b469, 0x62335799, 0x779fbeca,
        0x8ce5d491, 0xc0d26243, 0xbafef9ea, 0x1837a9d8] ∧ s.blocks = some 1 := by decide +kernel

/-! ### The sequencer's steps (V11, V12, V13) -/

theorem test_check :
    after (exec .check { State.reset with seq := .sCheck, base := some 1, len := some 200 }) fun s =>
      s.nfull = some 3 ∧ s.rest = some 8 ∧ s.seq = .sInit := by decide +kernel

theorem test_init :
    after (exec .init { State.reset with seq := .sInit }) fun s =>
      (s.hash.map fun h => h[0]) = some 0x6a09e667 ∧ s.i = some 0 ∧ s.seq = .sAbsorb := by
  decide +kernel

/-- A state at `S_ABSORB` with one full block of 0x00 in memory (V11, `00×64`). -/
def absorbState : State :=
  { State.reset with
    seq := .sAbsorb, base := some 0x2000, len := some 64, i := some 0, nfull := some 1
    rest := some 0, hash := some iv, mem := (List.range 64).map fun k => (0x2000 + k, 0) }

theorem test_absorb :
    after (exec .absorb absorbState) fun s =>
      (s.hash.map fun h => h[0]) = some 0xda5698be ∧ s.blocks = some 1 ∧ s.i = some 1 ∧
      s.seq = .sTail := by decide +kernel

/-- A state at `S_TAIL` with the message "abc". -/
def tailState : State :=
  { abcState with
    seq := .sTail, base := some 0x1000, len := some 3, nfull := some 0, rest := some 3, i := some 0
    hash := some iv }

theorem test_tail :
    after (exec .tail tailState) fun s =>
      (s.scratch.map fun b => b.toList.take 5) = some [0x61, 0x62, 0x63, 0x80, 0x00] ∧
      s.seq = .sPadlen := by decide +kernel

theorem test_padlen_one_block :
    after (exec .padlen { State.reset with
      len := some 55, rest := some 55, scratch := some (Vector.replicate 128 0x61) }) fun s =>
      s.npad = some 1 ∧ (s.scratch.map fun b => (b.toList.drop 55).take 10) =
        some [0x61, 0, 0, 0, 0, 0, 0, 0x01, 0xb8, 0x61] := by decide +kernel

theorem test_padlen_two_blocks :
    after (exec .padlen { State.reset with
      len := some 0x20000038, rest := some 56, scratch := some (Vector.replicate 128 0x61) }) fun s =>
      s.npad = some 2 ∧ (s.scratch.map fun b => b.toList.drop 119) =
        some [0x61, 0, 0, 0, 0x01, 0, 0, 0x01, 0xc0] := by decide +kernel

/-- The second block of a scratch buffer of zeros: the all-zero block of V10. -/
theorem test_padcomp :
    after (exec .padcomp { State.reset with
      seq := .sPadcomp, hash := some iv, scratch := some (Vector.replicate 128 0), j := some 1
      npad := some 2 }) fun s =>
      (s.hash.map fun h => h[7]) = some 0x1837a9d8 ∧ s.j = some 2 ∧ s.seq = .sSerialize ∧
      s.scratch = none := by
  decide +kernel

theorem test_serialize :
    after (exec .serialize { State.reset with
      hash := some #v[0x00010203, 0x04050607, 0x08090a0b, 0x0c0d0e0f,
        0x10111213, 0x14151617, 0x18191a1b, 0x1c1d1e1f] }) fun s =>
      s.digest = some (Vector.ofFn fun k => BitVec.ofNat 8 k.val) ∧ s.hash = none ∧
      s.seq = .sDone := by decide +kernel

/-! ### The command and its faults (V1, section 7) -/

theorem test_digest_abc :
    after (exec .digest abcState) fun s =>
      statusByte s = 0x02 ∧ s.blocks = some 1 ∧ s.digest = some #v[
        0xba, 0x78, 0x16, 0xbf, 0x8f, 0x01, 0xcf, 0xea, 0x41, 0x41, 0x40, 0xde, 0x5d, 0xae, 0x22, 0x23,
        0xb0, 0x03, 0x61, 0xa3, 0x96, 0x17, 0x7a, 0x9c, 0xb4, 0x10, 0xff, 0x61, 0xf2, 0x00, 0x15, 0xad]
    := by decide +kernel

/-- The digest of the command before is gone once the next command runs (R17). -/
theorem test_digest_drops_earlier_digest :
    after (exec .digest { doneState with cfg := { granularity := .sequencer } }) fun s =>
      s.seq = .sCheck ∧ s.digest = none := by decide +kernel

theorem test_digest_faults :
    endsWith .digest State.reset 0x07 ∧ endsWith .digest { abcState with msgLen := 0 } 0x0b ∧
    endsWith .digest { abcState with msgLen := 0x2000000000000000 } 0x0f ∧
    endsWith .digest { abcState with msgLen := 4 } 0x13 := by decide +kernel

theorem test_reserved_in_idle_and_done :
    endsWith (.wr .cmd 0x00) State.reset 0x17 ∧ endsWith (.reserved 0x02) doneState 0x17 := by
  decide +kernel

theorem test_reserved_in_fault :
    endsWith (.wr .cmd 0x00) zeroLenState 0x0b ∧ endsWith (.reserved 0xff) zeroLenState 0x0b := by
  decide +kernel

/-! ### Host accesses (sections 7 and 9) -/

theorem test_wr_operands :
    after (exec (.wr .msgLen 3) zeroLenState) (fun s => s.msgLen = 3) ∧
    after (exec (.wr .msgBase 0x10000) { State.reset with cfg := { addrWidth := 16 } })
      (fun s => s.msgBase = 0) := by decide +kernel

theorem test_rd :
    after (exec (.rd .status) zeroLenState) (fun s => s.readLog = [⟨.status, some 0x0b⟩]) ∧
    after (exec (.rd (.digest 31)) doneState) (fun s => s.readLog = [⟨.digest 31, some 0x1f⟩]) := by
  decide +kernel

theorem test_reset_step :
    after (step { zeroLenState with program := [.reset] }) fun s =>
      statusByte s = 0x00 ∧ s.msgBase = 0 ∧ s.blocks = some 0 := by decide +kernel

/-- The word placed for the next step is the one that runs. -/
theorem test_with_fetch_word :
    after (step (State.withFetchWord State.reset 80 0x01020000000000001000))
      (fun s => s.msgBase = 0x1000) ∧
    after (step (State.withFetchWord State.reset 8 0x02)) (fun s => statusByte s = 0x17) := by
  decide +kernel

/-! ### Formatting (V14) and the host script (R54) -/

theorem test_digest_to_hex :
    digestToHex (Vector.ofFn fun k => BitVec.ofNat 8 k.val) =
      "000102030405060708090a0b0c0d0e0f101112131415161718191a1b1c1d1e1f".toList := by
  decide +kernel

theorem test_script_digest :
    scriptDigest 0x1000 3 = [.transaction 0x01020000000000001000#80,
      .transaction 0x01030000000000000003#80, .transaction 0x01000000000000000001#80] := by decide

theorem test_launch :
    (State.reset.launch 0x1000 [0x61, 0x62, 0x63]).mem = abcState.mem := by decide

/-! ### For each statement with hypotheses, states and operands that meet them

One theorem per statement, one part per clause, at the ends of the ranges. -/

theorem witness_DecodeReadsEncode :
    Instr.wf (.rd (.digest 31)) = true ∧
    encode (.rd (.digest 31)) = some (.transaction 0x003f0000000000000000#80) := by decide +kernel

theorem witness_EncodeReadsDecode :
    decode (.command 0xffffffffffffffff) = .ok (.reserved 0xffffffffffffffff) ∧
    decode (.transaction 0x01ffffffffffffffffff#80) =
      .ok (.wr (.unlisted 0xff) 0xffffffffffffffff) := by decide +kernel

/-- `IDLE` with one line in the host's program. -/
def lineState (a : HostAction) : State := { State.reset with program := [a] }

theorem witness_MalformedWordHasNoEffect :
    (lineState (.transaction 0x00030000000000000001#80)).phase ≠ .busy ∧
    (lineState (.transaction 0x00030000000000000001#80)).events = [] ∧
    htKind 0x00030000000000000001#80 = 0 ∧ htData 0x00030000000000000001#80 ≠ 0 ∧
    htKind 0x02000000000000000000#80 ≠ 0 ∧ htKind 0x02000000000000000000#80 ≠ 1 ∧
    htKind 0xff000000000000000000#80 ≠ 0 ∧ htKind 0xff000000000000000000#80 ≠ 1 := by decide +kernel

theorem witness_LdwLoadsBigEndianWords : abcBlockState.block = some abcBlock := rfl

theorem witness_ExpandFollowsRecurrence :
    ∀ k, (h : k < 16) → { State.reset with sched := Vector.replicate 64 (some 5) }.sched[k] =
      some (Vector.replicate 16 5 : Vector Word 16)[k] := by
  intro k h; simp

theorem witness_SchedIsFunctionOfBlock : abcBlockState.block = some abcBlock := rfl

theorem witness_CinitCopiesByPosition : abcBlockState.hash = some iv := rfl

/-- A state inside the rounds of a block. -/
def roundState (q : Seq) (t : Fin 64) : State :=
  { State.reset with
    cfg := { granularity := .round }, seq := q, sub := .round, t := some t, i := some 0
    nfull := some 1, hash := some iv, work := some ⟨1, 2, 3, 4, 5, 6, 7, 8⟩
    sched := Vector.replicate 64 (some 5) }

theorem witness_RoundMixesOldValues :
    (roundState .sAbsorb 63).work = some ⟨1, 2, 3, 4, 5, 6, 7, 8⟩ ∧
    (roundState .sAbsorb 63).sched[(0 : Fin 64)] = some 5 ∧
    (roundState .sAbsorb 63).sched[(63 : Fin 64)] = some 5 := by decide +kernel

theorem witness_FeedbackAddsBack :
    (roundState .sAbsorb 63).hash = some iv ∧
    (roundState .sAbsorb 63).work = some ⟨1, 2, 3, 4, 5, 6, 7, 8⟩ := by decide +kernel

theorem witness_CompressIsItsSteps :
    absorbState.hash = some iv ∧ { abcBlockState with
      sched := Vector.replicate 64 (some 5) }.blocks = some 0 ∧
    ∀ t, (ht : t < 64) → { abcBlockState with sched := Vector.replicate 64 (some 5) }.sched[t] =
      some (Vector.replicate 64 5 : Schedule)[t] := by
  refine ⟨rfl, rfl, fun t ht => by simp⟩

theorem witness_RoundIsOneToOne :
    ∃ u, exec (.round 63) (roundState .sAbsorb 63) = .next u := ⟨_, rfl⟩

/-- A state at `S_CHECK`. -/
def checkState (base len : Quad) (p : EmptyPolicy) : State :=
  { State.reset with
    seq := .sCheck, base := some base, len := some len, cfg := { emptyPolicy := p } }

theorem witness_CheckComputesCounts :
    (checkState 1 0x1fffffffffffffff .reject).seq = .sCheck ∧
    (1 : Quad) ≠ 0 ∧ (0x1fffffffffffffff : Quad) ≠ 0 ∧
    (0x1fffffffffffffff : Quad).toNat ≤ 2 ^ 61 - 1 ∧
    (checkState 1 0 .accept).cfg.emptyPolicy = .accept ∧ (0 : Quad).toNat ≤ 2 ^ 61 - 1 := by decide +kernel

theorem witness_CheckRaisesFirstCause :
    (checkState 0 0 .reject).base = some 0 ∧
    (checkState 1 0 .reject).cfg.emptyPolicy = .reject ∧
    2 ^ 61 - 1 < (0x2000000000000000 : Quad).toNat ∧
    2 ^ 61 - 1 < (0xffffffffffffffff : Quad).toNat := by decide +kernel

theorem witness_AbsorbProcessesOneBlock :
    absorbState.seq = .sAbsorb ∧ absorbState.base = some 0x2000 ∧ absorbState.i = some 0 ∧
    absorbState.nfull = some 1 ∧ absorbState.hash = some iv ∧ absorbState.blocks = some 0 ∧
    readBytes absorbState (0x2000 + 64 * 0) 64 = .bytes (List.replicate 64 0) ∧
    { absorbState with nfull := some 0 }.nfull = some 0 := by
  refine ⟨rfl, rfl, rfl, rfl, rfl, rfl, by decide +kernel, rfl⟩

theorem witness_UnreadableByteRaisesBusError :
    (readByte { absorbState with mem := absorbState.mem.take 63 } 0x203e = .byte 0 ∧
      readByte { absorbState with mem := absorbState.mem.take 63 } 0x203f = .busError) ∧
    readByte { tailState with mem := [] } 0x1000 = .busError := by decide +kernel

theorem witness_TailStartsScratchBuffer :
    tailState.seq = .sTail ∧ readBytes tailState (0x1000 + 64 * 0) 3 = .bytes [0x61, 0x62, 0x63] ∧
    readBytes tailState (0x1000 + 64 * 0) 0 = .bytes [] := by decide +kernel

theorem witness_PadlenWritesLengthField :
    ∀ rest ∈ [0, 55, 56, 63], { State.reset with
      len := some 0x1fffffffffffffff, rest := some rest
      scratch := some (Vector.replicate 128 0) }.rest = some rest ∧
    (0x1fffffffffffffff : Quad).toNat ≤ 2 ^ 61 - 1 := by decide +kernel

/-- A state at `S_PADCOMP`. -/
def padState (j npad : Nat) : State :=
  { State.reset with
    seq := .sPadcomp, hash := some iv, scratch := some (Vector.replicate 128 0), j := some j
    npad := some npad }

theorem witness_PadcompCompressesPadBlock :
    (padState 0 1).j = some 0 ∧ (padState 1 2).j = some 1 ∧ (padState 1 2).npad = some 2 ∧
    (padState 1 2).scratch = some (Vector.replicate 128 0) ∧ (padState 1 2).hash = some iv ∧
    (padState 1 2).blocks = some 0 := by decide +kernel

theorem witness_SerializeWritesDigest :
    abcBlockState.hash = some iv ∧ abcBlockState.disturbed = false := by decide +kernel

theorem witness_DisturbedMessageFreesDigest :
    (∀ a ∈ [0x1000, 0x1002],
      { tailState with events := [some (.store a 0)] }.phase = .busy ∧
      tailState.base = some 0x1000 ∧ tailState.len = some 3 ∧
      tailState.inDevice a = false ∧ (0x1000 : Quad).toNat ≤ a ∧
      a < (0x1000 : Quad).toNat + (3 : Quad).toNat) ∧
    (tailState.inDevice 0x0fff = false ∧ 0x0fff < (0x1000 : Quad).toNat) ∧
    (tailState.inDevice 0x1003 = false ∧ (0x1000 : Quad).toNat + (3 : Quad).toNat ≤ 0x1003) ∧
    (doneState.phase ≠ .busy ∧ doneState.inDevice 0x1000 = false ∧ doneState.events = [] ∧
      (lineState (.store 0x1000 0)).phase ≠ .busy) ∧
    (∀ a ∈ [0x1002, 0x1003],
      State.inDevice { tailState with devices := [⟨0x1002, 2⟩] } a = true ∧
      State.inDevice { lineState (.store a 0) with devices := [⟨0x1002, 2⟩] } a = true) ∧
    { abcBlockState with disturbed := true }.hash = some iv := by decide +kernel

theorem witness_ReadWithoutValueFaults :
    (State.reset.block = none ∧ State.reset.sched[(0 : Fin 64)] = none ∧
      State.reset.sched[(15 : Fin 64)] = none ∧ State.reset.hash = none ∧ State.reset.work = none ∧
      State.reset.base = none ∧ State.reset.len = none ∧ State.reset.i = none ∧
      State.reset.nfull = none ∧ State.reset.rest = none ∧ State.reset.scratch = none ∧
      State.reset.j = none) ∧
    (roundState .sAbsorb 63).blocks = some 0 ∧
    { roundState .sAbsorb 63 with blocks := none }.hash = some iv ∧
    { absorbState with base := none }.i = some 0 ∧ absorbState.nfull = some 1 ∧
    readBytes { absorbState with hash := none } (0x2000 + 64 * 0) 64 =
      .bytes (List.replicate 64 0) ∧
    readBytes { absorbState with blocks := none } (0x2000 + 64 * 0) 64 =
      .bytes (List.replicate 64 0) ∧
    { padState 0 1 with hash := none }.j = some 0 ∧ { padState 1 2 with npad := none }.j = some 1 ∧
    { padState 1 2 with blocks := none }.j = some 1 := by decide +kernel

theorem witness_DigestIsFunctionOfMessage :
    abcState.accepting ∧ abcState.cfg.granularity = .command ∧ abcState.goodArguments ∧
    abcState.message [0x61, 0x62, 0x63] ∧
    State.accepting { abcState with msgLen := 0, cfg := { emptyPolicy := .accept } } ∧
    { abcState with msgLen := 0, cfg := { emptyPolicy := .accept } }.cfg.granularity = .command ∧
    State.goodArguments { abcState with msgLen := 0, cfg := { emptyPolicy := .accept } } ∧
    State.message { abcState with msgLen := 0, cfg := { emptyPolicy := .accept } } [] := by
  refine ⟨.inl rfl, rfl, ⟨by decide +kernel, .inl (by decide +kernel), by decide +kernel⟩, ?_,
    .inl rfl, rfl, ⟨by decide +kernel, .inr rfl, by decide +kernel⟩, rfl⟩
  show readBytes _ _ _ = _
  decide +kernel

theorem witness_DigestRejectsBadArguments :
    State.reset.accepting ∧ State.reset.msgBase = 0 ∧ doneState.accepting ∧
    { abcState with msgLen := 0 }.cfg.emptyPolicy = .reject ∧
    2 ^ 61 - 1 < { abcState with msgLen := 0x2000000000000000 }.msgLen.toNat :=
  ⟨.inl rfl, rfl, .inr rfl, rfl, by decide +kernel⟩

theorem witness_DigestRaisesBusError :
    State.goodArguments { abcState with msgLen := 4 } ∧
    readBytes { abcState with msgLen := 4 } 0x1000 4 = .busError ∧
    readBytes { abcState with devices := [⟨0x1002, 1⟩] } 0x1000 3 = .device 0x1002 := by
  refine ⟨⟨by decide +kernel, .inl (by decide +kernel), by decide +kernel⟩, by decide +kernel, by decide +kernel⟩

theorem witness_DigestIsAccepted :
    State.accepting { abcState with cfg := { granularity := .sequencer } } ∧
    { abcState with cfg := { granularity := .sequencer } }.cfg.granularity ≠ .command ∧
    { doneState with cfg := { granularity := .round } }.cfg.granularity ≠ .command :=
  ⟨.inl rfl, by decide +kernel, by decide +kernel⟩

theorem witness_GranularitiesEndAlike :
    abcState.accepting ∧ abcState.events = [] ∧ doneState.accepting ∧ doneState.events = [] :=
  ⟨.inl rfl, rfl, .inr rfl, rfl⟩

theorem witness_FaultEntryErasesResults :
    (0x00 : Quad) ≠ 1 ∧ (0x02 : Quad) ≠ 1 ∧ (0xffffffffffffffff : Quad) ≠ 1 ∧
    doneState.accepting ∧ State.reset.accepting :=
  ⟨by decide, by decide, by decide, .inr rfl, .inl rfl⟩

theorem witness_FaultAbsorbsUntilReset :
    zeroLenState.phase = .fault ∧ (0x1000 : Quad).toNat < 2 ^ zeroLenState.cfg.addrWidth ∧
    zeroLenState.events.head? ≠ some (some .reset) ∧
    { zeroLenState with program := [.command 1] }.program.head? ≠ some .reset ∧
    { zeroLenState with program := [.reset], events := [none] }.program.head? = some .reset ∧
    after (step { zeroLenState with program := [.command 1] }) fun _ => true := by decide +kernel

theorem witness_DigestIgnoresHistory :
    abcState.message [0x61, 0x62, 0x63] ∧
    State.message { doneState with
      mem := [(0x3001, 0x61), (0x3002, 0x62), (0x3003, 0x63)], msgBase := 0x3001, msgLen := 3 }
      [0x61, 0x62, 0x63] ∧ abcState.err = .none ∧ doneState.err = .none := by
  refine ⟨?_, ?_, rfl, rfl⟩ <;> (show readBytes _ _ _ = _; decide +kernel)

theorem witness_DigestReadsMessageOnly :
    ∀ a, abcState.msgBase.toNat ≤ a → a < abcState.msgBase.toNat + abcState.msgLen.toNat →
      readByte { abcState with
        mem := [(0x0fff, 0xff), (0x1000, 0x61), (0x1001, 0x62), (0x1002, 0x63), (0x1003, 0xff)] } a =
      readByte abcState a := by
  intro a h1 h2
  have h1 : 0x1000 ≤ a := h1
  have h2 : a < 0x1003 := h2
  have : a = 0x1000 ∨ a = 0x1001 ∨ a = 0x1002 := by omega
  rcases this with rfl | rfl | rfl <;> decide +kernel

theorem witness_WriteSetsOperand :
    State.reset.phase ≠ .busy ∧ zeroLenState.phase ≠ .busy ∧ doneState.phase ≠ .busy ∧
    (0xffffffffffffffff : Quad).toNat < 2 ^ State.reset.cfg.addrWidth := by decide +kernel

theorem witness_ForbiddenAccessHasNoEffect :
    State.reset.phase ≠ .busy ∧
    2 ^ { State.reset with cfg := { addrWidth := 16 } }.cfg.addrWidth ≤ (0x10000 : Quad).toNat := by
  decide +kernel

theorem witness_ReadReturnsStatusAndOperands :
    State.reset.phase ≠ .busy ∧ doneState.phase ≠ .busy ∧ zeroLenState.phase ≠ .busy := by decide +kernel

theorem witness_ReadReturnsDigestInDone :
    doneState.phase = .done ∧
    doneState.digest = some (Vector.ofFn fun k => BitVec.ofNat 8 k.val) ∧
    doneState.blocks = some 1 ∧ State.reset.phase = .idle ∧ State.reset.blocks = some 0 := by
  decide +kernel

theorem witness_UndefinedReadIsFree :
    State.reset.phase = .idle ∧ zeroLenState.phase = .fault := by decide +kernel

theorem witness_BusyRefusesAccess : tailState.phase = .busy ∧ tailState.err = .none := by decide +kernel

theorem witness_ResetReachesResetState :
    { tailState with events := [some .reset] }.events = [some .reset] ∧
    (lineState .reset).events = [] ∧ (lineState .reset).phase ≠ .busy := by decide +kernel

/-- The invariant of a state in the middle of a command: the first position after `S_TAIL`. -/
def runningState : State :=
  { tailState with
    seq := .sPadlen, scratch := some (Vector.replicate 128 0), digest := none, blocks := some 0 }

theorem runningState_inv : runningState.Inv :=
  ⟨by decide +kernel, by decide +kernel, by decide +kernel,
    0x1000, 3, ⟨⟨rfl, rfl, by decide +kernel, rfl, rfl, rfl⟩, rfl⟩, rfl, rfl, rfl⟩

theorem witness_StepKeepsInvariant :
    runningState.Inv ∧ after (step runningState) fun t => t.seq = .sPadcomp :=
  ⟨runningState_inv, by decide +kernel⟩

theorem witness_InvariantExcludesFaults : runningState.Inv := runningState_inv

theorem witness_DutifulHostNeverStops :
    State.Inv { runningState with program := scriptDigest 0x1000 3 } ∧
    State.dutiful { runningState with program := scriptDigest 0x1000 3 } := by
  refine ⟨Inv_of_schedule _ [] runningState_inv, ?_, rfl, rfl⟩
  intro a ha
  have : a = lineWr .msgBase 0x1000 ∨ a = lineWr .msgLen 3 ∨ a = lineWr .cmd 1 := by
    simpa [scriptDigest, scriptCmdDigest] using ha
  rcases this with rfl | rfl | rfl
  · exact ⟨.wr .msgBase 0x1000, by decide +kernel, by decide +kernel⟩
  · exact ⟨.wr .msgLen 3, by decide +kernel, by decide +kernel⟩
  · exact ⟨.wr .cmd 1, by decide +kernel, by decide +kernel⟩

theorem witness_NoInstructionWritesMemory :
    ∃ t, exec (.wr .msgLen 5) abcState = .next t := ⟨_, rfl⟩

theorem witness_OnlyWritesChangeOperands :
    ∃ t, exec (.rd .status) abcState = .next t := ⟨_, rfl⟩

theorem witness_StepRunsDecodedWord :
    (lineState (.transaction 0x01030000000000000003#80)).phase ≠ .busy ∧
    decode (.transaction 0x01030000000000000003#80) = .ok (.wr .msgLen 3) ∧
    decode (.command 1) = .ok .digest ∧
    { tailState with events := [some (.command 1)] }.phase = .busy ∧
    State.reset.program = [] ∧ State.reset.events = [] ∧
    { lineState (.command 1) with events := [none, some .reset] }.events = [none, some .reset] ∧
    { tailState with events := [none] }.events = [none] := by decide +kernel

theorem witness_StepRunsSequencerRow :
    tailState.events = [] ∧ tailState.cfg.granularity ≠ .round ∧
    stepAt tailState.seq = some .tail ∧
    (∀ s ∈ [{ tailState with cfg := { granularity := .round } },
        { checkState 1 1 .reject with cfg := { granularity := .round } }],
      s.events = [] ∧ s.cfg.granularity = .round ∧ s.seq ≠ .sAbsorb ∧ s.seq ≠ .sPadcomp) ∧
    stepAt (checkState 1 1 .reject).seq = some .check ∧
    ((roundState .sAbsorb 0).events = [] ∧
      { roundState .sAbsorb 0 with i := some 1 }.nfull = some 1 ∧
      stepAt (roundState .sAbsorb 0).seq = some .absorb) := by decide +kernel

theorem witness_FinestStepRunsOneRound :
    (∀ q ∈ [Seq.sAbsorb, Seq.sPadcomp], ∀ t ∈ ([0, 62, 63] : List (Fin 64)),
      (roundState q t).seq = q ∧ (roundState q t).events = [] ∧ (roundState q t).sub = .round ∧
      (roundState q t).t = some t ∧ (roundState q t).sched[t] = some 5) ∧
    (roundState .sAbsorb 0).i = some 0 ∧ (roundState .sAbsorb 0).nfull = some 1 := by decide +kernel

/-- A state at a position of a block, at the finest granularity. -/
def subState (s : State) (q : SubSeq) : State :=
  { s with cfg := { granularity := .round }, sub := q, block := some abcBlock }

theorem witness_FinestStepRunsBlockPositions :
    ((subState absorbState .start).events = [] ∧ (subState absorbState .start).seq = .sAbsorb ∧
      readBytes (subState absorbState .start) (0x2000 + 64 * 0) 64 = .bytes (List.replicate 64 0) ∧
      readBytes (subState { absorbState with mem := absorbState.mem.take 63 } .start)
        (0x2000 + 64 * 0) 64 = .busError ∧
      readBytes (subState { absorbState with devices := [⟨0x203f, 1⟩] } .start)
        (0x2000 + 64 * 0) 64 = .device 0x203f) ∧
    ((subState (padState 1 2) .start).seq = .sPadcomp ∧ (subState (padState 1 2) .start).j = some 1 ∧
      (subState (padState 0 1) .start).scratch = some (Vector.replicate 128 0)) ∧
    (∀ s ∈ [absorbState, padState 0 1],
      after (exec .ldw (subState s .ldw)) (fun _ => true) ∧
      after (exec .expand (subState { s with sched := Vector.replicate 64 (some 0) } .expand))
        (fun _ => true) ∧
      after (exec .cinit (subState s .cinit)) (fun _ => true) ∧
      after (exec .feedback (subState { s with work := some ⟨0, 0, 0, 0, 0, 0, 0, 0⟩ } .feedback))
        (fun _ => true) ∧ s.blocks = some 0) ∧
    (absorbState.i = some 0 ∧ absorbState.nfull = some 1 ∧ (padState 0 2).npad = some 2 ∧
      (padState 1 2).j = some 1) := by decide +kernel

/-- "abc" where addresses have 13 bits, its last byte in a device region. -/
def narrowState : State :=
  { abcState with
    mem := abcState.mem ++ [(0x1fff, 0xff)], cfg := { addrWidth := 13 }, devices := [⟨0x1002, 2⟩] }

theorem witness_MemoryReadAnswers :
    narrowState.mem.wf narrowState.cfg = true ∧
    (2 ^ narrowState.cfg.addrWidth ≤ 0x2000 ∧ readByte narrowState 0x2000 = .busError) ∧
    (∀ a ∈ [0x1002, 0x1003], narrowState.inDevice a = true ∧ readByte narrowState a = .device) ∧
    (∀ a ∈ [0x0fff, 0x1004], a < 2 ^ narrowState.cfg.addrWidth ∧ narrowState.inDevice a = false ∧
      narrowState.mem.lookup a = none ∧ readByte narrowState a = .busError) ∧
    (narrowState.inDevice 0x1fff = false ∧ narrowState.mem.lookup 0x1fff = some 0xff ∧
      readByte narrowState 0x1fff = .byte 0xff) ∧
    readBytes narrowState 0x1000 2 = .bytes [0x61, 0x62] ∧
    readBytes narrowState 0x1000 5 = .device 0x1002 ∧
    readBytes narrowState 0x1fff 2 = .busError := by decide +kernel

theorem witness_MemoryWriteReadsBack :
    abcState.mem.wf {} = true ∧ abcState.mem.lookup 0x1002 = some 0x63 ∧
    abcState.mem.lookup 0x1003 = none := by decide +kernel

end Sys2Proof.Tests
end

section
/-! What an accepted DIGEST computes: the digest of the message and the block count (R82 to R93). -/

namespace Sys2Proof.Machine

/-! ### The digest as a function, cut where the sequencer cuts it -/

/-- The full blocks are pieces of the message, the pad blocks the rest of the padded message (R93). -/
theorem messageDigest_eq_digestBytes (m : List Byte) :
    messageDigest m = digestBytes (hashPieces (padBlocks (m.length % 64))
      ((paddedMessage m).drop (64 * (m.length / 64)))
      (hashPieces (m.length / 64) (m.take (64 * (m.length / 64))) iv)) := by
  have hfull : hashPieces (m.length / 64) (paddedMessage m) iv =
      hashPieces (m.length / 64) (m.take (64 * (m.length / 64))) iv := by
    have hsplit : paddedMessage m = m.take (64 * (m.length / 64)) ++
        (paddedMessage m).drop (64 * (m.length / 64)) := by
      conv_lhs => rw [← List.take_append_drop (64 * (m.length / 64)) (paddedMessage m)]
      simp only [paddedMessage, List.append_assoc]
      rw [List.take_append_of_le_length (by omega)]
    rw [hsplit, hashPieces_append]
    simp; omega
  rw [messageDigest, blockCount, hashPieces_add, hfull]

/-! ### The steps of an accepted command -/

/-- A state with the same memory answers a read the same (R35). -/
theorem readBytes_of_sameMemory {s t : State} {a n : Nat} {r : MemReads} (h : readBytes s a n = r)
    (hc : t.cfg = s.cfg) (hd : t.devices = s.devices) (hm : t.mem = s.mem) :
    readBytes t a n = r :=
  (readBytes_congr (congrArg _ hc) hd hm a n).trans h

/-- Arguments that pass `CHECK` name no cause (R83). -/
theorem argumentError_of_goodArguments {s : State} (h : s.goodArguments) :
    argumentError s.cfg s.msgBase s.msgLen = none := by
  obtain ⟨hbase, hlen, hmax⟩ := h
  have hzero : ¬ (s.msgLen = 0 ∧ s.cfg.emptyPolicy = .reject) := by
    rintro ⟨h0, hrej⟩
    rcases hlen with hne | hacc
    · exact hne h0
    · simp [hacc] at hrej
  rw [argumentError, nullBase, maxLenBytes, if_neg hbase, if_neg hzero,
    if_neg (Nat.not_lt.mpr hmax)]

/-- `CHECK` with arguments that name no cause (R83). -/
theorem check_of_arguments {s : State} {base len : Quad} (hb : s.base = some base)
    (hl : s.len = some len) (ha : argumentError s.cfg base len = none) :
    check s = .next { s with
      digest := none, blocks := none
      nfull := some (len.toNat / 64), rest := some (len.toNat % 64) } := by
  simp only [check, hb, hl, need_some, ha]

/-- The part of `digestBody` after the full blocks (R86 to R92). -/
def digestEnd (s : State) : Result :=
  unlessFault (tail s) fun s =>
    andThen (padlen s) fun s =>
      andThen (need s.npad .npad fun n => padLoop n { s with j := some 0 }) serialize

theorem digestBody_eq (s : State) :
    digestBody s = unlessFault (check s) fun s =>
      unlessFault (need s.nfull .nfull fun n => absorbLoop n (init s)) digestEnd := rfl

/-- The leftover bytes of `m`, the padding and the digest, from the running state of its full blocks. -/
theorem digestEnd_of_message {s : State} {base len c : Quad} {h : Hash} {m : List Byte}
    (hseq : s.seq ≠ .sFault) (hd : s.disturbed = false) (hb : s.base = some base)
    (hl : s.len = some len) (hnf : s.nfull = some (m.length / 64))
    (hr : s.rest = some (m.length % 64)) (hh : s.hash = some h) (hc : s.blocks = some c)
    (hm : readBytes s base.toNat m.length = .bytes m) (hlen : len.toNat = m.length) :
    digestEnd s = .next { discardInternals s with
      seq := .sDone
      digest := some (digestBytes (hashPieces (padBlocks (m.length % 64))
        ((paddedMessage m).drop (64 * (m.length / 64))) h))
      blocks := some (c + BitVec.ofNat 64 (padBlocks (m.length % 64))) } := by
  have hleft : readBytes s (base.toNat + 64 * (m.length / 64)) (m.length % 64) =
      .bytes (m.drop (64 * (m.length / 64))) := by
    rw [readBytes_part hm (by omega), List.take_of_length_le (by simp; omega)]
  have hnpad : padBlocks (m.length % 64) = 1 ∨ padBlocks (m.length % 64) = 2 := by
    rw [padBlocks_eq]; split <;> simp
  obtain ⟨bl, wk, sc, j, hpad⟩ := padLoop_blocks
    { s with
      bitLength := some (len * 8), npad := some (padBlocks (m.length % 64)), j := some 0
      scratch := some (putLength (len * 8) (lengthAt (padBlocks (m.length % 64)))
        (tailBuffer (m.length % 64) (m.drop (64 * (m.length / 64))))) }
    _ _ h c _ hnpad rfl rfl hh hc fun k hk hk' => padded_getD m len hlen k hk hk'
  refine unlessFault_eq_next.mpr ⟨_, tail_of_bytes hb hnf hr hleft, .inr ⟨hseq, ?_⟩⟩
  refine andThen_eq_next.mpr ⟨_, padlen_of_scratch hl hr rfl, ?_⟩
  refine andThen_eq_next.mpr ⟨_, need_eq_next.mpr ⟨_, rfl, hpad⟩, ?_⟩
  exact serialize_of_hash rfl hd

/-- `INIT` and the full blocks of a readable message, from IV on (R84, R85). -/
theorem initAndAbsorb_of_message {s : State} {base : Quad} {m : List Byte} (hseq : s.seq ≠ .sFault)
    (hb : s.base = some base) (hnf : s.nfull = some (m.length / 64))
    (hm : readBytes s base.toNat m.length = .bytes m) :
    ∃ bl wk sc, (need s.nfull .nfull fun n => absorbLoop n (init s)) = .next { init s with
      hash := some (hashPieces (m.length / 64) (m.take (64 * (m.length / 64))) iv)
      blocks := some (BitVec.ofNat 64 (m.length / 64)), i := some (m.length / 64)
      block := bl, work := wk, sched := sc } := by
  have hfull : readBytes s (base.toNat + 64 * 0) (64 * (m.length / 64)) =
      .bytes (m.take (64 * (m.length / 64))) := readBytes_part hm (o := 0) (by omega)
  rw [need_of_some hnf]
  simpa only [zero_add] using absorbLoop_bytes _ (init s) base 0 _ iv 0 hseq hb rfl rfl rfl
    (readBytes_of_sameMemory hfull rfl rfl rfl)

/-- The body of a command whose sampled operands pass `CHECK` and name the readable bytes `m` (R82 to
R93). -/
theorem digestBody_of_message {s : State} {base len : Quad} {m : List Byte}
    (hseq : s.seq ≠ .sFault) (hd : s.disturbed = false) (hb : s.base = some base)
    (hl : s.len = some len) (ha : argumentError s.cfg base len = none)
    (hm : readBytes s base.toNat len.toNat = .bytes m) :
    digestBody s = .next { discardInternals s with
      seq := .sDone, digest := some (messageDigest m)
      blocks := some (BitVec.ofNat 64 (blockCount m.length)) } := by
  have hlen : len.toNat = m.length := (readBytes_length hm).symm
  have hcheck := check_of_arguments hb hl ha
  rw [hlen] at hm hcheck
  obtain ⟨bl, wk, sc, habsorb⟩ := initAndAbsorb_of_message
    (s := { s with
      digest := none, blocks := none
      nfull := some (m.length / 64), rest := some (m.length % 64) })
    hseq hb rfl (readBytes_of_sameMemory hm rfl rfl rfl)
  rw [digestBody_eq]
  refine unlessFault_eq_next.mpr ⟨_, hcheck, .inr ⟨hseq, ?_⟩⟩
  refine unlessFault_eq_next.mpr ⟨_, habsorb, .inr ⟨hseq, ?_⟩⟩
  refine .trans (digestEnd_of_message hseq hd hb hl rfl rfl rfl rfl
    (readBytes_of_sameMemory hm rfl rfl rfl) hlen) ?_
  rw [messageDigest_eq_digestBytes, blockCount, BitVec.ofNat_add]
  rfl

/-- Settles O30, by the digest cut at the last full block: `CHECK` passes, the loop of full blocks
leaves the running state of the message's full pieces, and the end of the command folds in the rest. -/
theorem digestIsFunctionOfMessage : Obligations.DigestIsFunctionOfMessage := by
  intro s m hacc hgran hgood hm
  have hrun : exec .digest s = digestBody (acceptDigest s) := by
    rcases hacc with h | h <;> simp only [exec, execDigest, issue, h, runDigest, hgran]
  rw [hrun, ← blockCount_eq]
  exact digestBody_of_message (s := acceptDigest s) (by simp) rfl rfl rfl
    (argumentError_of_goodArguments hgood) (readBytes_of_sameMemory hm rfl rfl rfl)

end Sys2Proof.Machine
end

section
/-! What a state keeps: the invariant over a step, the operand registers over an instruction, the items without value, and what host accesses read and write (10_state.md). -/

namespace Sys2Proof.Machine

/-! ### The invariant over a step -/

/-- From a state that meets the invariant a step ends in another such state or in a refusal. -/
theorem step_cases_of_inv {s : State} (h : s.Inv) :
    (∃ t, step s = .next t ∧ t.Inv) ∨ ∃ x, step s = .refused x := by
  have hown : ∀ e, (∃ t, ownStep { s with events := e } = .next t ∧ t.Inv) ∨
      ∃ x, ownStep { s with events := e } = .refused x := fun e => by
    rcases ownStep_cases (Inv_of_schedule s.program e h) with ⟨t, ht, hinv, -⟩ | ⟨x, hx, -⟩
    · exact .inl ⟨t, ht, hinv⟩
    · exact .inr ⟨x, hx⟩
  unfold step stepMachine
  cases he : s.events with
  | nil => simpa only [← he] using hown s.events
  | cons a rest =>
    cases a with
    | none => exact hown rest
    | some a =>
      rcases runAction_cases (Inv_of_schedule s.program rest h) a with ⟨t, ht, hinv, -⟩ | ⟨x, hx, -⟩
      · exact .inl ⟨t, ht, hinv⟩
      · exact .inr ⟨x, hx⟩

/-- Settles O48: a step from the invariant that answers a next state is one of those that keep it. -/
theorem stepKeepsInvariant : Obligations.StepKeepsInvariant := by
  intro s t h hstep
  rcases step_cases_of_inv h with ⟨u, hu, hinv⟩ | ⟨x, hx⟩
  · cases hu.symm.trans hstep
    exact hinv
  · cases hx.symm.trans hstep

/-- Settles O49: the two ends a step has from the invariant are no fault. -/
theorem invariantExcludesFaults : Obligations.InvariantExcludesFaults := by
  intro s x h hstep
  rcases step_cases_of_inv h with ⟨u, hu, -⟩ | ⟨y, hy⟩
  · cases hu.symm.trans hstep
  · cases hy.symm.trans hstep

/-! ### One round and the tables -/

/-- A round can be undone (R11): six registers move on, their old values give `T2` and with it `T1`, and
`T1` gives the two others. -/
theorem mixRound_injective (k w : Word) : Function.Injective (mixRound k w) := by
  rintro ⟨a, b, c, d, e, f, g, h⟩ ⟨a', b', c', d', e', f', g', h'⟩ heq
  simp only [mixRound, Working.mk.injEq, roundT1, roundT2, add32] at heq
  obtain ⟨hsum, rfl, rfl, rfl, hde, rfl, rfl, rfl⟩ := heq
  have hT1 := (BitVec.add_left_inj _).mp hsum
  rw [hT1, BitVec.add_left_inj] at hde
  simp only [BitVec.add_left_inj] at hT1
  rw [hde, hT1]

/-- Settles O17: both rounds answer `mixRound` of the old registers, which is injective. -/
theorem roundIsOneToOne : Obligations.RoundIsOneToOne := by
  intro s₁ s₂ t v₁ v₂ w u₁ u₂ hv₁ hv₂ hw₁ hw₂ h₁ h₂ hu
  cases (roundOp_of_work hv₁ hw₁).symm.trans h₁
  cases (roundOp_of_work hv₂ hw₂).symm.trans h₂
  exact mixRound_injective _ _ (Option.some.inj hu)

/-- The cube root of each prime, cut to 32 fractional bits, is a whole part `q` followed by the word of
`K` (V5a). -/
theorem roundConstant_isCubeRoot : ∀ t : Fin 64, ∃ q ≤ 6,
    (q * 2 ^ 32 + (roundConstant t).toNat) ^ 3 ≤ firstPrimes[t.val]! * 2 ^ 96 ∧
    firstPrimes[t.val]! * 2 ^ 96 < (q * 2 ^ 32 + (roundConstant t).toNat + 1) ^ 3 := by
  decide +kernel

/-- The square root of each of the first primes, cut to 32 fractional bits, is a whole part `q` followed
by the word of `IV` (V5a). -/
theorem iv_isSquareRoot : ∀ i : Fin 8, ∃ q ≤ 4,
    (q * 2 ^ 32 + iv[i].toNat) ^ 2 ≤ firstPrimes[i.val]! * 2 ^ 64 ∧
    firstPrimes[i.val]! * 2 ^ 64 < (q * 2 ^ 32 + iv[i].toNat + 1) ^ 2 := by
  decide +kernel

/-- Settles O18: the integer root is the whole part followed by the word of the table, and `mod 2^32`
cuts the whole part off. -/
theorem tablesComeFromPrimes : Obligations.TablesComeFromPrimes := by
  have hlow : ∀ (q : Nat) (x : Word), x.toNat = (q * 2 ^ 32 + x.toNat) % 2 ^ 32 := fun q x => by
    have := x.isLt
    omega
  constructor
  · intro t
    obtain ⟨q, -, hle, hlt⟩ := roundConstant_isCubeRoot t
    exact ⟨_, hle, hlt, hlow q _⟩
  · intro i
    obtain ⟨q, -, hle, hlt⟩ := iv_isSquareRoot i
    exact ⟨_, hle, hlt, hlow q _⟩

/-! ### The command from the accepting states -/

/-- An accepting engine runs the command (R82). -/
theorem exec_digest_of_accepting {s : State} (h : s.accepting) : exec .digest s = runDigest s := by
  rcases h with h | h <;> simp only [exec, execDigest, issue, h]

theorem runDigest_of_command {s : State} (h : s.cfg.granularity = .command) :
    runDigest s = digestBody (acceptDigest s) := by
  simp only [runDigest, h]

theorem runDigest_of_finer {s : State} (h : s.cfg.granularity ≠ .command) :
    runDigest s = .next (acceptDigest s) := by
  unfold runDigest
  cases hg : s.cfg.granularity with
  | command => exact absurd hg h
  | sequencer => rfl
  | round => rfl

/-- Settles O33: at a finer granularity the first step of a command is `acceptDigest`. -/
theorem digestIsAccepted : Obligations.DigestIsAccepted := by
  intro s hacc hgran
  rw [exec_digest_of_accepting hacc, runDigest_of_finer hgran]
  rfl

/-- Sampled operands that do not pass `CHECK` end the command with their cause (R83). -/
theorem digestBody_of_argumentError {s : State} {base len : Quad} {x : Err}
    (hb : s.base = some base) (hl : s.len = some len)
    (hx : argumentError s.cfg base len = some x) : digestBody s = .next (raise x s) := by
  simp only [digestBody, check, hb, hl, need_some, hx, unlessFault_raise]

/-- Of two bases that are not null `CHECK` says the same under one policy (R83). -/
theorem argumentError_congr {c₁ c₂ : Config} {b₁ b₂ : Quad} (hp : c₁.emptyPolicy = c₂.emptyPolicy)
    (h₁ : b₁ ≠ 0) (h₂ : b₂ ≠ 0) (len : Quad) :
    argumentError c₁ b₁ len = argumentError c₂ b₂ len := by
  rw [argumentError, argumentError, nullBase, if_neg h₁, if_neg h₂, hp]

/-- What the host sees of a command that `CHECK` answered with `cause`, on the message `m` (R82, R93,
R117). -/
def EndsAsMessage (cause : Option Err) (m : List Byte) (t : State) : Prop :=
  match cause with
  | some x => t.digest = none ∧ t.blocks = none ∧ t.err = x ∧ t.phase = .fault
  | none => t.digest = some (messageDigest m) ∧
      t.blocks = some (BitVec.ofNat 64 (blockCount m.length)) ∧ t.err = .none ∧ t.phase = .done

/-- A command on a readable message ends as its arguments and its message say. -/
theorem exec_digest_endsAsMessage {s : State} {m : List Byte} (hacc : s.accepting)
    (herr : s.err = .none) (hgran : s.cfg.granularity = .command) (hm : s.message m) :
    ∃ t, exec .digest s = .next t ∧
      EndsAsMessage (argumentError s.cfg s.msgBase s.msgLen) m t := by
  rw [exec_digest_of_accepting hacc, runDigest_of_command hgran]
  cases ha : argumentError s.cfg s.msgBase s.msgLen with
  | some x =>
    exact ⟨_, digestBody_of_argumentError (s := acceptDigest s) rfl rfl ha, rfl, rfl, rfl, rfl⟩
  | none =>
    exact ⟨_, digestBody_of_message (s := acceptDigest s) (by simp) rfl rfl rfl ha
      (readBytes_of_sameMemory hm rfl rfl rfl), rfl, rfl, herr, rfl⟩

theorem EndsAsMessage.unique {cause : Option Err} {m : List Byte} {t₁ t₂ : State}
    (h₁ : EndsAsMessage cause m t₁) (h₂ : EndsAsMessage cause m t₂) :
    t₁.digest = t₂.digest ∧ t₁.blocks = t₂.blocks ∧ statusByte t₁ = statusByte t₂ := by
  unfold EndsAsMessage at h₁ h₂
  cases cause <;>
  · obtain ⟨hd₁, hb₁, he₁, hp₁⟩ := h₁
    obtain ⟨hd₂, hb₂, he₂, hp₂⟩ := h₂
    simp only [hd₁, hd₂, hb₁, hb₂, statusByte, he₁, he₂, hp₁, hp₂, and_self]

/-- Settles O37: `CHECK` names the same cause for both commands, and the cause and the message fix what
the host sees. -/
theorem digestIgnoresHistory : Obligations.DigestIgnoresHistory := by
  intro s₁ s₂ m hacc₁ hacc₂ herr₁ herr₂ hgran₁ hgran₂ hpol hbase₁ hbase₂ hlen hm₁ hm₂
  obtain ⟨t₁, ht₁, hend₁⟩ := exec_digest_endsAsMessage hacc₁ herr₁ hgran₁ hm₁
  obtain ⟨t₂, ht₂, hend₂⟩ := exec_digest_endsAsMessage hacc₂ herr₂ hgran₂ hm₂
  rw [hlen, argumentError_congr hpol hbase₁ hbase₂] at hend₁
  exact ⟨t₁, t₂, ht₁, ht₂, hend₁.unique hend₂⟩

/-! ### What no instruction changes but a host access -/

/-- The operand registers, memory and the platform, the parameters, what is pending outside, and the
values that reads have returned. -/
def State.outside (s : State) : (Quad × Quad) × (Memory × List Region × Config) ×
    (List HostAction × List (Option HostAction)) × List ReadResult :=
  ((s.msgBase, s.msgLen), (s.mem, s.devices, s.cfg), (s.program, s.events), s.readLog)

/-- A next state has the `outside` of `s`. -/
def KeepsOutside (s : State) (r : Result) : Prop := ∀ t, r = .next t → t.outside = s.outside

namespace KeepsOutside

variable {s u : State} {r : Result} {f : State → Result}

theorem next (h : u.outside = s.outside) : KeepsOutside s (.next u) := by
  rintro t ⟨⟩
  exact h

theorem fault (x : Fault) : KeepsOutside s (.fault x) := by
  rintro t ⟨⟩

theorem refused (x : Refusal) : KeepsOutside s (.refused x) := by
  rintro t ⟨⟩

/-- What goes on from a state with the same `outside`. -/
theorem of_same (h : KeepsOutside u r) (hu : u.outside = s.outside) : KeepsOutside s r :=
  fun t ht => (h t ht).trans hu

theorem andThen (hr : KeepsOutside s r) (hf : ∀ u, KeepsOutside u (f u)) :
    KeepsOutside s (andThen r f) := fun t ht => by
  obtain ⟨u, hu, ht⟩ := andThen_eq_next.mp ht
  exact (hf u t ht).trans (hr u hu)

theorem unlessFault (hr : KeepsOutside s r) (hf : ∀ u, KeepsOutside u (f u)) :
    KeepsOutside s (unlessFault r f) := fun t ht => by
  obtain ⟨u, hu, ⟨-, rfl⟩ | ⟨-, ht⟩⟩ := unlessFault_eq_next.mp ht
  · exact hr u hu
  · exact (hf u t ht).trans (hr u hu)

theorem need {α : Type} {x : Option α} {item : Item} {g : α → Result}
    (hg : ∀ v, KeepsOutside s (g v)) : KeepsOutside s (need x item g) := fun t ht => by
  obtain ⟨v, -, ht⟩ := need_eq_next.mp ht
  exact hg v t ht

theorem withMessageBytes {a n : Nat} {g : List Byte → Result} (hg : ∀ bs, KeepsOutside s (g bs)) :
    KeepsOutside s (withMessageBytes s a n g) := by
  rcases withMessageBytes_cases s a n g with ⟨bs, -, h⟩ | ⟨-, h⟩ | ⟨x, -, h⟩ <;> rw [h]
  · exact hg bs
  · exact next rfl
  · exact refused _

end KeepsOutside

/-! #### The operations on a block -/

/-- For the operations that write `W`: their schedule stays folded. -/
theorem outside_withSched (s : State) (w : ScheduleRegs) :
    State.outside { s with sched := w } = s.outside := rfl

theorem ldw_keepsOutside (s : State) : KeepsOutside s (ldw s) :=
  .need fun _ => .next (outside_withSched s _)

theorem expand_keepsOutside (s : State) : KeepsOutside s (expand s) :=
  .need fun _ => .next (outside_withSched s _)

theorem schedule_keepsOutside (s : State) : KeepsOutside s (schedule s) :=
  (ldw_keepsOutside s).andThen expand_keepsOutside

theorem cinit_keepsOutside (s : State) : KeepsOutside s (cinit s) := .need fun _ => .next rfl

theorem roundOp_keepsOutside (t : Fin 64) (s : State) : KeepsOutside s (roundOp t s) :=
  .need fun _ => .need fun _ => .next rfl

theorem feedback_keepsOutside (s : State) : KeepsOutside s (feedback s) :=
  .need fun _ => .need fun _ => .next rfl

theorem compress_keepsOutside (s : State) : KeepsOutside s (compress s) :=
  .need fun _ => .need fun _ => .need fun _ => .next rfl

theorem compressBlock_keepsOutside (b : Block) (s : State) : KeepsOutside s (compressBlock b s) :=
  ((schedule_keepsOutside _).andThen compress_keepsOutside).of_same rfl

/-! #### The driver's steps -/

theorem check_keepsOutside (s : State) : KeepsOutside s (check s) :=
  .need fun base => .need fun len => by
    cases argumentError s.cfg base len <;> exact .next rfl

theorem absorbBlock_keepsOutside (s : State) : KeepsOutside s (absorbBlock s) :=
  .need fun _ => .need fun _ => .withMessageBytes fun _ => compressBlock_keepsOutside _ s

theorem afterAbsorb_keepsOutside (s : State) : KeepsOutside s (afterAbsorb s) :=
  .need fun _ => .need fun _ => .next rfl

theorem execAbsorb_keepsOutside (s : State) : KeepsOutside s (execAbsorb s) :=
  .need fun i => .need fun nfull => by
    split
    · exact (absorbBlock_keepsOutside s).unlessFault afterAbsorb_keepsOutside
    · exact .next rfl

theorem tail_keepsOutside (s : State) : KeepsOutside s (tail s) :=
  .need fun _ => .need fun _ => .need fun _ => .withMessageBytes fun _ => .next rfl

theorem padlen_keepsOutside (s : State) : KeepsOutside s (padlen s) :=
  .need fun _ => .need fun _ => .need fun _ => .next rfl

theorem padcompBlock_keepsOutside (s : State) : KeepsOutside s (padcompBlock s) :=
  .need fun _ => .need fun j => by
    split
    · exact compressBlock_keepsOutside _ s
    · exact .fault _

theorem afterPadcomp_keepsOutside (s : State) : KeepsOutside s (afterPadcomp s) :=
  .need fun j => .need fun npad => by
    split <;> exact .next rfl

theorem serialize_keepsOutside (s : State) : KeepsOutside s (serialize s) :=
  .need fun _ => .next rfl

/-! #### The command -/

theorem absorbLoop_keepsOutside (n : Nat) : ∀ s, KeepsOutside s (absorbLoop n s) := by
  induction n with
  | zero => exact fun s => .next rfl
  | succ n ih =>
    exact fun s => (absorbBlock_keepsOutside s).unlessFault fun _ => .need fun _ =>
      (ih _).of_same rfl

theorem padLoop_keepsOutside (n : Nat) : ∀ s, KeepsOutside s (padLoop n s) := by
  induction n with
  | zero => exact fun s => .next rfl
  | succ n ih =>
    exact fun s => (padcompBlock_keepsOutside s).andThen fun _ => .need fun _ =>
      (ih _).of_same rfl

theorem digestBody_keepsOutside (s : State) : KeepsOutside s (digestBody s) :=
  (check_keepsOutside s).unlessFault fun s =>
    .unlessFault (.need fun n => (absorbLoop_keepsOutside n (init s)).of_same rfl) fun s =>
      (tail_keepsOutside s).unlessFault fun s =>
        (padlen_keepsOutside s).andThen fun _ =>
          .andThen (.need fun n => (padLoop_keepsOutside n _).of_same rfl) serialize_keepsOutside

theorem runDigest_keepsOutside (s : State) : KeepsOutside s (runDigest s) := by
  by_cases hg : s.cfg.granularity = .command
  · rw [runDigest_of_command hg]
    exact (digestBody_keepsOutside _).of_same rfl
  · rw [runDigest_of_finer hg]
    exact .next rfl

theorem issue_keepsOutside {run : State → Result} {s : State} (h : KeepsOutside s (run s)) :
    KeepsOutside s (issue run s) := by
  unfold issue
  cases s.phase with
  | idle => exact h
  | done => exact h
  | fault => exact .next rfl
  | busy => exact .refused _

/-- Every instruction but the host's register accesses (R18, R25). -/
theorem exec_keepsOutside {i : Instr} (hwr : ∀ reg v, i ≠ .wr reg v) (hrd : ∀ reg, i ≠ .rd reg)
    (s : State) : KeepsOutside s (exec i s) := by
  cases i with
  | wr reg v => exact absurd rfl (hwr reg v)
  | rd reg => exact absurd rfl (hrd reg)
  | digest => exact issue_keepsOutside (runDigest_keepsOutside s)
  | reserved op =>
    exact issue_keepsOutside (run := fun s => .next (raise .illegalCmd s)) (.next rfl)
  | check => exact (check_keepsOutside s).unlessFault fun _ => .next rfl
  | absorb => exact execAbsorb_keepsOutside s
  | tail => exact (tail_keepsOutside s).unlessFault fun _ => .next rfl
  | padlen => exact (padlen_keepsOutside s).andThen fun _ => .next rfl
  | padcomp => exact (padcompBlock_keepsOutside s).andThen afterPadcomp_keepsOutside
  | serialize => exact serialize_keepsOutside s
  | sched => exact schedule_keepsOutside s
  | ldw => exact ldw_keepsOutside s
  | expand => exact expand_keepsOutside s
  | compress => exact compress_keepsOutside s
  | cinit => exact cinit_keepsOutside s
  | round t => exact roundOp_keepsOutside t s
  | feedback => exact feedback_keepsOutside s
  | init | add32 | rotr | shr | ch | maj | bsig0 | bsig1 | ssig0 | ssig1 => exact .next rfl

/-! ### Host accesses -/

/-- A write to `CMD` is the command, in every phase (R19); while `BUSY` both are refused. -/
theorem exec_wr_cmd (v : Quad) (s : State) : exec (.wr .cmd v) s = writeCommand v s := by
  simp only [exec, execWr]
  cases hp : s.phase with
  | busy => simp only [writeCommand, execDigest, execReserved, issue, hp, ite_self]
  | idle => rfl
  | done => rfl
  | fault => rfl

/-- A write to another register, outside `BUSY` (R48). -/
theorem exec_wr_register {s : State} {reg : HostReg} (hb : s.phase ≠ .busy) (hreg : reg ≠ .cmd)
    (v : Quad) : exec (.wr reg v) s = .next (writeRegister reg v s) := by
  simp only [exec, execWr]
  cases hp : s.phase with
  | busy => exact absurd hp hb
  | idle | done | fault =>
    cases reg with
    | cmd => exact absurd rfl hreg
    | status | msgBase | msgLen | blocks | digest | unlisted => rfl

theorem exec_wr_busy {s : State} (hb : s.phase = .busy) (reg : HostReg) (v : Quad) :
    exec (.wr reg v) s = .refused .accessWhileBusy := by
  simp only [exec, execWr, hb]

/-- A read outside `BUSY` (R48). -/
theorem exec_rd_register {s : State} (hb : s.phase ≠ .busy) (reg : HostReg) :
    exec (.rd reg) s = .next (readRegister reg s) := by
  simp only [exec, execRd]
  cases hp : s.phase with
  | busy => exact absurd hp hb
  | idle | done | fault => rfl

/-- `STATUS` can be read in every phase (R134). -/
theorem exec_rd_status (s : State) : exec (.rd .status) s = .next (readRegister .status s) := by
  simp only [exec, execRd]
  cases s.phase <;> rfl

/-- A read that answers is one of `readRegister`. -/
theorem exec_rd_eq_next {s t : State} {reg : HostReg} (h : exec (.rd reg) s = .next t) :
    t = readRegister reg s := by
  by_cases hb : s.phase = .busy
  · by_cases hreg : reg = .status
    · subst hreg
      cases (exec_rd_status s).symm.trans h
      rfl
    · simp [exec, execRd, hb, hreg] at h
  · cases (exec_rd_register hb reg).symm.trans h
    rfl

/-- A write that answers is a command or one of `writeRegister`. -/
theorem exec_wr_eq_next {s t : State} {reg : HostReg} {v : Quad}
    (h : exec (.wr reg v) s = .next t) :
    (reg = .cmd ∧ writeCommand v s = .next t) ∨ (reg ≠ .cmd ∧ t = writeRegister reg v s) := by
  by_cases hreg : reg = .cmd
  · subst hreg
    exact .inl ⟨rfl, (exec_wr_cmd v s).symm.trans h⟩
  · by_cases hb : s.phase = .busy
    · cases (exec_wr_busy hb reg v).symm.trans h
    · cases (exec_wr_register hb hreg v).symm.trans h
      exact .inr ⟨hreg, rfl⟩

theorem writeCommand_keepsOutside (v : Quad) (s : State) : KeepsOutside s (writeCommand v s) := by
  unfold writeCommand
  split
  · exact issue_keepsOutside (runDigest_keepsOutside s)
  · exact issue_keepsOutside (.next rfl)

theorem writeRegister_msgBase_of_ne {reg : HostReg} (h : reg ≠ .msgBase) (v : Quad) (s : State) :
    (writeRegister reg v s).msgBase = s.msgBase := by
  cases reg with
  | msgBase => exact absurd rfl h
  | cmd | status | msgLen | blocks | digest | unlisted => rfl

theorem writeRegister_msgLen_of_ne {reg : HostReg} (h : reg ≠ .msgLen) (v : Quad) (s : State) :
    (writeRegister reg v s).msgLen = s.msgLen := by
  cases reg with
  | msgLen => exact absurd rfl h
  | msgBase =>
    simp only [writeRegister]
    split <;> rfl
  | cmd | status | blocks | digest | unlisted => rfl

/-- The parts of an equal `outside` that the statement on operand writes names. -/
theorem operands_of_outside {s t : State} (h : t.outside = s.outside) :
    t.msgBase = s.msgBase ∧ t.msgLen = s.msgLen ∧ t.cfg = s.cfg ∧ t.devices = s.devices ∧
      t.program = s.program ∧ t.events = s.events ∧ t.readLog = s.readLog := by
  simp only [State.outside, Prod.mk.injEq] at h
  obtain ⟨⟨hbase, hlen⟩, ⟨-, hdev, hcfg⟩, ⟨hprog, hev⟩, hlog⟩ := h
  exact ⟨hbase, hlen, hcfg, hdev, hprog, hev, hlog⟩

/-- Settles O52: only `WR` and `RD` touch what is `outside`, a `WR` its own register and a `RD` the log. -/
theorem onlyWritesChangeOperands : Obligations.OnlyWritesChangeOperands := by
  intro i s t hexec
  cases i with
  | wr reg v =>
    rcases exec_wr_eq_next hexec with ⟨-, hcmd⟩ | ⟨-, rfl⟩
    · obtain ⟨hbase, hlen, hcfg, hdev, hprog, hev, hlog⟩ :=
        operands_of_outside (writeCommand_keepsOutside v s t hcmd)
      exact ⟨fun _ => hbase, fun _ => hlen, hcfg, hdev, hprog, hev, fun _ => hlog⟩
    · obtain ⟨a, l, hframe⟩ := writeRegister_frame reg v s
      refine ⟨fun h => writeRegister_msgBase_of_ne (fun hr => h v (hr ▸ rfl)) v s,
        fun h => writeRegister_msgLen_of_ne (fun hr => h v (hr ▸ rfl)) v s, ?_⟩
      rw [hframe]
      exact ⟨rfl, rfl, rfl, rfl, fun _ => rfl⟩
  | rd reg =>
    obtain ⟨v, n, hframe⟩ := readRegister_frame reg s
    rw [exec_rd_eq_next hexec, hframe]
    exact ⟨fun _ => rfl, fun _ => rfl, rfl, rfl, rfl, rfl, fun h => absurd rfl (h reg)⟩
  | _ =>
    obtain ⟨hbase, hlen, hcfg, hdev, hprog, hev, hlog⟩ :=
      operands_of_outside (exec_keepsOutside (by simp) (by simp) s t hexec)
    exact ⟨fun _ => hbase, fun _ => hlen, hcfg, hdev, hprog, hev, fun _ => hlog⟩

/-- Settles O39: the write is one of `writeRegister`. -/
theorem writeSetsOperand : Obligations.WriteSetsOperand := by
  intro s v hb
  constructor
  · rw [exec_wr_register hb (by simp)]
    rfl
  · intro hv
    rw [exec_wr_register hb (by simp), writeRegister, if_pos hv]

/-- Settles O40: `writeCommand` splits on the value as the statement does. -/
theorem writeIssuesCommand : Obligations.WriteIssuesCommand :=
  fun s v => exec_wr_cmd v s

/-- A read of a register that holds a defined value returns it. -/
theorem readRegister_of_defined {reg : HostReg} {s : State} {v : Quad}
    (h : definedRead reg s = some v) : readRegister reg s = logRead reg (some v) s := by
  cases reg with
  | cmd | unlisted => simp [definedRead] at h
  | status | msgBase | msgLen | blocks | digest => simp only [readRegister, h]

/-- `STATUS` as a number: `ERR` above the two bits of `PHASE` (R20). -/
theorem statusByte_toNat (s : State) :
    (statusByte s).toNat = 4 * (errCode s.err).toNat + (phaseCode s.phase).toNat := by
  unfold statusByte
  generalize errCode s.err = e
  generalize phaseCode s.phase = p
  revert e p
  decide

/-- Settles O42: the read returns the `STATUS` byte, whose two parts are the codes of R20. -/
theorem readReturnsStatusAndOperands : Obligations.ReadReturnsStatusAndOperands := by
  intro s
  constructor
  · refine ⟨(statusByte s).setWidth 64, ?_, ?_, ?_⟩
    · rw [exec_rd_status, readRegister_of_defined rfl]
      rfl
    · have hphase := (phaseCode s.phase).isLt
      rw [BitVec.toNat_setWidth_of_le (by decide), statusByte_toNat, Nat.mul_add_mod,
        Nat.mod_eq_of_lt hphase]
      cases s.phase <;> rfl
    · have hphase := (phaseCode s.phase).isLt
      rw [BitVec.toNat_setWidth_of_le (by decide), statusByte_toNat,
        Nat.mul_add_div (by decide), Nat.div_eq_of_lt hphase, Nat.add_zero]
      cases s.err <;> rfl
  · intro hb
    constructor <;> rw [exec_rd_register hb, readRegister_of_defined rfl] <;> rfl

/-- Settles O43: in these phases `D` and `BLOCKS` have a defined value. -/
theorem readReturnsDigestInDone : Obligations.ReadReturnsDigestInDone := by
  intro s
  constructor
  · intro d j hdone hd
    rw [exec_rd_register (by simp [hdone]),
      readRegister_of_defined (v := d[j].setWidth 64) (by simp [definedRead, hdone, hd])]
    rfl
  · intro n hacc hn
    rcases hacc with hp | hp <;>
    · rw [exec_rd_register (by simp [hp]),
        readRegister_of_defined (v := n) (by simp [definedRead, hp, hn])]
      rfl

/-! ### Items without value -/

/-- The outcome is a fault that names an item without value in `s` (R27). -/
def Stops (s : State) (r : Result) : Prop := ∃ x, s.lacks x ∧ r = .fault (.noValue x)

namespace Stops

variable {s : State} {r : Result} {f : State → Result}

/-- A read stops on its own item, or what follows it stops. -/
theorem need {α : Type} {x : Option α} {item : Item} {g : α → Result}
    (hx : x = none → s.lacks item) (hg : ∀ v, x = some v → Stops s (g v)) :
    Stops s (need x item g) := by
  cases x with
  | none => exact ⟨item, hx rfl, rfl⟩
  | some v => exact hg v rfl

theorem andThen (h : Stops s r) : Stops s (andThen r f) := by
  obtain ⟨x, hx, rfl⟩ := h
  exact ⟨x, hx, rfl⟩

theorem unlessFault (h : Stops s r) : Stops s (unlessFault r f) := andThen h

end Stops

theorem ldw_stops {s : State} (h : s.block = none) : Stops s (ldw s) :=
  .need id fun _ hb => absurd h (by simp [hb])

/-- A whole `W[0..15]` has no word without value. -/
theorem expand_stops {s : State} {k : Nat} (hk : k < 16) (h : s.sched[k] = none) :
    Stops s (expand s) := by
  refine .need (fun _ => ⟨⟨k, by omega⟩, h⟩) fun ws hws => ?_
  obtain ⟨hlen, hall⟩ := firstWords_eq_some.mp hws
  exact absurd h (by simp [hall k (by omega) (by omega)])

theorem cinit_stops {s : State} (h : s.hash = none) : Stops s (cinit s) :=
  .need id fun _ hh => absurd h (by simp [hh])

theorem serialize_stops {s : State} (h : s.hash = none) : Stops s (serialize s) :=
  .need id fun _ hh => absurd h (by simp [hh])

theorem roundOp_stops {s : State} {t : Fin 64} (h : s.work = none ∨ s.sched[t] = none) :
    Stops s (roundOp t s) :=
  .need id fun _ hv => .need (fun hw => ⟨t, hw⟩) fun _ hw => absurd h (by simp [hv, hw])

theorem feedback_stops {s : State} (h : s.hash = none ∨ s.work = none) : Stops s (feedback s) :=
  .need id fun _ hh => .need id fun _ hv => absurd h (by simp [hh, hv])

theorem check_stops {s : State} (h : s.base = none ∨ s.len = none) : Stops s (check s) :=
  .need id fun _ hb => .need id fun _ hl => absurd h (by simp [hb, hl])

theorem tail_stops {s : State} (h : s.base = none ∨ s.nfull = none ∨ s.rest = none) :
    Stops s (tail s) :=
  .need id fun _ hb => .need id fun _ hn => .need id fun _ hr => absurd h (by simp [hb, hn, hr])

theorem padlen_stops {s : State} (h : s.len = none ∨ s.rest = none ∨ s.scratch = none) :
    Stops s (padlen s) :=
  .need id fun _ hl => .need id fun _ hr => .need id fun _ hS => absurd h (by simp [hl, hr, hS])

/-- `ABSORB` without its block counters. -/
theorem execAbsorb_stops_of_counters {s : State} (h : s.i = none ∨ s.nfull = none) :
    Stops s (execAbsorb s) :=
  .need id fun _ hi => .need id fun _ hn => absurd h (by simp [hi, hn])

/-- `ABSORB` with a full block left stops when that block does. -/
theorem execAbsorb_stops_of_block {s : State} {i nfull : Nat} (hi : s.i = some i)
    (hn : s.nfull = some nfull) (hlt : i < nfull) (h : Stops s (absorbBlock s)) :
    Stops s (execAbsorb s) := by
  simp only [execAbsorb, ifBlocksLeft, hi, hn, need_some, if_pos hlt]
  exact h.unlessFault

theorem absorbBlock_stops_of_base {s : State} (h : s.base = none) : Stops s (absorbBlock s) :=
  .need id fun _ hb => absurd h (by simp [hb])

/-- A full block whose bytes are read and that cannot be compressed. -/
theorem absorbBlock_stops_of_bytes {s : State} {base : Quad} {i : Nat} {bs : List Byte}
    (hb : s.base = some base) (hi : s.i = some i)
    (hbs : readBytes s (base.toNat + 64 * i) 64 = .bytes bs) (h : s.hash = none ∨ s.blocks = none) :
    Stops s (absorbBlock s) := by
  simp only [absorbBlock, withFullBlock, hb, hi, need_some, withMessageBytes, hbs]
  exact compressBlock_stops _ h

/-- `PADCOMP` without `S` or its index. -/
theorem execPadcomp_stops_of_index {s : State} (h : s.scratch = none ∨ s.j = none) :
    Stops s (execPadcomp s) :=
  .andThen (.need id fun _ hS => .need id fun _ hj => absurd h (by simp [hS, hj]))

/-- `PADCOMP` of a pad block: without `S`, without what compresses the block, or without `npad` once the
block is compressed. -/
theorem execPadcomp_stops_of_block {s : State} {j : Nat} (hj2 : j < 2) (hj : s.j = some j)
    (h : s.hash = none ∨ s.blocks = none ∨ s.npad = none) : Stops s (execPadcomp s) := by
  cases hS : s.scratch with
  | none => exact execPadcomp_stops_of_index (.inl hS)
  | some buf =>
    by_cases hhb : s.hash = none ∨ s.blocks = none
    · refine Stops.andThen ?_
      simp only [padcompBlock, withPadBlock, hS, hj, need_some, dif_pos hj2]
      exact compressBlock_stops _ hhb
    · obtain ⟨hhash, hblocks⟩ := not_or.mp hhb
      have hnpad : s.npad = none := (h.resolve_left hhash).resolve_left hblocks
      obtain ⟨v, hv⟩ := Option.ne_none_iff_exists'.mp hhash
      obtain ⟨n, hn⟩ := Option.ne_none_iff_exists'.mp hblocks
      rw [execPadcomp, padcompBlock_of_scratch (j := ⟨j, hj2⟩) hS hj hv hn, andThen_next]
      refine ⟨.npad, hnpad, ?_⟩
      simp only [afterPadcomp, hj, need_some, hnpad, need_none]

/-- Settles O29, by the stops of each operation. -/
theorem readWithoutValueFaults : Obligations.ReadWithoutValueFaults := by
  intro s
  refine ⟨fun h => ⟨ldw_stops h, (ldw_stops h).andThen⟩, fun k hk h => expand_stops hk h,
    fun h => ⟨cinit_stops h, serialize_stops h⟩, fun t h => roundOp_stops h,
    feedback_stops, compress_stops, fun h => (check_stops h).unlessFault,
    execAbsorb_stops_of_counters, ?_, fun h => (tail_stops h).unlessFault,
    fun h => (padlen_stops h).andThen, execPadcomp_stops_of_index,
    fun j hj2 hj => execPadcomp_stops_of_block hj2 hj⟩
  intro i nfull hi hn hlt
  have hblock := execAbsorb_stops_of_block hi hn hlt
  exact ⟨fun hb => hblock (absorbBlock_stops_of_base hb),
    fun base bs hb hbs h => hblock (absorbBlock_stops_of_bytes hb hi hbs h)⟩

end Sys2Proof.Machine
end

section
/-! What message memory answers, and what a read of it does to a command: the first byte that is not read ends it, and bytes outside the message play no part (20_memory.md R31 to R38). -/

namespace Sys2Proof.Machine

/-! ### What a read answers -/

theorem inDevice_iff {s : State} {a : Nat} :
    s.inDevice a = true ↔ ∃ r ∈ s.devices, r.base ≤ a ∧ a < r.base + r.size := by
  simp only [State.inDevice, List.any_eq_true, Region.holds, Bool.and_eq_true, decide_eq_true_eq]

theorem readByte_of_outOfWidth {s : State} {a : Nat} (h : 2 ^ s.cfg.addrWidth ≤ a) :
    readByte s a = .busError := by
  rw [readByte, if_pos h]

theorem readByte_of_inDevice {s : State} {a : Nat} (h : a < 2 ^ s.cfg.addrWidth)
    (hd : s.inDevice a = true) : readByte s a = .device := by
  rw [readByte, if_neg (Nat.not_le.mpr h), if_pos hd]

theorem readByte_of_unlisted {s : State} {a : Nat} (h : a < 2 ^ s.cfg.addrWidth)
    (hd : s.inDevice a = false) (hl : s.mem.lookup a = none) : readByte s a = .busError := by
  rw [readByte, if_neg (Nat.not_le.mpr h), if_neg (by simp [hd]), hl]

theorem readByte_of_listed {s : State} {a : Nat} {b : Byte} (h : a < 2 ^ s.cfg.addrWidth)
    (hd : s.inDevice a = false) (hl : s.mem.lookup a = some b) : readByte s a = .byte b := by
  rw [readByte, if_neg (Nat.not_le.mpr h), if_neg (by simp [hd]), hl]

/-- Settles O57, by the four answers of a single-byte read and the two laws of a longer one. -/
theorem memoryReadAnswers : Obligations.MemoryReadAnswers := fun _ a =>
  ⟨inDevice_iff, fun hwf b => (MemoryLaws.lookup_eq_some hwf a b).1, readByte_of_outOfWidth,
    readByte_of_inDevice, readByte_of_unlisted, fun _ => readByte_of_listed,
    fun _ => ⟨fun _ => readBytes_eq_bytes, fun _ => readBytes_stops⟩⟩

/-! ### A read that gives no bytes -/

/-- An answer without bytes, and the end it gives the command of `s` that asked (R36, U9). -/
inductive ReadStops (s : State) : MemReads → Result → Prop where
  | busError : ReadStops s .busError (.next (raise .busError s))
  | device (x : Nat) : ReadStops s (.device x) (.refused (.deviceAccess x))

namespace ReadStops

variable {s t : State} {a m n : Nat} {q : MemReads} {r : Result}

theorem of_busError (h : readBytes s a n = .busError) :
    ReadStops s (readBytes s a n) (.next (raise .busError s)) := h ▸ .busError

theorem of_device {x : Nat} (h : readBytes s a n = .device x) :
    ReadStops s (readBytes s a n) (.refused (.deviceAccess x)) := h ▸ .device x

theorem withMessageBytes (h : ReadStops s (readBytes s a n) r) (f : List Byte → Result) :
    withMessageBytes s a n f = r := by
  unfold Machine.withMessageBytes
  generalize readBytes s a n = q at h ⊢
  cases h <;> rfl

theorem unlessFault (h : ReadStops s q r) (f : State → Result) : unlessFault r f = r := by
  cases h <;> rfl

/-- The read stops alike in a state that fault entry leaves alike: how far the command came does not
matter, and the memory it reads is the same (R117). -/
theorem of_sameRaise (h : ReadStops s (readBytes s a n) r)
    (hr : raise .busError t = raise .busError s) : ReadStops t (readBytes t a n) r := by
  have hread : readBytes t a n = readBytes s a n :=
    readBytes_congr (s := s) (t := t) (congrArg (fun u : State => u.cfg.addrWidth) hr :)
      (congrArg State.devices hr :) (congrArg State.mem hr :) a n
  rw [hread]
  generalize readBytes s a n = q at h ⊢
  cases h with
  | busError => exact hr ▸ .busError
  | device x => exact .device x

/-- After a byte, a read stops exactly when its rest does. -/
theorem cons_iff {b : Byte} (hb : readByte s a = .byte b) :
    ReadStops s (readBytes s a (n + 1)) r ↔ ReadStops s (readBytes s (a + 1) n) r := by
  simp only [readBytes, hb]
  cases readBytes s (a + 1) n with
  | bytes bs => constructor <;> nofun
  | busError => rfl
  | device x => rfl

/-- A read in two parts stops in the first, or in the second once the first is read (log entry 17). -/
theorem append (h : ReadStops s (readBytes s a (m + n)) r) :
    ReadStops s (readBytes s a m) r ∨
      ∃ bs, readBytes s a m = .bytes bs ∧ ReadStops s (readBytes s (a + m) n) r := by
  induction m generalizing a with
  | zero => exact .inr ⟨[], rfl, by simpa using h⟩
  | succ m ih =>
    rw [Nat.add_right_comm] at h
    cases hb : readByte s a with
    | busError | device => exact .inl (by simpa only [readBytes, hb] using h)
    | byte b =>
      rcases ih ((cons_iff hb).mp h) with hfirst | ⟨bs, hbs, hsecond⟩
      · exact .inl ((cons_iff hb).mpr hfirst)
      · refine .inr ⟨b :: bs, by simp only [readBytes, hb, hbs], ?_⟩
        rwa [Nat.add_assoc, Nat.add_comm 1] at hsecond

end ReadStops

/-- The first byte of a read that answers `BusError` stops the read (R36). -/
theorem readStops_of_busError {s : State} {a n k : Nat} (hk : k < n)
    (hb : ∀ k' < k, ∃ b, readByte s (a + k') = .byte b) (hbus : readByte s (a + k) = .busError) :
    ReadStops s (readBytes s a n) (.next (raise .busError s)) :=
  .of_busError ((readBytes_stops hk hb).1 hbus)

/-! ### The steps that read the message -/

theorem absorbBlock_of_readStops {s : State} {base : Quad} {i : Nat} {r : Result}
    (hb : s.base = some base) (hi : s.i = some i)
    (h : ReadStops s (readBytes s (base.toNat + 64 * i) 64) r) : absorbBlock s = r := by
  simp only [absorbBlock, withFullBlock, hb, hi, need_some, h.withMessageBytes]

theorem tail_of_readStops {s : State} {base : Quad} {nfull rest : Nat} {r : Result}
    (hb : s.base = some base) (hn : s.nfull = some nfull) (hr : s.rest = some rest)
    (h : ReadStops s (readBytes s (base.toNat + 64 * nfull) rest) r) : tail s = r := by
  simp only [tail, hb, hn, hr, need_some, h.withMessageBytes]

/-- Settles O23: the unreadable byte stops the read of the block or of the leftover bytes, and the step
ends there. -/
theorem unreadableByteRaisesBusError : Obligations.UnreadableByteRaisesBusError := by
  intro s base i nfull rest hb hi hn hr
  constructor
  · intro k hk hlt hbytes hbus
    have hstop := readStops_of_busError hk hbytes hbus
    simp only [exec, execAbsorb, ifBlocksLeft, hi, hn, need_some, if_pos hlt,
      absorbBlock_of_readStops hb hi hstop, hstop.unlessFault]
  · intro k hk hbytes hbus
    have hstop := readStops_of_busError hk hbytes hbus
    simp only [exec, execTail, tail_of_readStops hb hn hr hstop, hstop.unlessFault]

/-! ### The command -/

/-- The full blocks of a message that cannot be read whole end where the read stops, after any number
of blocks (R85). -/
theorem absorbLoop_of_readStops (n : Nat) {s : State} {base : Quad} {i : Nat} {h : Hash} {c : Quad}
    {r : Result} (hseq : s.seq ≠ .sFault) (hb : s.base = some base) (hi : s.i = some i)
    (hh : s.hash = some h) (hc : s.blocks = some c)
    (hstop : ReadStops s (readBytes s (base.toNat + 64 * i) (64 * n)) r) : absorbLoop n s = r := by
  induction n generalizing s i h c with
  | zero => nomatch hstop
  | succ n ih =>
    rw [Nat.mul_add_one, Nat.add_comm (64 * n)] at hstop
    rcases hstop.append with hfirst | ⟨bs, hbs, hrest⟩
    · rw [absorbLoop, absorbBlock_of_readStops hb hi hfirst, hfirst.unlessFault]
    · rw [absorbLoop, absorbBlock_of_bytes hb hi hh hc hbs, unlessFault_next, if_neg (by exact hseq),
        need_of_some (x := State.i _) hi]
      rw [Nat.add_assoc, ← Nat.mul_add_one] at hrest
      exact ih hseq hb rfl rfl rfl (hrest.of_sameRaise rfl)

/-- The command after its full blocks, where the leftover bytes cannot be read whole (R86). -/
theorem digestEnd_of_readStops {s : State} {base : Quad} {nfull rest : Nat} {r : Result}
    (hb : s.base = some base) (hn : s.nfull = some nfull) (hr : s.rest = some rest)
    (hstop : ReadStops s (readBytes s (base.toNat + 64 * nfull) rest) r) : digestEnd s = r := by
  rw [digestEnd, tail_of_readStops hb hn hr hstop, hstop.unlessFault]

/-- The command after `INIT`, over the full blocks and then the leftover bytes (R85, R86). -/
theorem absorbLoop_digestEnd_of_readStops {s : State} {base : Quad} {nfull rest : Nat} {h : Hash}
    {c : Quad} {r : Result} (hseq : s.seq ≠ .sFault) (hb : s.base = some base)
    (hnf : s.nfull = some nfull) (hrest : s.rest = some rest) (hi : s.i = some 0)
    (hh : s.hash = some h) (hc : s.blocks = some c)
    (hstop : ReadStops s (readBytes s base.toNat (64 * nfull + rest)) r) :
    unlessFault (absorbLoop nfull s) digestEnd = r := by
  rcases hstop.append with hfull | ⟨bs, hbs, hleft⟩
  · rw [absorbLoop_of_readStops nfull hseq hb hi hh hc hfull, hfull.unlessFault]
  · obtain ⟨bl, wk, sc, habsorb⟩ := absorbLoop_bytes nfull s base 0 bs h c hseq hb hi hh hc hbs
    rw [habsorb, unlessFault_next, if_neg (by exact hseq)]
    exact digestEnd_of_readStops hb hnf hrest (hleft.of_sameRaise rfl)

/-- A command whose sampled operands pass `CHECK` ends where the read of its message stops (R36, U9). -/
theorem digestBody_of_readStops {s : State} {base len : Quad} {r : Result} (hseq : s.seq ≠ .sFault)
    (hb : s.base = some base) (hl : s.len = some len) (ha : argumentError s.cfg base len = none)
    (hstop : ReadStops s (readBytes s base.toNat len.toNat) r) : digestBody s = r := by
  rw [← Nat.div_add_mod len.toNat 64] at hstop
  rw [digestBody_eq, check_of_arguments hb hl ha, unlessFault_next, if_neg (by exact hseq),
    need_of_some (x := State.nfull _) rfl]
  exact absorbLoop_digestEnd_of_readStops hseq hb rfl rfl rfl rfl rfl (hstop.of_sameRaise rfl)

/-- The body of a command whose sampled operands pass `CHECK`, for every answer of its message: the
sequencer reads it in pieces, and ends as one read of it would (R82 to R93). -/
theorem digestBody_of_arguments {s : State} {base len : Quad} (hseq : s.seq ≠ .sFault)
    (hd : s.disturbed = false) (hb : s.base = some base) (hl : s.len = some len)
    (ha : argumentError s.cfg base len = none) :
    digestBody s = withMessageBytes s base.toNat len.toNat fun m => .next { discardInternals s with
      seq := .sDone, digest := some (messageDigest m)
      blocks := some (BitVec.ofNat 64 (blockCount m.length)) } := by
  cases hr : readBytes s base.toNat len.toNat with
  | bytes m =>
    rw [digestBody_of_message hseq hd hb hl ha hr]
    simp only [withMessageBytes, hr]
  | busError =>
    have hstop := ReadStops.of_busError hr
    rw [digestBody_of_readStops hseq hb hl ha hstop, hstop.withMessageBytes]
  | device x =>
    have hstop := ReadStops.of_device hr
    rw [digestBody_of_readStops hseq hb hl ha hstop, hstop.withMessageBytes]

/-- Settles O32: the command ends where the read of its message does, and `raise` leaves after any part
of the command what it leaves at once. -/
theorem digestRaisesBusError : Obligations.DigestRaisesBusError := by
  intro s hacc hgran hgood
  rw [exec_digest_of_accepting hacc, runDigest_of_command hgran]
  have hend : ∀ r, ReadStops s (readBytes s s.msgBase.toNat s.msgLen.toNat) r →
      digestBody (acceptDigest s) = r := fun r hstop =>
    digestBody_of_readStops (s := acceptDigest s) (by simp) rfl rfl
      (argumentError_of_goodArguments hgood) (hstop.of_sameRaise rfl)
  exact ⟨fun h => hend _ (.of_busError h), fun a h => hend _ (.of_device h)⟩

/-- A read depends on the bytes it asks for only (R35). -/
theorem readBytes_congr_on {s t : State} {a n : Nat}
    (h : ∀ k < n, readByte t (a + k) = readByte s (a + k)) : readBytes t a n = readBytes s a n := by
  induction n generalizing a with
  | zero => rfl
  | succ n ih =>
    have hrest : readBytes t (a + 1) n = readBytes s (a + 1) n := ih fun k hk => by
      have := h (k + 1) (Nat.succ_lt_succ hk)
      rwa [Nat.add_comm k 1, ← Nat.add_assoc] at this
    simp only [readBytes, hrest, show readByte t a = readByte s a from h 0 n.succ_pos]

/-- The same state over another memory. -/
def State.withMemory (m : Memory) (s : State) : State := { s with mem := m }

/-- A command run in one step, over two memories that give its message the same answer: `CHECK` does
not read memory, and the answer decides the rest. -/
theorem digestBody_withMemory {s : State} {base len : Quad} (m : Memory) (hseq : s.seq ≠ .sFault)
    (hd : s.disturbed = false) (hb : s.base = some base) (hl : s.len = some len)
    (hread : readBytes (s.withMemory m) base.toNat len.toNat = readBytes s base.toNat len.toNat) :
    digestBody (s.withMemory m) = mapNext (State.withMemory m) (digestBody s) := by
  cases ha : argumentError s.cfg base len with
  | some x =>
    rw [digestBody_of_argumentError hb hl ha,
      digestBody_of_argumentError (s := s.withMemory m) hb hl ha]
    rfl
  | none =>
    rw [digestBody_of_arguments hseq hd hb hl ha,
      digestBody_of_arguments (s := s.withMemory m) hseq hd hb hl ha]
    simp only [withMessageBytes, hread]
    cases readBytes s base.toNat len.toNat <;> rfl

@[simp] theorem readBytes_acceptDigest (s : State) (a n : Nat) :
    readBytes (acceptDigest s) a n = readBytes s a n :=
  readBytes_congr (s := s) (t := acceptDigest s) rfl rfl rfl a n

theorem runDigest_withMemory {s : State} (m : Memory)
    (hread : readBytes (s.withMemory m) s.msgBase.toNat s.msgLen.toNat =
      readBytes s s.msgBase.toNat s.msgLen.toNat) :
    runDigest (s.withMemory m) = mapNext (State.withMemory m) (runDigest s) := by
  by_cases hg : s.cfg.granularity = .command
  · rw [runDigest_of_command hg, runDigest_of_command (s := s.withMemory m) hg]
    rw [← readBytes_acceptDigest s, ← readBytes_acceptDigest (s.withMemory m)] at hread
    exact digestBody_withMemory (s := acceptDigest s) m (by simp) rfl rfl rfl hread
  · rw [runDigest_of_finer hg, runDigest_of_finer (s := s.withMemory m) hg]
    rfl

/-- Settles O38: the message has the same answer in both memories, and nothing else is read. -/
theorem digestReadsMessageOnly : Obligations.DigestReadsMessageOnly := by
  intro s m hagree
  have hrun := runDigest_withMemory (s := s) m <| readBytes_congr_on fun k hk =>
    hagree _ (Nat.le_add_right _ k) (Nat.add_lt_add_left hk _)
  have hphase : State.phase { s with mem := m } = s.phase := rfl
  simp only [exec, execDigest, issue, hphase]
  cases s.phase with
  | idle => exact hrun
  | done => exact hrun
  | fault => rfl
  | busy => rfl

/-! ### What no instruction writes -/

theorem mem_of_outside {s t : State} (h : t.outside = s.outside) : t.mem = s.mem := by
  simp only [State.outside, Prod.mk.injEq] at h
  obtain ⟨-, ⟨hmem, -⟩, -⟩ := h
  exact hmem

/-- No instruction writes memory: what is left to see is the host's register accesses (R31). -/
theorem exec_keeps_mem {i : Instr} {s t : State} (h : exec i s = .next t) : t.mem = s.mem := by
  cases i with
  | wr reg v =>
    rcases exec_wr_eq_next h with ⟨-, hcmd⟩ | ⟨-, rfl⟩
    · exact mem_of_outside (writeCommand_keepsOutside v s t hcmd)
    · obtain ⟨a, l, hframe⟩ := writeRegister_frame reg v s
      rw [hframe]
  | rd reg =>
    obtain ⟨v, n, hframe⟩ := readRegister_frame reg s
    rw [exec_rd_eq_next h, hframe]
  | _ => exact mem_of_outside (exec_keepsOutside (by simp) (by simp) s t h)

/-- Settles O51: a byte read depends on memory, the platform and the parameters, and an instruction
keeps all three. -/
theorem noInstructionWritesMemory : Obligations.NoInstructionWritesMemory := by
  intro i s t h
  obtain ⟨-, -, hcfg, hdev, -⟩ := onlyWritesChangeOperands i s t h
  have hmem := exec_keeps_mem h
  exact ⟨hmem, readByte_congr (congrArg Config.addrWidth hcfg) hdev hmem⟩

end Sys2Proof.Machine
end

section
/-! The words of the host and the instructions they stand for, in both directions (30_encoding.md section 1). -/

namespace Sys2Proof

/-! ### Register numbers -/

theorem listedReg_eq_false_iff {n : BitVec 8} :
    listedReg n = false ↔ 4 < n.toNat ∧ ¬(0x20 ≤ n.toNat ∧ n.toNat < 0x40) := by
  simp only [listedReg, Bool.or_eq_false_iff, Bool.and_eq_false_iff, decide_eq_false_iff_not]
  omega

theorem decodeReg_of_not_listed {n : BitVec 8} (h : listedReg n = false) :
    decodeReg n = .unlisted n := by
  obtain ⟨hlow, hdigest⟩ := listedReg_eq_false_iff.mp h
  have hne : ∀ k : BitVec 8, k.toNat ≤ 4 → n ≠ k := by
    rintro k hk rfl
    omega
  rw [decodeReg, dif_neg hdigest, if_neg (hne _ (by decide)), if_neg (hne _ (by decide)),
    if_neg (hne _ (by decide)), if_neg (hne _ (by decide)), if_neg (hne _ (by decide))]

/-- The number of a register in its canonical form names that register (10_state.md section 3). -/
theorem decodeReg_encodeReg {reg : HostReg} (h : reg.wf = true) :
    decodeReg (encodeReg reg) = reg := by
  cases reg with
  | cmd | status | msgBase | msgLen | blocks => rfl
  | digest j => revert j; decide
  | unlisted n => exact decodeReg_of_not_listed ((Bool.not_eq_true' _).mp h)

/-- Every number gives a register in its canonical form, whose number it is (R48). -/
theorem decodeReg_wf_and_encodeReg (n : BitVec 8) :
    (decodeReg n).wf = true ∧ encodeReg (decodeReg n) = n := by
  unfold decodeReg
  split_ifs with hdigest h0 h1 h2 h3 h4
  · refine ⟨rfl, BitVec.eq_of_toNat_eq ?_⟩
    simp only [encodeReg, BitVec.toNat_ofNat]
    omega
  · exact ⟨rfl, h0.symm⟩
  · exact ⟨rfl, h1.symm⟩
  · exact ⟨rfl, h2.symm⟩
  · exact ⟨rfl, h3.symm⟩
  · exact ⟨rfl, h4.symm⟩
  · have hlow : 4 < n.toNat := by bv_omega
    simp only [HostReg.wf, encodeReg, listedReg_eq_false_iff.mpr ⟨hlow, hdigest⟩, Bool.not_false,
      and_self]

/-! ### The fields of a transaction word -/

@[simp] theorem htKind_packTransaction (kind reg : BitVec 8) (data : Quad) :
    htKind (packTransaction kind reg data) = kind :=
  BitVec.extractLsb'_append_eq_left

@[simp] theorem htReg_packTransaction (kind reg : BitVec 8) (data : Quad) :
    htReg (packTransaction kind reg data) = reg :=
  (BitVec.extractLsb'_append_eq_of_add_le (by decide)).trans BitVec.extractLsb'_append_eq_left

@[simp] theorem htData_packTransaction (kind reg : BitVec 8) (data : Quad) :
    htData (packTransaction kind reg data) = data :=
  (BitVec.extractLsb'_append_eq_of_add_le (by decide)).trans BitVec.extractLsb'_append_eq_right

/-- The three fields are the whole word: no bit lies outside them (R48). -/
theorem packTransaction_fields (w : BitVec 80) :
    packTransaction (htKind w) (htReg w) (htData w) = w := by
  have hlow : htReg w ++ htData w = w.extractLsb' 0 72 :=
    BitVec.extractLsb'_append_extractLsb'_eq_extractLsb' rfl
  rw [packTransaction, hlow]
  exact BitVec.extractLsb'_append_extractLsb'

/-! ### Both directions -/

/-- What a transaction word decodes to: a write by its three fields, or a read without data (R48). -/
theorem decodeTransaction_eq_ok_iff {w : BitVec 80} {i : Instr} :
    decodeTransaction w = .ok i ↔
      (htKind w = 0x01 ∧ i = .wr (decodeReg (htReg w)) (htData w)) ∨
      (htKind w = 0x00 ∧ htData w = 0 ∧ i = .rd (decodeReg (htReg w))) := by
  unfold decodeTransaction
  split_ifs with hwr hrd hdata
  · simp [hwr, eq_comm]
  · simp [hrd, hdata, eq_comm]
  · simp only [hwr, hdata, false_and, and_false, or_self]
  · simp only [hwr, hrd, false_and, or_self]

/-- Settles O1, by the constructors that have a word: the decoder finds the fields that the encoder
packed. -/
theorem decodeReadsEncode : Obligations.DecodeReadsEncode := by
  intro i w hwf hw
  cases i with
  | digest =>
    cases hw
    rfl
  | reserved op =>
    cases hw
    simp only [decode, decodeCommand, if_neg (of_decide_eq_true hwf)]
  | wr reg data =>
    cases hw
    exact decodeTransaction_eq_ok_iff.mpr (.inl ⟨htKind_packTransaction .., by
      rw [htReg_packTransaction, htData_packTransaction, decodeReg_encodeReg hwf]⟩)
  | rd reg =>
    cases hw
    exact decodeTransaction_eq_ok_iff.mpr (.inr ⟨htKind_packTransaction ..,
      htData_packTransaction .., by rw [htReg_packTransaction, decodeReg_encodeReg hwf]⟩)
  | _ => cases hw

/-- Settles O2: a command value is its own word, and a transaction word is its three fields. -/
theorem encodeReadsDecode : Obligations.EncodeReadsDecode := by
  intro w i h
  refine and_left_comm.mp ⟨Machine.decode_hostIssued h, ?_⟩
  cases w with
  | command v =>
    cases h
    unfold decodeCommand
    split_ifs with hv
    · exact ⟨rfl, by rw [hv, encode]⟩
    · exact ⟨decide_eq_true hv, rfl⟩
  | transaction w =>
    obtain ⟨hwf, hreg⟩ := decodeReg_wf_and_encodeReg (htReg w)
    rcases decodeTransaction_eq_ok_iff.mp h with ⟨hkind, rfl⟩ | ⟨hkind, hdata, rfl⟩
    · refine ⟨hwf, ?_⟩
      rw [encode, hreg, ← hkind, packTransaction_fields]
    · refine ⟨hwf, ?_⟩
      rw [encode, hreg, ← hkind, ← hdata, packTransaction_fields]

end Sys2Proof
end

section
/-! The host accesses that have no effect and return no value (30_encoding.md R48). -/

namespace Sys2Proof.Machine

theorem readRegister_of_not_readable {reg : HostReg} (h : reg.readable = false) (s : State) :
    readRegister reg s = logRead reg none s := by
  cases reg with
  | cmd | unlisted => rfl
  | status | msgBase | msgLen | blocks | digest => cases h

theorem writeRegister_of_not_writable {reg : HostReg} (h : reg.writable = false) (v : Quad)
    (s : State) : writeRegister reg v s = s := by
  cases reg with
  | status | blocks | digest | unlisted => rfl
  | cmd | msgBase | msgLen => cases h

/-- Settles O41: the registers named are not writable or not readable, and a value of `MSG_BASE` is
written only below `2^ADDR_WIDTH`. -/
theorem forbiddenAccessHasNoEffect : Obligations.ForbiddenAccessHasNoEffect := by
  intro s v reg hb
  refine ⟨fun hreg => ?_, fun hv => ?_, fun hreg => ?_⟩
  · have hno : reg.writable = false := by
      rcases hreg with rfl | rfl | ⟨j, rfl⟩ | ⟨n, rfl⟩ <;> rfl
    have hcmd : reg ≠ .cmd := by
      rintro rfl
      cases hno
    rw [exec_wr_register hb hcmd, writeRegister_of_not_writable hno]
  · rw [exec_wr_register hb (by simp), writeRegister, if_neg (Nat.not_lt.mpr hv)]
  · have hno : reg.readable = false := by
      rcases hreg with rfl | ⟨n, rfl⟩ <;> rfl
    rw [exec_rd_register hb, readRegister_of_not_readable hno]
    rfl

end Sys2Proof.Machine
end

section
/-! What the function units put out, bit by bit (40_mixing_primitives.md). -/

namespace Sys2Proof.Machine

/-! ### ADD32 -/

theorem toNat_add32 (x y : Word) : (add32 x y).toNat = (x.toNat + y.toNat) % 2 ^ 32 :=
  BitVec.toNat_add x y

/-- A running sum is reduced once, whatever it starts from (R60). -/
theorem toNat_foldl_add32 (xs : List Word) (a : Word) :
    (xs.foldl add32 a).toNat = (a.toNat + (xs.map BitVec.toNat).sum) % 2 ^ 32 := by
  induction xs generalizing a with
  | nil => exact (Nat.mod_eq_of_lt a.isLt).symm
  | cons x xs ih =>
    rw [List.foldl_cons, ih, toNat_add32, Nat.mod_add_mod, List.map_cons, List.sum_cons,
      Nat.add_assoc]

/-- Settles O5: a sum of words is the running sum from zero. -/
theorem addWrapsModulo : Obligations.AddWrapsModulo := by
  refine ⟨fun _ x y => ⟨add32 x y, rfl, toNat_add32 x y⟩, fun xs => ?_⟩
  simpa using toNat_foldl_add32 xs 0

/-! ### ROTR and SHR -/

/-- With `n mod 32 = 0` the part shifted left by 32 is zero, so the two branches of R61 are one. -/
theorem rotr_eq_rotateRight (x : Word) (n : Nat) : rotr x n = x.rotateRight n := by
  rw [rotr, BitVec.rotateRight_def]
  split_ifs with hn
  · simp [hn]
  · rfl

theorem getLsbD_rotr (x : Word) (n : Nat) {i : Nat} (hi : i < 32) :
    (rotr x n).getLsbD i = x.getLsbD ((i + n % 32) % 32) := by
  rw [rotr_eq_rotateRight, BitVec.getLsbD_rotateRight, Bool.cond_decide]
  split_ifs with hlow
  · have hinside : n % 32 + i = (i + n % 32) % 32 := by omega
    rw [hinside]
  · have hwrap : i - (32 - n % 32) = (i + n % 32) % 32 := by omega
    rw [hwrap, decide_eq_true hi, Bool.true_and]

theorem getLsbD_shr (x : Word) (n i : Nat) :
    (shr x n).getLsbD i = if i + n % 32 ≤ 31 then x.getLsbD (i + n % 32) else false := by
  rw [shr, BitVec.getLsbD_ushiftRight, Nat.add_comm]
  split_ifs with h
  · rfl
  · exact BitVec.getLsbD_of_ge x _ (by omega)

/-- Settles O6, by the bits of each unit. -/
theorem rotateAndShiftMoveBits : Obligations.RotateAndShiftMoveBits := fun _ x n =>
  ⟨rotr x n, shr x n, rfl, rfl, fun i hi => ⟨getLsbD_rotr x n hi, getLsbD_shr x n i⟩⟩

/-! ### CH and MAJ -/

theorem getLsbD_ch (x y z : Word) {i : Nat} (hi : i < 32) :
    (ch x y z).getLsbD i = if x.getLsbD i then y.getLsbD i else z.getLsbD i := by
  rw [ch, BitVec.getLsbD_xor, BitVec.getLsbD_and, BitVec.getLsbD_and, BitVec.getLsbD_not]
  cases x.getLsbD i <;> simp [hi]

/-- The vote of three bits is the exclusive-or of their conjunctions by pairs (R64's truth table). -/
theorem xor_and_pairs_eq_majority (a b c : Bool) :
    ((a && b ^^ a && c) ^^ b && c) = decide (2 ≤ a.toNat + b.toNat + c.toNat) := by
  decide +revert

theorem getLsbD_maj (x y z : Word) (i : Nat) :
    (maj x y z).getLsbD i =
      decide (2 ≤ (x.getLsbD i).toNat + (y.getLsbD i).toNat + (z.getLsbD i).toNat) := by
  rw [← xor_and_pairs_eq_majority]
  simp only [maj, BitVec.getLsbD_xor, BitVec.getLsbD_and]

/-- Settles O7, by the bits of each unit. -/
theorem chooseAndMajorityBits : Obligations.ChooseAndMajorityBits := fun _ x y z =>
  ⟨ch x y z, maj x y z, rfl, rfl, fun i hi => ⟨getLsbD_ch x y z hi, getLsbD_maj x y z i⟩⟩

/-! ### The sigma functions -/

/-- Settles O8, by the bits of each rotation. -/
theorem bigSigmaBits : Obligations.BigSigmaBits := by
  refine fun _ x => ⟨bsig0 x, bsig1 x, rfl, rfl, fun i hi => ⟨?_, ?_⟩⟩
  · simp only [bsig0, BitVec.getLsbD_xor, getLsbD_rotr x _ hi, Nat.reduceMod]
  · simp only [bsig1, BitVec.getLsbD_xor, getLsbD_rotr x _ hi, Nat.reduceMod]

/-- Settles O9, by the bits of each rotation and of the shift, whose bound `i + m ≤ 31` is `i ≤ 28` for
`m = 3` and `i ≤ 21` for `m = 10`. -/
theorem smallSigmaBits : Obligations.SmallSigmaBits := by
  refine fun _ x => ⟨ssig0 x, ssig1 x, rfl, rfl, fun i hi => ⟨?_, ?_⟩⟩
  · simp only [ssig0, BitVec.getLsbD_xor, getLsbD_rotr x _ hi, getLsbD_shr, Nat.reduceMod,
      Nat.reduceLeDiff]
  · simp only [ssig1, BitVec.getLsbD_xor, getLsbD_rotr x _ hi, getLsbD_shr, Nat.reduceMod,
      Nat.reduceLeDiff]

end Sys2Proof.Machine
end

section
/-! What the message schedule expander writes into `W` (41_message_schedule.md). -/

namespace Sys2Proof.Machine

/-! ### Big-endian words -/

theorem toNat_append_byte {n : Nat} (x : BitVec n) (b : Byte) :
    (x ++ b).toNat = x.toNat * 2 ^ 8 + b.toNat := by
  rw [BitVec.toNat_append, ← Nat.shiftLeft_add_eq_or_of_lt b.isLt, Nat.shiftLeft_eq]

theorem toNat_be32 (b0 b1 b2 b3 : Byte) :
    (be32 b0 b1 b2 b3).toNat =
      b0.toNat * 2 ^ 24 + b1.toNat * 2 ^ 16 + b2.toNat * 2 ^ 8 + b3.toNat := by
  simp only [be32, toNat_append_byte]
  omega

theorem toNat_blockWord (b : Block) (k : Fin 16) :
    (blockWord b k).toNat = b[4 * k.val].toNat * 2 ^ 24 + b[4 * k.val + 1].toNat * 2 ^ 16 +
      b[4 * k.val + 2].toNat * 2 ^ 8 + b[4 * k.val + 3].toNat :=
  toNat_be32 ..

/-- Settles O10: the words that `ldw_of_block` writes, read as numbers. -/
theorem ldwLoadsBigEndianWords : Obligations.LdwLoadsBigEndianWords := by
  refine fun s b hb => ⟨_, ldw_of_block hb, fun k hk => ?_, fun k hk hk16 => ?_⟩
  · refine ⟨blockWord b ⟨k, hk⟩, ?_, toNat_blockWord b ⟨k, hk⟩⟩
    rw [Vector.getElem_ofFn, dif_pos hk]
  · rw [Vector.getElem_ofFn, dif_neg (Nat.not_lt.mpr hk16)]
    rfl

/-! ### The recurrence -/

/-- The schedule that the recurrence of R72 makes of its first 16 words. -/
def scheduleFrom (m : Vector Word 16) : Schedule :=
  Vector.ofFn fun t => (expandWords 48 m.toList).getD t.val 0

theorem scheduleFrom_getElem (m : Vector Word 16) (t : Nat) (h : t < 64) :
    (scheduleFrom m)[t] = (expandWords 48 m.toList).getD t 0 := by
  rw [scheduleFrom, Vector.getElem_ofFn]

theorem scheduleFrom_first (m : Vector Word 16) (k : Nat) (h : k < 16) :
    (scheduleFrom m)[k] = m[k] := by
  have hlen : k < m.toList.length := by simpa using h
  rw [scheduleFrom_getElem, expandWords_getD_lt hlen, List.getD_eq_getElem _ _ hlen,
    Vector.getElem_toList]

/-- The recurrence of R72, from any first 16 words. -/
theorem scheduleFrom_next (m : Vector Word 16) (t : Nat) (h : t < 64) (h16 : 16 ≤ t) :
    (scheduleFrom m)[t] =
      ssig1 (scheduleFrom m)[t - 2] + (scheduleFrom m)[t - 7] + ssig0 (scheduleFrom m)[t - 15] +
        (scheduleFrom m)[t - 16] := by
  simp only [scheduleFrom_getElem]
  exact expandWords_getD (by simp) (by simpa using h16) (by simpa using h)

theorem firstWords_of_getElem {w : ScheduleRegs} {m : Vector Word 16}
    (h : ∀ k, (hk : k < 16) → w[k] = some m[k]) : firstWords w = some m.toList :=
  firstWords_eq_some.mpr ⟨Vector.length_toList, fun k _ hk => by
    rw [Vector.getElem_toList]
    exact h k (by simpa using hk)⟩

/-- `EXPAND` with `W[0..15]` given leaves the whole schedule in `W`, and changes nothing else (R72). -/
theorem expand_of_first {s : State} {m : Vector Word 16}
    (h : ∀ k, (hk : k < 16) → s.sched[k] = some m[k]) :
    expand s = .next { s with sched := fullSchedule (scheduleFrom m) } := by
  have hwords : (Vector.ofFn fun t : Fin 64 =>
      if t.val < 16 then s.sched[t] else some ((expandWords 48 m.toList).getD t.val 0)) =
      fullSchedule (scheduleFrom m) := by
    ext1 t ht
    rw [fullSchedule, Vector.getElem_ofFn, Vector.getElem_ofFn]
    split_ifs with h16
    · exact (h t h16).trans (congrArg some (scheduleFrom_first m t h16).symm)
    · exact congrArg some (scheduleFrom_getElem m t ht).symm
  rw [expand, firstWords_of_getElem h, need_some, hwords]

/-- Settles O11, by what the recurrence makes of the 16 words given. -/
theorem expandFollowsRecurrence : Obligations.ExpandFollowsRecurrence := fun _ m h =>
  ⟨scheduleFrom m, expand_of_first h, scheduleFrom_first m, scheduleFrom_next m⟩

/-- Settles O12: the words are `scheduleOf` of the block, which does not mention the state. -/
theorem schedIsFunctionOfBlock : Obligations.SchedIsFunctionOfBlock := fun _ b hb =>
  ⟨scheduleOf b, schedule_of_block hb,
    fun k hk =>
      (congrArg BitVec.toNat (scheduleOf_first b ⟨k, hk⟩)).trans (toNat_blockWord b ⟨k, hk⟩),
    scheduleOf_next b⟩

end Sys2Proof.Machine
end

section
/-! The compression of one block, as one operation and in its small steps (42_compression.md). -/

namespace Sys2Proof.Machine

/-! ### The operations -/

/-- Settles O13: `loadWorking` copies by position. -/
theorem cinitCopiesByPosition : Obligations.CinitCopiesByPosition := fun _ _ hh => cinit_of_hash hh

/-- Settles O14: `mixRound` takes `T1` and `T2` from the registers before the round. -/
theorem roundMixesOldValues : Obligations.RoundMixesOldValues := by
  rintro s t v w hv hw t1 t2 rfl rfl
  exact roundOp_of_work hv hw

/-- Settles O15: `addBack` adds by position. -/
theorem feedbackAddsBack : Obligations.FeedbackAddsBack := fun _ _ _ hh hv => feedback_of_work hh hv

/-! ### The operations of COMPRESS in order -/

theorem execAll_append (is js : List Instr) (s : State) :
    execAll (is ++ js) s = andThen (execAll is s) (execAll js) := by
  induction is generalizing s with
  | nil => rfl
  | cons i is ih =>
    rw [execAll, andThen_assoc]
    exact congrArg (andThen (exec i s)) (funext ih)

theorem execAll_singleton (i : Instr) (s : State) : execAll [i] s = exec i s := by
  simp only [execAll]
  cases exec i s <;> rfl

theorem mixRounds_zero (ws : Schedule) (v : Working) : mixRounds ws 0 (Nat.zero_le 64) v = v := by
  with_unfolding_all rfl

theorem mixRounds_succ (ws : Schedule) {n : Nat} (h : n < 64) (v : Working) :
    mixRounds ws (n + 1) h v =
      mixRound (roundConstant ⟨n, h⟩) ws[n] (mixRounds ws n (Nat.le_of_lt h) v) := by
  with_unfolding_all rfl

/-- The first `n` rounds over a whole schedule change the working registers alone (R77). -/
theorem execAll_take_rounds {s : State} {ws : Schedule} {v : Working}
    (hw : ∀ t, (ht : t < 64) → s.sched[t] = some ws[t]) (hv : s.work = some v) {n : Nat}
    (hn : n ≤ 64) :
    execAll (allRounds.take n) s = .next { s with work := some (mixRounds ws n hn v) } := by
  induction n with
  | zero =>
    rw [mixRounds_zero, ← hv]
    rfl
  | succ n ih =>
    have hlen : n < allRounds.length := by simpa [allRounds] using hn
    have hround : allRounds[n] = .round ⟨n, hn⟩ := by simp [allRounds]
    rw [← List.take_append_getElem hlen, execAll_append, ih (Nat.le_of_lt hn), andThen_next,
      execAll_singleton, hround, mixRounds_succ]
    exact roundOp_of_work (s := { s with work := some _ }) rfl (hw n hn)

theorem execAll_allRounds {s : State} {ws : Schedule} {v : Working}
    (hw : ∀ t, (ht : t < 64) → s.sched[t] = some ws[t]) (hv : s.work = some v) :
    execAll allRounds s = .next { s with work := some (mixRounds ws 64 le_rfl v) } := by
  rw [← execAll_take_rounds hw hv, List.take_of_length_le (by simp [allRounds])]

/-- Settles O16: `CINIT` loads `H`, the rounds are those of `compressHash`, and `FEEDBACK` adds them to
the `H` that is still there. -/
theorem compressIsItsSteps : Obligations.CompressIsItsSteps := by
  intro s h ws n hh hw hn
  refine ⟨{ s with hash := some (compressHash h ws), work := none }, ?_,
    compress_of_schedule hh (allWords_eq_some.mpr hw) hn⟩
  rw [execAll_append, execAll_append, execAll_singleton,
    show exec .cinit s = _ from cinit_of_hash hh, andThen_next,
    execAll_allRounds (s := { s with work := some _ }) hw rfl, andThen_next, execAll_singleton]
  exact feedback_of_work (s := { s with work := some _ }) hh rfl


/-! ### The position inside a block -/

/-- The row of R82's table at which `s` stands takes its block by `fetch` and ends with `after`, and no
other agent acts in the step. -/
inductive BlockRow (s : State) : ((Block → Result) → Result) → (State → Result) → Prop where
  | full {i nfull : Nat} (hev : s.events = []) (hq : s.seq = .sAbsorb) (hi : s.i = some i)
      (hn : s.nfull = some nfull) (hlt : i < nfull) : BlockRow s (withFullBlock s) afterAbsorb
  | pad (hev : s.events = []) (hq : s.seq = .sPadcomp) : BlockRow s (withPadBlock s) afterPadcomp

theorem step_of_busy {s : State} (hev : s.events = []) (hb : s.phase = .busy) :
    step s = busyStep s := by
  simp only [step, stepMachine, hev, ownStep, hb]

theorem phase_of_stepAt {s : State} {i : Instr} (h : stepAt s.seq = some i) : s.phase = .busy := by
  unfold State.phase
  cases hq : s.seq with
  | sIdle | sDone | sFault => simp [hq, stepAt] at h
  | _ => rfl

namespace BlockRow

variable {s : State} {fetch : (Block → Result) → Result} {after : State → Result}

/-- At the finest granularity the row is cut by `blockStep` (R81, log entry 10). -/
theorem step_of_round (h : BlockRow s fetch after) (hg : s.cfg.granularity = .round) :
    step s = blockStep fetch after s := by
  cases h with
  | full hev hq hi hn hlt =>
    rw [step_of_busy hev (phase_of_stepAt (i := .absorb) (hq ▸ rfl))]
    simp only [busyStep, hg, roundStep, hq, ifBlocksLeft, hi, hn, need_some, if_pos hlt]
  | pad hev hq =>
    rw [step_of_busy hev (phase_of_stepAt (i := .padcomp) (hq ▸ rfl))]
    simp only [busyStep, hg, roundStep, hq]

/-- The premise by which the statements on the finest granularity name the rows with a block. -/
theorem of_seq (hev : s.events = [])
    (hq : (s.seq = .sAbsorb ∧ ∃ i nfull : Nat, s.i = some i ∧ s.nfull = some nfull ∧ i < nfull) ∨
      s.seq = .sPadcomp) : ∃ fetch after, BlockRow s fetch after := by
  rcases hq with ⟨hq, i, nfull, hi, hn, hlt⟩ | hq
  · exact ⟨_, _, .full hev hq hi hn hlt⟩
  · exact ⟨_, _, .pad hev hq⟩

end BlockRow

/-! ### The small steps of a block -/

section

variable {s u : State} {fetch : (Block → Result) → Result} {after : State → Result}

theorem blockStep_of_start (hsub : s.sub = .start) :
    blockStep fetch after s = fetch fun b => beginBlock b s := by
  simp only [blockStep, hsub]

theorem blockStep_of_ldw (hsub : s.sub = .ldw) (hu : exec .ldw s = .next u) :
    blockStep fetch after s = .next { u with sub := .expand } := by
  simp only [blockStep, hsub, hu, andThen_next, toSub]

theorem blockStep_of_expand (hsub : s.sub = .expand) (hu : exec .expand s = .next u) :
    blockStep fetch after s = .next { u with sub := .cinit } := by
  simp only [blockStep, hsub, hu, andThen_next, toSub]

theorem blockStep_of_cinit (hsub : s.sub = .cinit) (hu : exec .cinit s = .next u) :
    blockStep fetch after s = .next { u with sub := .round, t := some 0 } := by
  simp only [blockStep, hsub, hu, andThen_next]

/-- One round, and on to the next or to `FEEDBACK` (R77, R79). -/
theorem blockStep_of_round {t : Fin 64} {v : Working} {w : Word} (hsub : s.sub = .round)
    (ht : s.t = some t) (hv : s.work = some v) (hw : s.sched[t] = some w) :
    blockStep fetch after s = .next { s with
      work := some (mixRound (roundConstant t) w v)
      t := if h : t.val + 1 < 64 then some ⟨t.val + 1, h⟩ else none
      sub := if t.val + 1 < 64 then .round else .feedback } := by
  have hround : exec (.round t) s = _ := roundOp_of_work hv hw
  simp only [blockStep, hsub, ht, need_some, hround, andThen_next, afterRound]
  split_ifs
  · rw [← hsub]
  · rfl

theorem feedback_eq_next (hu : feedback s = .next u) :
    ∃ h v, u = { s with hash := some (addBack h v), work := none } := by
  obtain ⟨h, -, hu⟩ := need_eq_next.mp hu
  obtain ⟨v, -, hu⟩ := need_eq_next.mp hu
  cases hu
  exact ⟨h, v, rfl⟩

/-- `FEEDBACK` also counts the block, and the row ends (R79, R82). -/
theorem blockStep_of_feedback {n : Quad} (hsub : s.sub = .feedback)
    (hu : exec .feedback s = .next u) (hn : s.blocks = some n) :
    blockStep fetch after s =
      after { u with sub := .start, blocks := some (n + 1), sched := noSchedule } := by
  obtain ⟨h, v, rfl⟩ := feedback_eq_next hu
  simp only [blockStep, hsub, hu, andThen_next, endBlock, countBlock, hn, need_some]

theorem afterAbsorb_of_counters {i nfull : Nat} (hi : s.i = some i) (hn : s.nfull = some nfull) :
    afterAbsorb s = .next { s with
      i := some (i + 1), seq := if i + 1 < nfull then .sAbsorb else .sTail } := by
  simp only [afterAbsorb, hi, hn, need_some]

theorem afterPadcomp_of_counters {j npad : Nat} (hj : s.j = some j) (hn : s.npad = some npad) :
    afterPadcomp s = .next { s with
      j := some (j + 1), seq := if j + 1 < npad then .sPadcomp else .sSerialize
      scratch := if j + 1 < npad then s.scratch else none } := by
  simp only [afterPadcomp, hj, hn, need_some]
  split_ifs <;> rfl

theorem withFullBlock_of_index {base : Quad} {i : Nat} (hb : s.base = some base) (hi : s.i = some i)
    (f : Block → Result) :
    withFullBlock s f =
      withMessageBytes s (base.toNat + 64 * i) 64 fun bs => f (toBuffer 64 bs) := by
  simp only [withFullBlock, hb, hi, need_some]

theorem withPadBlock_of_index {buf : Vector Byte 128} {j : Nat} (hS : s.scratch = some buf)
    (hj : s.j = some j) (hj2 : j < 2) (f : Block → Result) :
    withPadBlock s f = f (padBlock buf ⟨j, hj2⟩) := by
  simp only [withPadBlock, hS, hj, need_some, dif_pos hj2]

end

/-- Settles O55: both kinds of block are cut alike. -/
theorem finestStepRunsOneRound : Obligations.FinestStepRunsOneRound := by
  intro s t i nfull v w hev hg hq hsub ht hv hw
  obtain ⟨fetch, after, hrow⟩ := BlockRow.of_seq hev
    (hq.imp_left fun ⟨hq, hi, hn, hlt⟩ => ⟨hq, i, nfull, hi, hn, hlt⟩)
  rw [hrow.step_of_round hg, blockStep_of_round hsub ht hv hw]

/-- Settles O56, position by position: the fetch and the end of the row are those of the kind of block,
the positions between are alike. -/
theorem finestStepRunsBlockPositions : Obligations.FinestStepRunsBlockPositions := by
  intro s hev hg
  refine ⟨?_, ?_, ?_, ?_⟩
  · intro base i nfull hq hsub hb hi hn hlt
    have hstep : step s = withMessageBytes s (base.toNat + 64 * i) 64 fun bs =>
        beginBlock (toBuffer 64 bs) s := by
      rw [(BlockRow.full hev hq hi hn hlt).step_of_round hg, blockStep_of_start hsub,
        withFullBlock_of_index hb hi]
    rw [hstep]
    refine ⟨fun bs h => ?_, fun h => (ReadStops.of_busError h).withMessageBytes _,
      fun a h => (ReadStops.of_device h).withMessageBytes _⟩
    simp only [withMessageBytes, h, beginBlock]
  · intro buf j hq hsub hS hj hj2
    refine ⟨padBlock buf ⟨j, hj2⟩, fun k hk => by simp [padBlock], ?_⟩
    rw [(BlockRow.pad hev hq).step_of_round hg, blockStep_of_start hsub,
      withPadBlock_of_index hS hj hj2, beginBlock]
  · intro hq
    obtain ⟨fetch, after, hrow⟩ := BlockRow.of_seq hev hq
    rw [hrow.step_of_round hg]
    exact ⟨fun u => blockStep_of_ldw, fun u => blockStep_of_expand, fun u => blockStep_of_cinit⟩
  · intro u n hsub hu hblocks
    obtain ⟨h, v, rfl⟩ := feedback_eq_next hu
    constructor
    · intro i nfull hq hi hn hlt
      rw [(BlockRow.full hev hq hi hn hlt).step_of_round hg, blockStep_of_feedback hsub hu hblocks]
      exact afterAbsorb_of_counters hi hn
    · intro j npad hq hj hn
      rw [(BlockRow.pad hev hq).step_of_round hg, blockStep_of_feedback hsub hu hblocks]
      exact afterPadcomp_of_counters hj hn

end Sys2Proof.Machine
end

section
/-! A command run in steps, at every step granularity, against the command run in one (R81, R137, D25). -/

namespace Sys2Proof.Machine

/-! ### Runs of the machine -/

/-- The machine, going on from the first outcome, comes to the second. -/
inductive Leads : Result → Result → Prop where
  | refl (r : Result) : Leads r r
  | step {s : State} {r : Result} (h : Leads (step s) r) : Leads (.next s) r

namespace Leads

theorem of_step {s : State} {r : Result} (h : Machine.step s = r) : Leads (.next s) r :=
  .step (h ▸ .refl _)

theorem trans {p q r : Result} (h₁ : Leads p q) (h₂ : Leads q r) : Leads p r := by
  induction h₁ with
  | refl => exact h₂
  | step _ ih => exact .step (ih h₂)

theorem core_run_succ (n : Nat) (s : State) :
    Sys2Proof.core.run (n + 1) s = andThen (Machine.step s) (Sys2Proof.core.run n) := by
  have hstep : Sys2Proof.core.step s = Machine.step s := rfl
  simp only [Host.Core.run, hstep]
  cases Machine.step s <;> rfl

/-- It is a run of the machine as the host runs it. -/
theorem exists_run {q r : Result} (h : Leads q r) : ∃ n, andThen q (Sys2Proof.core.run n) = r := by
  induction h with
  | refl r => exact ⟨0, by cases r <;> rfl⟩
  | step _ ih =>
    obtain ⟨n, hn⟩ := ih
    exact ⟨n + 1, (core_run_succ n _).trans hn⟩

end Leads

/-! ### The rows of R82's table -/

/-- The sequencer is at the start of a row of R82's table, and no other agent acts. -/
structure State.RowStart (s : State) : Prop where
  events : s.events = []
  sub : s.sub = .start

theorem State.RowStart.of_same {s t : State} (h : s.RowStart) (he : t.events = s.events)
    (hsub : t.sub = .start) : t.RowStart :=
  ⟨he.trans h.events, hsub⟩

/-- Where blocks are not cut, the step is the operation that the position selects (R82). -/
theorem step_of_stepAt {s : State} {i : Instr} (hev : s.events = []) (hi : stepAt s.seq = some i)
    (hg : s.cfg.granularity ≠ .round) : step s = exec i s := by
  have htable : tableStep s = exec i s := by simp only [tableStep, hi]
  rw [step_of_busy hev (phase_of_stepAt hi), busyStep, ← htable]
  cases hg' : s.cfg.granularity with
  | command | sequencer => rfl
  | round => exact absurd hg' hg

/-- A row without a block is one step, also at the finest granularity (R82). -/
theorem step_of_row {s : State} {q : Seq} {i : Instr} (hs : s.RowStart) (hq : s.seq = q)
    (hi : stepAt q = some i) (hfull : q ≠ .sAbsorb) (hpad : q ≠ .sPadcomp) :
    step s = exec i s := by
  subst hq
  by_cases hg : s.cfg.granularity = .round
  · have htable : tableStep s = exec i s := by simp only [tableStep, hi]
    rw [step_of_busy hs.events (phase_of_stepAt hi), ← htable]
    simp only [busyStep, hg, roundStep]
    cases hq : s.seq with
    | sAbsorb => exact absurd hq hfull
    | sPadcomp => exact absurd hq hpad
    | _ => rfl
  · exact step_of_stepAt hs.events hi hg

/-- `S_ABSORB` with no full block left (R82). -/
theorem step_of_noBlockLeft {s : State} {i nfull : Nat} (hs : s.RowStart) (hq : s.seq = .sAbsorb)
    (hi : s.i = some i) (hn : s.nfull = some nfull) (hle : nfull ≤ i) :
    step s = .next { s with seq := .sTail } := by
  have hat : stepAt s.seq = some .absorb := hq ▸ rfl
  have habsorb : exec .absorb s = .next { s with seq := .sTail } := by
    simp only [exec, execAbsorb, ifBlocksLeft, hi, hn, need_some, if_neg (Nat.not_lt.mpr hle), goTo]
  by_cases hg : s.cfg.granularity = .round
  · rw [step_of_busy hs.events (phase_of_stepAt hat)]
    simp only [busyStep, hg, roundStep, hq, ifBlocksLeft, hi, hn, need_some,
      if_neg (Nat.not_lt.mpr hle), habsorb]
  · exact (step_of_stepAt hs.events hat hg).trans habsorb

/-! ### A row with a block -/

/-- The same position of the command, elsewhere in its block (R81). -/
def State.insideBlock (s : State) (block : Option Block) (sched : ScheduleRegs)
    (work : Option Working) (t : Option (Fin 64)) (sub : SubSeq) : State :=
  { s with block := block, sched := sched, work := work, t := t, sub := sub }

/-- The block `b` is folded into the running state `h` and counted (R79); `t` is what is left of the
round index. -/
def State.foldBlock (s : State) (b : Block) (h : Hash) (c : Quad) (t : Option (Fin 64)) : State :=
  { s.insideBlock (some b) noSchedule none t .start with
    hash := some (compressHash h (scheduleOf b)), blocks := some (c + 1) }

theorem scheduleFrom_blockWords (b : Block) :
    scheduleFrom (Vector.ofFn (blockWord b)) = scheduleOf b := by
  rw [scheduleFrom, scheduleOf, Vector.toList_ofFn, List.ofFn_eq_map]

namespace BlockRow

variable {s : State} {fetch : (Block → Result) → Result} {after : State → Result}

/-- Where blocks are not cut the row is one step (R82). -/
theorem step_of_not_round {b : Block} {h : Hash} {c : Quad} (hrow : BlockRow s fetch after)
    (hg : s.cfg.granularity ≠ .round) (hf : ∀ f, fetch f = f b) (hh : s.hash = some h)
    (hc : s.blocks = some c) :
    step s = after { s with
      block := some b, hash := some (compressHash h (scheduleOf b)), work := none
      sched := noSchedule, blocks := some (c + 1) } := by
  cases hrow with
  | full hev hq hi hn hlt =>
    rw [step_of_stepAt hev (i := .absorb) (hq ▸ rfl) hg]
    simp only [exec, execAbsorb, ifBlocksLeft, hi, hn, need_some, if_pos hlt, absorbBlock, hf,
      compressBlock_of_hash b hh hc, unlessFault_next, hq, reduceCtorEq, if_false]
  | pad hev hq =>
    rw [step_of_stepAt hev (i := .padcomp) (hq ▸ rfl) hg]
    simp only [exec, execPadcomp, padcompBlock, hf, compressBlock_of_hash b hh hc, andThen_next]

theorem step_insideBlock (hrow : BlockRow s fetch after) (hg : s.cfg.granularity = .round)
    (bl : Option Block) (sc : ScheduleRegs) (wk : Option Working) (t : Option (Fin 64))
    (sub : SubSeq) : ∃ fetch', step (s.insideBlock bl sc wk t sub) =
      blockStep fetch' after (s.insideBlock bl sc wk t sub) := by
  cases hrow with
  | full hev hq hi hn hlt =>
    exact ⟨_, step_of_round (s := s.insideBlock bl sc wk t sub) (.full hev hq hi hn hlt) hg⟩
  | pad hev hq => exact ⟨_, step_of_round (s := s.insideBlock bl sc wk t sub) (.pad hev hq) hg⟩

/-- `LDW` and `EXPAND`, a step each (R73). -/
theorem leads_schedule (hrow : BlockRow s fetch after) (hg : s.cfg.granularity = .round) (b : Block) :
    ∃ sc, (∀ t, (ht : t < 64) → sc[t] = some (scheduleOf b)[t]) ∧
      Leads (.next (s.insideBlock (some b) s.sched s.work s.t .ldw))
        (.next (s.insideBlock (some b) sc s.work s.t .cinit)) := by
  obtain ⟨sc, hldw, hfirst⟩ : ∃ sc : ScheduleRegs,
      exec .ldw (s.insideBlock (some b) s.sched s.work s.t .ldw) =
        .next (s.insideBlock (some b) sc s.work s.t .ldw) ∧
      ∀ k, (hk : k < 16) → sc[k] = some (Vector.ofFn (blockWord b))[k] :=
    ⟨_, ldw_of_block (s := s.insideBlock (some b) s.sched s.work s.t .ldw) rfl,
      fun k hk => by simp [hk]⟩
  obtain ⟨full, hexpand, hfull⟩ : ∃ full : ScheduleRegs,
      exec .expand (s.insideBlock (some b) sc s.work s.t .expand) =
        .next (s.insideBlock (some b) full s.work s.t .expand) ∧
      ∀ t, (ht : t < 64) → full[t] = some (scheduleOf b)[t] :=
    ⟨_, expand_of_first hfirst, by
      rw [scheduleFrom_blockWords]
      exact allWords_eq_some.mp (allWords_fullSchedule _)⟩
  obtain ⟨_, hstep⟩ := hrow.step_insideBlock hg (some b) s.sched s.work s.t .ldw
  obtain ⟨_, hstep'⟩ := hrow.step_insideBlock hg (some b) sc s.work s.t .expand
  exact ⟨full, hfull, (Leads.of_step (hstep.trans (blockStep_of_ldw rfl hldw))).trans
    (.of_step (hstep'.trans (blockStep_of_expand rfl hexpand)))⟩

/-- The first `n` rounds over a whole schedule, a step each (R77, R79). -/
theorem leads_rounds (hrow : BlockRow s fetch after) (hg : s.cfg.granularity = .round)
    (bl : Option Block) {sc : ScheduleRegs} {ws : Schedule}
    (hw : ∀ t, (ht : t < 64) → sc[t] = some ws[t]) (v : Working) {n : Nat} (hn : n ≤ 64) :
    Leads (.next (s.insideBlock bl sc (some v) (some 0) .round))
      (.next (s.insideBlock bl sc (some (mixRounds ws n hn v))
        (if h : n < 64 then some ⟨n, h⟩ else none) (if n < 64 then .round else .feedback))) := by
  induction n with
  | zero =>
    rw [mixRounds_zero]
    exact .refl _
  | succ n ih =>
    refine (ih (Nat.le_of_lt hn)).trans ?_
    obtain ⟨_, hstep⟩ := hrow.step_insideBlock hg bl sc
      (some (mixRounds ws n (Nat.le_of_lt hn) v)) (some ⟨n, hn⟩) .round
    rw [dif_pos (Nat.lt_of_succ_le hn), if_pos (Nat.lt_of_succ_le hn), mixRounds_succ]
    exact .of_step (hstep.trans (blockStep_of_round (t := ⟨n, hn⟩) rfl rfl rfl (hw n hn)))

/-- At the finest granularity the row is the 69 steps of its block (R81). -/
theorem leads_of_round {b : Block} {h : Hash} {c : Quad} (hrow : BlockRow s fetch after)
    (hg : s.cfg.granularity = .round) (hsub : s.sub = .start) (hf : ∀ f, fetch f = f b)
    (hh : s.hash = some h) (hc : s.blocks = some c) :
    Leads (.next s) (after (s.foldBlock b h c none)) := by
  have hstart : step s = .next (s.insideBlock (some b) s.sched s.work s.t .ldw) := by
    rw [hrow.step_of_round hg, blockStep_of_start hsub, hf]
    rfl
  obtain ⟨sc, hw, hsched⟩ := hrow.leads_schedule hg b
  obtain ⟨_, hstep⟩ := hrow.step_insideBlock hg (some b) sc s.work s.t .cinit
  have hcinit : exec .cinit (s.insideBlock (some b) sc s.work s.t .cinit) = _ :=
    cinit_of_hash (s := s.insideBlock (some b) sc s.work s.t .cinit) hh
  obtain ⟨_, hstep'⟩ := hrow.step_insideBlock hg (some b) sc
    (some (mixRounds (scheduleOf b) 64 le_rfl (loadWorking h))) none .feedback
  have hfeedback : exec .feedback (s.insideBlock (some b) sc
      (some (mixRounds (scheduleOf b) 64 le_rfl (loadWorking h))) none .feedback) = _ :=
    feedback_of_work hh rfl
  refine (Leads.of_step hstart).trans (hsched.trans ?_)
  refine (Leads.of_step (hstep.trans (blockStep_of_cinit rfl hcinit))).trans ?_
  refine (hrow.leads_rounds hg (some b) hw (loadWorking h) le_rfl).trans ?_
  exact .of_step (hstep'.trans (blockStep_of_feedback rfl hfeedback hc))

/-- A row with a block, cut or not: only the round index differs. -/
theorem leads {b : Block} {h : Hash} {c : Quad} (hrow : BlockRow s fetch after) (hs : s.RowStart)
    (hf : ∀ f, fetch f = f b) (hh : s.hash = some h) (hc : s.blocks = some c) :
    ∃ t, Leads (.next s) (after (s.foldBlock b h c t)) := by
  by_cases hg : s.cfg.granularity = .round
  · exact ⟨none, hrow.leads_of_round hg hs.sub hf hh hc⟩
  · refine ⟨s.t, .of_step ((hrow.step_of_not_round hg hf hh hc).trans ?_)⟩
    rw [State.foldBlock, State.insideBlock, ← hs.sub]

end BlockRow

/-! ### The loops over the blocks -/

theorem withFullBlock_of_bytes {s : State} {base : Quad} {i : Nat} {bs : List Byte}
    (hb : s.base = some base) (hi : s.i = some i)
    (hbs : readBytes s (base.toNat + 64 * i) 64 = .bytes bs) (f : Block → Result) :
    withFullBlock s f = f (toBuffer 64 bs) := by
  rw [withFullBlock_of_index hb hi, withMessageBytes, hbs]

/-- A read of `n + 1` blocks is a read of one and a read of `n` (R35). -/
theorem readBytes_firstBlock {s : State} {a n : Nat} {bs : List Byte}
    (h : readBytes s a (64 * (n + 1)) = .bytes bs) :
    ∃ first, toBuffer 64 first = toBuffer 64 bs ∧ readBytes s a 64 = .bytes first ∧
      readBytes s (a + 64) (64 * n) = .bytes (bs.drop 64) := by
  have hlen := readBytes_length h
  refine ⟨bs.take 64, ?_, readBytes_part h (o := 0) (by omega), ?_⟩
  · rw [← toBuffer_append (cs := bs.drop 64) (by simp; omega), List.take_append_drop]
  · rw [readBytes_part h (by omega), List.take_of_length_le (by simp; omega)]

theorem blocks_succ (c : Quad) (n : Nat) :
    c + 1 + BitVec.ofNat 64 n = c + BitVec.ofNat 64 (n + 1) := by
  rw [BitVec.add_assoc, Nat.add_comm, BitVec.ofNat_add]
  rfl

/-- `n` readable full blocks from block `i` on (R82, R85). -/
theorem leads_fullBlocks {n : Nat} {s : State} {base : Quad} {i nfull : Nat} {bs : List Byte}
    {h : Hash} {c : Quad} (hs : s.RowStart) (hb : s.base = some base) (hi : s.i = some i)
    (hnf : s.nfull = some nfull) (hle : i + n ≤ nfull) (hh : s.hash = some h)
    (hc : s.blocks = some c) (hq : s.seq = if i < nfull then .sAbsorb else .sTail)
    (hr : readBytes s (base.toNat + 64 * i) (64 * n) = .bytes bs) :
    ∃ bl sc wk t, Leads (.next s) (.next (State.insideBlock { s with
      hash := some (hashPieces n bs h), blocks := some (c + BitVec.ofNat 64 n), i := some (i + n)
      seq := if i + n < nfull then .sAbsorb else .sTail } bl sc wk t .start)) := by
  induction n generalizing s i bs h c with
  | zero =>
    refine ⟨s.block, s.sched, s.work, s.t, ?_⟩
    rw [hashPieces, BitVec.add_zero, Nat.add_zero, ← hh, ← hc, ← hi, ← hq, ← hs.sub]
    exact .refl _
  | succ n ih =>
    have hlt : i < nfull := by omega
    rw [if_pos hlt] at hq
    obtain ⟨first, hfirst, hread, hrest⟩ := readBytes_firstBlock hr
    obtain ⟨t, hrow⟩ := (BlockRow.full hs.events hq hi hnf hlt).leads hs
      (withFullBlock_of_bytes hb hi hread) hh hc
    rw [hfirst, afterAbsorb_of_counters (s := s.foldBlock _ h c t) hi hnf] at hrow
    obtain ⟨bl, sc, wk, t', hloop⟩ := ih
      (s := { s.foldBlock (toBuffer 64 bs) h c t with
        i := some (i + 1), seq := if i + 1 < nfull then .sAbsorb else .sTail })
      (hs.of_same rfl rfl) hb rfl hnf (by omega) rfl rfl rfl
      (readBytes_of_sameMemory hrest rfl rfl rfl)
    rw [blocks_succ, Nat.add_assoc, Nat.add_comm 1 n] at hloop
    exact ⟨bl, sc, wk, t', hrow.trans hloop⟩

/-- `n` pad blocks from pad block `j` on, the last of the command (R82, R91). -/
theorem leads_padBlocks {n : Nat} {s : State} {buf : Vector Byte 128} {j npad : Nat}
    {P : List Byte} {h : Hash} {c : Quad} (hs : s.RowStart)
    (hS : j < npad → s.scratch = some buf) (hj : s.j = some j) (hnp : s.npad = some npad)
    (hle : j + n = npad) (hnp2 : npad ≤ 2) (hh : s.hash = some h) (hc : s.blocks = some c)
    (hq : s.seq = if j < npad then .sPadcomp else .sSerialize)
    (hP : ∀ k, (hk : k < 128) → k < 64 * npad → buf[k] = P.getD k 0) :
    ∃ S bl sc wk t, Leads (.next s) (.next (State.insideBlock { s with
      hash := some (hashPieces n (P.drop (64 * j)) h), blocks := some (c + BitVec.ofNat 64 n)
      j := some (j + n), scratch := S, seq := .sSerialize } bl sc wk t .start)) := by
  induction n generalizing s j h c with
  | zero =>
    refine ⟨s.scratch, s.block, s.sched, s.work, s.t, ?_⟩
    rw [if_neg (by omega)] at hq
    rw [hashPieces, BitVec.add_zero, Nat.add_zero, ← hh, ← hc, ← hj, ← hq, ← hs.sub]
    exact .refl _
  | succ n ih =>
    have hlt : j < npad := by omega
    rw [if_pos hlt] at hq
    have hblock : padBlock buf ⟨j, by omega⟩ = toBuffer 64 (P.drop (64 * j)) := by
      ext1 k hk
      simp [padBlock, toBuffer, hP (64 * j + k) (by omega) (by omega)]
    obtain ⟨t, hrow⟩ := (BlockRow.pad hs.events hq).leads hs
      (withPadBlock_of_index (hS hlt) hj (by omega)) hh hc
    rw [hblock, afterPadcomp_of_counters (s := s.foldBlock _ h c t) hj hnp] at hrow
    obtain ⟨S, bl, sc, wk, t', hloop⟩ := ih
      (s := { s.foldBlock (toBuffer 64 (P.drop (64 * j))) h c t with
        j := some (j + 1), seq := if j + 1 < npad then .sPadcomp else .sSerialize
        scratch := if j + 1 < npad then s.scratch else none })
      (hs.of_same rfl rfl) (fun hlt' => (if_pos hlt').trans (hS hlt)) rfl hnp (by omega) rfl rfl
      rfl
    rw [blocks_succ, Nat.add_assoc, Nat.add_comm 1 n, Nat.mul_add_one, ← List.drop_drop] at hloop
    exact ⟨S, bl, sc, wk, t', hrow.trans hloop⟩

/-! ### The rows without a block -/

theorem step_of_sCheck {s : State} {base len : Quad} (hs : s.RowStart) (hq : s.seq = .sCheck)
    (hb : s.base = some base) (hl : s.len = some len)
    (ha : argumentError s.cfg base len = none) :
    step s = .next { s with
      digest := none, blocks := none, nfull := some (len.toNat / 64)
      rest := some (len.toNat % 64), seq := .sInit } := by
  rw [step_of_row hs hq rfl nofun nofun]
  simp only [exec, execCheck, check_of_arguments hb hl ha, unlessFault_next, hq, reduceCtorEq,
    if_false, goTo]

theorem step_of_sCheck_of_argumentError {s : State} {base len : Quad} {x : Err} (hs : s.RowStart)
    (hq : s.seq = .sCheck) (hb : s.base = some base) (hl : s.len = some len)
    (hx : argumentError s.cfg base len = some x) : step s = .next (raise x s) := by
  rw [step_of_row hs hq rfl nofun nofun]
  simp only [exec, execCheck, check, hb, hl, need_some, hx, unlessFault_raise]

theorem step_of_sInit {s : State} (hs : s.RowStart) (hq : s.seq = .sInit) :
    step s = .next { init s with seq := .sAbsorb } :=
  step_of_row hs hq rfl nofun nofun

theorem step_of_sTail {s : State} (hs : s.RowStart) (hq : s.seq = .sTail) :
    step s = unlessFault (tail s) (goTo .sPadlen) :=
  step_of_row hs hq rfl nofun nofun

theorem step_of_sTail_of_bytes {s : State} {base : Quad} {nfull rest : Nat} {bs : List Byte}
    (hs : s.RowStart) (hq : s.seq = .sTail) (hb : s.base = some base) (hn : s.nfull = some nfull)
    (hr : s.rest = some rest) (hbs : readBytes s (base.toNat + 64 * nfull) rest = .bytes bs) :
    step s = .next { s with scratch := some (tailBuffer rest bs), seq := .sPadlen } := by
  simp only [step_of_sTail hs hq, tail_of_bytes hb hn hr hbs, unlessFault_next, hq, reduceCtorEq,
    if_false, goTo]

theorem step_of_sTail_of_readStops {s : State} {base : Quad} {nfull rest : Nat} {r : Result}
    (hs : s.RowStart) (hq : s.seq = .sTail) (hb : s.base = some base) (hn : s.nfull = some nfull)
    (hr : s.rest = some rest)
    (hstop : ReadStops s (readBytes s (base.toNat + 64 * nfull) rest) r) : step s = r := by
  rw [step_of_sTail hs hq, tail_of_readStops hb hn hr hstop, hstop.unlessFault]

theorem step_of_sPadlen {s : State} {len : Quad} {rest : Nat} {buf : Vector Byte 128}
    (hs : s.RowStart) (hq : s.seq = .sPadlen) (hl : s.len = some len) (hr : s.rest = some rest)
    (hS : s.scratch = some buf) :
    step s = .next { s with
      bitLength := some (len * 8), npad := some (padBlocks rest), j := some 0, seq := .sPadcomp
      scratch := some (putLength (len * 8) (lengthAt (padBlocks rest)) buf) } := by
  rw [step_of_row hs hq rfl nofun nofun]
  simp only [exec, execPadlen, padlen_of_scratch hl hr hS, andThen_next]

theorem step_of_sSerialize {s : State} {h : Hash} (hs : s.RowStart) (hq : s.seq = .sSerialize)
    (hh : s.hash = some h) (hd : s.disturbed = false) :
    step s = .next { discardInternals s with digest := some (digestBytes h), seq := .sDone } :=
  (step_of_row hs hq rfl nofun nofun).trans
    (serialize_of_hash hh hd)

/-! ### The command in rows -/

/-- `CHECK` and `INIT` have passed, and the first block is next (R83, R84). -/
def State.begun (s : State) (len : Quad) : State :=
  { init s with
    digest := none, nfull := some (len.toNat / 64), rest := some (len.toNat % 64)
    seq := if 0 < len.toNat / 64 then .sAbsorb else .sTail }

/-- The rows `S_CHECK` and `S_INIT`, and `S_ABSORB` when there is no full block. -/
theorem leads_begun {s : State} {base len : Quad} (hs : s.RowStart) (hq : s.seq = .sCheck)
    (hb : s.base = some base) (hl : s.len = some len)
    (ha : argumentError s.cfg base len = none) : Leads (.next s) (.next (s.begun len)) := by
  refine .trans (.of_step (step_of_sCheck hs hq hb hl ha)) ?_
  refine .trans (.of_step (step_of_sInit (hs.of_same rfl hs.sub) rfl)) ?_
  by_cases hblock : 0 < len.toNat / 64
  · rw [State.begun, if_pos hblock]
    exact .refl _
  · rw [State.begun, if_neg hblock]
    exact .of_step (step_of_noBlockLeft (hs.of_same rfl hs.sub) rfl rfl rfl
      (Nat.not_lt.mp hblock))

/-- The rows from `S_TAIL` on, when the message can be read (R86 to R92). -/
theorem leads_digestEnd_of_message {s : State} {base len c : Quad} {h : Hash} {m : List Byte}
    (hs : s.RowStart) (hq : s.seq = .sTail) (hd : s.disturbed = false) (hb : s.base = some base)
    (hl : s.len = some len) (hnf : s.nfull = some (len.toNat / 64))
    (hr : s.rest = some (len.toNat % 64)) (hh : s.hash = some h) (hc : s.blocks = some c)
    (hm : readBytes s base.toNat len.toNat = .bytes m) :
    Leads (.next s) (.next { discardInternals s with
      seq := .sDone
      digest := some (digestBytes (hashPieces (padBlocks (len.toNat % 64))
        ((paddedMessage m).drop (64 * (len.toNat / 64))) h))
      blocks := some (c + BitVec.ofNat 64 (padBlocks (len.toNat % 64))) }) := by
  have hlen : m.length = len.toNat := readBytes_length hm
  have hleft : readBytes s (base.toNat + 64 * (len.toNat / 64)) (len.toNat % 64) =
      .bytes (m.drop (64 * (len.toNat / 64))) := by
    rw [readBytes_part hm (by omega), List.take_of_length_le (by simp; omega)]
  have hpadded := padded_getD m len hlen.symm
  rw [hlen] at hpadded
  have hnpad : padBlocks (len.toNat % 64) = 1 ∨ padBlocks (len.toNat % 64) = 2 := by
    rw [padBlocks_eq]; split <;> simp
  refine .trans (.of_step (step_of_sTail_of_bytes hs hq hb hnf hr hleft)) ?_
  refine .trans (.of_step (step_of_sPadlen (hs.of_same rfl hs.sub) rfl hl hr rfl)) ?_
  obtain ⟨S, bl, sc, wk, t, hpad⟩ := leads_padBlocks
    (s := { s with
      bitLength := some (len * 8), npad := some (padBlocks (len.toNat % 64)), j := some 0
      scratch := some (putLength (len * 8) (lengthAt (padBlocks (len.toNat % 64)))
        (tailBuffer (len.toNat % 64) (m.drop (64 * (len.toNat / 64)))))
      seq := .sPadcomp })
    (hs.of_same rfl hs.sub) (fun _ => rfl) rfl rfl (Nat.zero_add _) (by omega) hh hc
    (if_pos (by omega)).symm hpadded
  exact hpad.trans (.of_step (step_of_sSerialize (hs.of_same rfl rfl) rfl rfl hd))

/-- The first `n` full blocks, all readable (R83 to R85). -/
theorem leads_firstBlocks {s : State} {base len : Quad} {n : Nat} {bs : List Byte}
    (hs : s.RowStart) (hq : s.seq = .sCheck) (hb : s.base = some base) (hl : s.len = some len)
    (ha : argumentError s.cfg base len = none) (hn : n ≤ len.toNat / 64)
    (hr : readBytes s base.toNat (64 * n) = .bytes bs) :
    ∃ bl sc wk t, Leads (.next s) (.next (State.insideBlock { s.begun len with
      hash := some (hashPieces n bs iv), blocks := some (BitVec.ofNat 64 n), i := some n
      seq := if n < len.toNat / 64 then .sAbsorb else .sTail } bl sc wk t .start)) := by
  obtain ⟨bl, sc, wk, t, hloop⟩ := leads_fullBlocks (s := s.begun len) (i := 0) (c := 0)
    (hs.of_same rfl hs.sub) hb rfl rfl ((Nat.zero_add n).symm ▸ hn) rfl rfl rfl
    (readBytes_of_sameMemory hr rfl rfl rfl)
  rw [zero_add, Nat.zero_add] at hloop
  exact ⟨bl, sc, wk, t, (leads_begun hs hq hb hl ha).trans hloop⟩

theorem leads_digestBody_of_message {s : State} {base len : Quad} {m : List Byte}
    (hs : s.RowStart) (hq : s.seq = .sCheck) (hd : s.disturbed = false) (hb : s.base = some base)
    (hl : s.len = some len) (ha : argumentError s.cfg base len = none)
    (hm : readBytes s base.toNat len.toNat = .bytes m) : Leads (.next s) (digestBody s) := by
  obtain ⟨bl, sc, wk, t, habsorb⟩ := leads_firstBlocks hs hq hb hl ha le_rfl
    (readBytes_part hm (o := 0) (by omega))
  rw [if_neg (Nat.lt_irrefl _)] at habsorb
  refine habsorb.trans (.trans (leads_digestEnd_of_message (hs.of_same rfl rfl) rfl hd hb hl rfl
    rfl rfl rfl (readBytes_of_sameMemory hm rfl rfl rfl)) ?_)
  rw [digestBody_of_message (by simp [hq]) hd hb hl ha hm, messageDigest_eq_digestBytes, blockCount,
    BitVec.ofNat_add, readBytes_length hm]
  exact .refl _

/-! ### The command whose message cannot be read -/

/-- A read of `n` blocks that stops does so in one of them, the first that cannot be read. -/
theorem ReadStops.exists_block {s : State} {a n : Nat} {r : Result}
    (h : ReadStops s (readBytes s a (64 * n)) r) :
    ∃ k < n, ∃ bs, readBytes s a (64 * k) = .bytes bs ∧
      ReadStops s (readBytes s (a + 64 * k) 64) r := by
  induction n with
  | zero => nomatch h
  | succ n ih =>
    rcases h.append with hbefore | ⟨bs, hbs, hlast⟩
    · obtain ⟨k, hk, hstop⟩ := ih hbefore
      exact ⟨k, Nat.lt_succ_of_lt hk, hstop⟩
    · exact ⟨n, Nat.lt_succ_self n, bs, hbs, hlast⟩

/-- A full block that cannot be read ends the command, cut or not (R114). -/
theorem step_of_sAbsorb_of_readStops {s : State} {base : Quad} {i nfull : Nat} {r : Result}
    (hs : s.RowStart) (hq : s.seq = .sAbsorb) (hb : s.base = some base) (hi : s.i = some i)
    (hn : s.nfull = some nfull) (hlt : i < nfull)
    (hstop : ReadStops s (readBytes s (base.toNat + 64 * i) 64) r) : step s = r := by
  by_cases hg : s.cfg.granularity = .round
  · rw [(BlockRow.full hs.events hq hi hn hlt).step_of_round hg, blockStep_of_start hs.sub,
      withFullBlock_of_index hb hi, hstop.withMessageBytes]
  · rw [step_of_stepAt hs.events (i := .absorb) (hq ▸ rfl) hg]
    simp only [exec, execAbsorb, ifBlocksLeft, hi, hn, need_some, if_pos hlt,
      absorbBlock_of_readStops hb hi hstop, hstop.unlessFault]

theorem leads_digestBody_of_readStops {s : State} {base len : Quad} {r : Result}
    (hs : s.RowStart) (hq : s.seq = .sCheck) (hb : s.base = some base)
    (hl : s.len = some len) (ha : argumentError s.cfg base len = none)
    (hstop : ReadStops s (readBytes s base.toNat len.toNat) r) : Leads (.next s) (digestBody s) := by
  rw [digestBody_of_readStops (by simp [hq]) hb hl ha hstop]
  rw [← Nat.div_add_mod len.toNat 64] at hstop
  rcases hstop.append with hfull | ⟨bs, hbs, hleft⟩
  · obtain ⟨k, hk, bs, hbs, hblock⟩ := hfull.exists_block
    obtain ⟨bl, sc, wk, t, habsorb⟩ := leads_firstBlocks hs hq hb hl ha hk.le hbs
    exact habsorb.trans (.of_step (step_of_sAbsorb_of_readStops (hs.of_same rfl rfl)
      (if_pos hk) hb rfl rfl hk (hblock.of_sameRaise rfl)))
  · obtain ⟨bl, sc, wk, t, habsorb⟩ := leads_firstBlocks hs hq hb hl ha le_rfl hbs
    rw [if_neg (Nat.lt_irrefl _)] at habsorb
    exact habsorb.trans (.of_step (step_of_sTail_of_readStops (hs.of_same rfl rfl) rfl hb rfl rfl
      (hleft.of_sameRaise rfl)))

/-! ### The end of a command -/

/-- The end of a command with these operands, said without its steps (R83, R93, R117). -/
def commandEnd (base len : Quad) (s : State) : Result :=
  match argumentError s.cfg base len with
  | some x => .next (raise x s)
  | none => withMessageBytes s base.toNat len.toNat fun m => .next { discardInternals s with
      seq := .sDone, digest := some (messageDigest m)
      blocks := some (BitVec.ofNat 64 (blockCount m.length)) }

theorem digestBody_acceptDigest (s : State) :
    digestBody (acceptDigest s) = commandEnd s.msgBase s.msgLen (acceptDigest s) := by
  unfold commandEnd
  cases ha : argumentError (acceptDigest s).cfg s.msgBase s.msgLen with
  | some x => exact digestBody_of_argumentError rfl rfl ha
  | none => exact digestBody_of_arguments (by simp) rfl rfl rfl ha

theorem exec_digest_eq_commandEnd {s : State} (hacc : s.accepting)
    (hg : s.cfg.granularity = .command) :
    exec .digest s = commandEnd s.msgBase s.msgLen (acceptDigest s) := by
  rw [exec_digest_of_accepting hacc, runDigest_of_command hg, digestBody_acceptDigest]

theorem commandEnd_ne_fault (base len : Quad) (s : State) (x : Fault) :
    commandEnd base len s ≠ .fault x := by
  unfold commandEnd withMessageBytes
  cases argumentError s.cfg base len with
  | some y => nofun
  | none => cases readBytes s base.toNat len.toNat <;> nofun

/-- The step granularity plays no part in how a command ends (R81, D25). -/
theorem commandEnd_atGranularity (g : StepGranularity) (base len : Quad) (s : State) :
    commandEnd base len (s.atGranularity g) =
      mapNext (State.atGranularity g) (commandEnd base len s) := by
  have hread : readBytes (s.atGranularity g) base.toNat len.toNat =
      readBytes s base.toNat len.toNat :=
    readBytes_congr (s := s) (t := s.atGranularity g) rfl rfl rfl _ _
  have harg : argumentError (s.atGranularity g).cfg base len = argumentError s.cfg base len := rfl
  simp only [commandEnd, harg, withMessageBytes, hread]
  cases argumentError s.cfg base len with
  | some x => rfl
  | none => cases readBytes s base.toNat len.toNat <;> rfl

/-- An accepted command comes to the end of its body, at every granularity (R82). -/
theorem leads_digestBody {s : State} (hev : s.events = []) :
    Leads (runDigest s) (digestBody (acceptDigest s)) := by
  by_cases hg : s.cfg.granularity = .command
  · rw [runDigest_of_command hg]
    exact .refl _
  · rw [runDigest_of_finer hg]
    have hs : (acceptDigest s).RowStart := ⟨hev, rfl⟩
    cases ha : argumentError (acceptDigest s).cfg s.msgBase s.msgLen with
    | some x =>
      rw [digestBody_of_argumentError rfl rfl ha]
      exact .of_step (step_of_sCheck_of_argumentError hs rfl rfl rfl ha)
    | none =>
      cases hr : readBytes (acceptDigest s) s.msgBase.toNat s.msgLen.toNat with
      | bytes m => exact leads_digestBody_of_message hs rfl rfl rfl rfl ha hr
      | busError => exact leads_digestBody_of_readStops hs rfl rfl rfl ha (.of_busError hr)
      | device x => exact leads_digestBody_of_readStops hs rfl rfl rfl ha (.of_device hr)

/-- The host's next line is the command (R45, R136). -/
theorem step_of_digestLine {s : State} {p : List HostAction} (hacc : s.accepting)
    (hev : s.events = []) (hp : s.program = .command 1 :: p) :
    step s = runDigest { s with program := p } := by
  have hexec : exec .digest { s with program := p } = _ :=
    exec_digest_of_accepting (s := { s with program := p }) hacc
  rw [← hexec]
  rcases hacc with h | h <;>
    simp only [step, stepMachine, hev, ownStep, h, hp, runAction, runWord, decode, decodeCommand,
      if_true]

/-- Settles O34: the command ends as its operands and its message say, which do not depend on the
granularity, and at each granularity the machine comes to that end. -/
theorem granularitiesEndAlike : Obligations.GranularitiesEndAlike := by
  intro s g p hacc hev
  have hcommand := exec_digest_eq_commandEnd
    (s := State.atGranularity .command { s with program := p }) hacc rfl
  have hlead : Leads (.next (State.atGranularity g { s with program := .command 1 :: p }))
      (mapNext (State.atGranularity g)
        (exec .digest (State.atGranularity .command { s with program := p }))) := by
    have hbody := leads_digestBody (s := State.atGranularity g { s with program := p }) hev
    rw [digestBody_acceptDigest] at hbody
    rw [hcommand, ← commandEnd_atGranularity]
    exact .trans (.of_step (step_of_digestLine hacc hev rfl)) hbody
  obtain ⟨n, hn⟩ := hlead.exists_run
  refine ⟨n, ?_⟩
  cases hr : exec .digest (State.atGranularity .command { s with program := p }) with
  | next t => rwa [hr] at hn
  | refused x => rwa [hr] at hn
  | fault x => exact commandEnd_ne_fault _ _ _ x (hcommand.symm.trans hr)

end Sys2Proof.Machine
end

section
/-! The rows of R82's table, one by one, and a machine whose host keeps its duties
(43_padding_driver.md). -/

namespace Sys2Proof.Machine

/-! ### S_CHECK, S_INIT -/

/-- Settles O19: arguments that pass name no cause. -/
theorem checkComputesCounts : Obligations.CheckComputesCounts := by
  intro s base len hq hb hl hbase hlen hmax
  have hnf : s.seq ≠ .sFault := by simp [hq]
  have hnone : argumentError s.cfg base len = none :=
    argumentError_of_goodArguments (s := { s with msgBase := base, msgLen := len })
      ⟨hbase, hlen, hmax⟩
  simp only [exec, execCheck, check_of_arguments hb hl hnone, unlessFault_next, if_neg hnf, goTo]

theorem argumentError_of_nullBase (cfg : Config) (len : Quad) :
    argumentError cfg 0 len = some .nullRef :=
  if_pos rfl

theorem argumentError_of_zeroLen {cfg : Config} {base : Quad} (hbase : base ≠ 0)
    (hrej : cfg.emptyPolicy = .reject) : argumentError cfg base 0 = some .zeroLen := by
  rw [argumentError, nullBase, if_neg hbase, if_pos ⟨rfl, hrej⟩]

/-- A length above the maximum is not 0, so `ZERO_LEN` is no cause before (R116). -/
theorem argumentError_of_lenOverflow (cfg : Config) {base len : Quad} (hbase : base ≠ 0)
    (hlen : 2 ^ 61 - 1 < len.toNat) : argumentError cfg base len = some .lenOverflow := by
  have hne : ¬ (len = 0 ∧ cfg.emptyPolicy = .reject) := by
    rintro ⟨rfl, -⟩
    simp at hlen
  rw [argumentError, nullBase, maxLenBytes, if_neg hbase, if_neg hne, if_pos hlen]

theorem exec_check_of_argumentError {s : State} {base len : Quad} {x : Err} (hb : s.base = some base)
    (hl : s.len = some len) (hx : argumentError s.cfg base len = some x) :
    exec .check s = .next (raise x s) := by
  simp only [exec, execCheck, check, hb, hl, need_some, hx, unlessFault_raise]

/-- Settles O20, cause by cause. -/
theorem checkRaisesFirstCause : Obligations.CheckRaisesFirstCause := by
  intro s base len hb hl
  refine ⟨?_, ?_, fun hbase hlen => ?_⟩
  · rintro rfl
    exact exec_check_of_argumentError hb hl (argumentError_of_nullBase _ _)
  · rintro hbase rfl hrej
    exact exec_check_of_argumentError hb hl (argumentError_of_zeroLen hbase hrej)
  · exact exec_check_of_argumentError hb hl (argumentError_of_lenOverflow _ hbase hlen)

/-- The words of R12's table of `IV`, one by one. -/
theorem iv_eq : iv = #v[0x6a09e667, 0xbb67ae85, 0x3c6ef372, 0xa54ff53a,
    0x510e527f, 0x9b05688c, 0x1f83d9ab, 0x5be0cd19] := by
  decide

/-- Settles O21: `INIT` writes `iv`. -/
theorem initSeedsRunningState : Obligations.InitSeedsRunningState := by
  intro s
  rw [← iv_eq]
  rfl

/-! ### S_ABSORB, S_TAIL -/

theorem execAbsorb_of_blockLeft {s : State} {i nfull : Nat} (hi : s.i = some i)
    (hn : s.nfull = some nfull) (hlt : i < nfull) :
    execAbsorb s = unlessFault (absorbBlock s) afterAbsorb := by
  simp only [execAbsorb, ifBlocksLeft, hi, hn, need_some, if_pos hlt]

theorem execAbsorb_of_noBlockLeft {s : State} {i nfull : Nat} (hi : s.i = some i)
    (hn : s.nfull = some nfull) (hle : ¬ i < nfull) :
    execAbsorb s = .next { s with seq := .sTail } := by
  simp only [execAbsorb, ifBlocksLeft, hi, hn, need_some, if_neg hle, goTo]

/-- Settles O22: the block is folded in by `absorbBlock_of_bytes`, and the row goes on by its counters. -/
theorem absorbProcessesOneBlock : Obligations.AbsorbProcessesOneBlock := by
  intro s base i nfull bs h n hq hb hi hn hh hc
  refine ⟨fun hlt hbs => ?_, execAbsorb_of_noBlockLeft hi hn⟩
  have hnf : s.seq ≠ .sFault := by simp [hq]
  rw [exec, execAbsorb_of_blockLeft hi hn hlt, absorbBlock_of_bytes hb hi hh hc hbs, unlessFault_next,
    if_neg hnf]
  exact afterAbsorb_of_counters hi hn

/-- Settles O24: `S` is `tailBuffer` of the bytes read. -/
theorem tailStartsScratchBuffer : Obligations.TailStartsScratchBuffer := by
  intro s base nfull rest bs hq hb hn hr _ hbs
  have hnf : s.seq ≠ .sFault := by simp [hq]
  refine ⟨tailBuffer rest bs, ?_, fun k hk => ?_⟩
  · simp only [exec, execTail, tail_of_bytes hb hn hr hbs, unlessFault_next, if_neg hnf, goTo]
  · rw [tailBuffer, Vector.getElem_ofFn, List.getD_eq_getElem?_getD, List.getElem!_eq_getElem?_getD]
    rfl

/-! ### S_PADLEN, S_PADCOMP -/

theorem toNat_be64Byte (v : Quad) (k : Nat) :
    (be64Byte v k).toNat = v.toNat / 2 ^ (56 - 8 * k) % 256 := by
  rw [be64Byte, BitVec.extractLsb'_toNat, Nat.shiftRight_eq_div_pow]

/-- The bit length of a message within `MAX_LEN_BYTES` fits its 64 bits (R87, R96). -/
theorem toNat_bitLength {len : Quad} (h : len.toNat ≤ 2 ^ 61 - 1) :
    (len * 8).toNat = len.toNat * 8 := by
  rw [BitVec.toNat_mul]
  exact Nat.mod_eq_of_lt (show len.toNat * 8 < 2 ^ 64 by omega)

theorem putLength_outside (v : Quad) {at' k : Nat} (buf : Vector Byte 128) (hk : k < 128)
    (h : k < at' ∨ at' + 8 ≤ k) : (putLength v at' buf)[k] = buf[k] := by
  have hnot : ¬ (at' ≤ k ∧ k < at' + 8) := by omega
  simp [putLength, hnot]

theorem putLength_inside (v : Quad) {at' k : Nat} (buf : Vector Byte 128) (hk : k < 8)
    (hat : at' + 8 ≤ 128) : (putLength v at' buf)[at' + k]! = be64Byte v k := by
  have hlt : at' + k < 128 := by omega
  simp [putLength, getElem!_pos, hlt, hk]

/-- Settles O25: the field is where the last pad block ends, and its bytes are those of `8·L`, which does
not overflow. -/
theorem padlenWritesLengthField : Obligations.PadlenWritesLengthField := by
  intro s len rest buf hl hr hS hmax
  have hat : lengthAt (padBlocks rest) + 8 ≤ 128 := by
    unfold lengthAt
    split_ifs <;> decide
  refine ⟨len * 8, padBlocks rest, lengthAt (padBlocks rest), _, ?_, toNat_bitLength hmax, ?_, ?_,
    fun k hk => putLength_outside (len * 8) buf hk, fun k hk => ?_⟩
  · simp only [exec, execPadlen, padlen_of_scratch hl hr hS, andThen_next]
  · intro h
    have hone : padBlocks rest = 1 := by rw [padBlocks_eq, if_neg (by omega)]
    exact ⟨hone, hone ▸ rfl⟩
  · intro h
    have htwo : padBlocks rest = 2 := by rw [padBlocks_eq, if_pos h]
    exact ⟨htwo, htwo ▸ rfl⟩
  · rw [putLength_inside _ _ hk hat, toNat_be64Byte]

/-- Settles O26: the block is `padBlock`, and the row goes on by its counters. -/
theorem padcompCompressesPadBlock : Obligations.PadcompCompressesPadBlock := by
  intro s buf j npad h n hS hj hj2 hn hh hc
  refine ⟨padBlock buf ⟨j, hj2⟩, fun k hk => by simp [padBlock], ?_⟩
  rw [exec, execPadcomp, padcompBlock_of_scratch (j := ⟨j, hj2⟩) hS hj hh hc, andThen_next, ← hS]
  exact afterPadcomp_of_counters hj hn

/-! ### S_SERIALIZE -/

theorem toNat_be32Byte (w : Word) (k : Nat) :
    (be32Byte w k).toNat = w.toNat / 2 ^ (24 - 8 * k) % 256 := by
  rw [be32Byte, BitVec.extractLsb'_toNat, Nat.shiftRight_eq_div_pow]

/-- Settles O27: `digestBytes` takes the words of `H` in order, each from its top byte down. -/
theorem serializeWritesDigest : Obligations.SerializeWritesDigest := by
  intro s h hh hd
  refine ⟨digestBytes h, ?_, fun k hk => ?_⟩
  · rw [show exec .serialize s = _ from serialize_of_hash hh hd]
    simp only [discardInternals, noSchedule, hd]
  · simp [digestBytes, toNat_be32Byte]

/-! ### The row that a step runs -/

theorem roundStep_of_noBlock {s : State} (hfull : s.seq ≠ .sAbsorb) (hpad : s.seq ≠ .sPadcomp) :
    roundStep s = tableStep s := by
  unfold roundStep
  cases hq : s.seq with
  | sAbsorb => exact absurd hq hfull
  | sPadcomp => exact absurd hq hpad
  | _ => rfl

theorem roundStep_of_noBlockLeft {s : State} {i nfull : Nat} (hq : s.seq = .sAbsorb)
    (hi : s.i = some i) (hn : s.nfull = some nfull) (hle : nfull ≤ i) :
    roundStep s = tableStep s := by
  simp only [roundStep, tableStep, stepAt, hq, ifBlocksLeft, hi, hn, need_some,
    if_neg (Nat.not_lt.mpr hle)]

/-- At the finest granularity the step is the whole row where there is no block to cut (R81). -/
theorem step_of_stepAt_of_round {s : State} {i : Instr} (hev : s.events = [])
    (hi : stepAt s.seq = some i) (hg : s.cfg.granularity = .round)
    (hrow : roundStep s = tableStep s) : step s = exec i s := by
  rw [step_of_busy hev (phase_of_stepAt hi)]
  simp only [busyStep, hg, hrow, tableStep, hi]

/-- Settles O54: the row by its position, and the program by what no operation of the sequencer
changes. -/
theorem stepRunsSequencerRow : Obligations.StepRunsSequencerRow := by
  intro s i hev hi hrow
  have hstep : step s = exec i s := by
    by_cases hg : s.cfg.granularity = .round
    · refine step_of_stepAt_of_round hev hi hg ?_
      rcases hrow with hne | ⟨hfull, hpad⟩ | ⟨hq, k, n, hk, hn, hle⟩
      · exact absurd hg hne
      · exact roundStep_of_noBlock hfull hpad
      · exact roundStep_of_noBlockLeft hq hk hn hle
    · exact step_of_stepAt hev hi hg
  refine ⟨hstep, fun t ht => ?_⟩
  obtain ⟨-, -, -, -, hprog, -⟩ := onlyWritesChangeOperands i s t (hstep.symm.trans ht)
  exact hprog

/-! ### The host's duties over a step -/

/-- Whether an action is legal depends on the parameters and on the device regions alone (R36, R48). -/
theorem HostAction.legal_congr {s t : State} (hcfg : t.cfg = s.cfg) (hdev : t.devices = s.devices)
    (a : HostAction) : a.legal t ↔ a.legal s := by
  cases a with
  | transaction w => simp only [HostAction.legal, hcfg]
  | store addr b => simp only [HostAction.legal, State.inDevice, hdev]
  | command v => exact .rfl
  | reset => exact .rfl

/-- A program that is kept, or loses its first line, stays legal on the same platform (R48, R136). -/
theorem dutiful_of_samePlatform {s t : State} (h : s.dutiful) (hcfg : t.cfg = s.cfg)
    (hdev : t.devices = s.devices) (hev : t.events = s.events)
    (hprog : t.program = s.program ∨ ∃ a, s.program = a :: t.program) : t.dutiful := by
  obtain ⟨hlegal, hev₀, hdev₀⟩ := h
  have hsub : ∀ a ∈ t.program, a ∈ s.program := by
    rcases hprog with h | ⟨b, h⟩
    · exact h ▸ fun _ ha => ha
    · exact h ▸ fun _ ha => List.mem_cons_of_mem b ha
  exact ⟨fun a ha => (HostAction.legal_congr hcfg hdev a).mpr (hlegal a (hsub a ha)),
    hev.trans hev₀, hdev.trans hdev₀⟩

/-- Settles O50: with no other agent the step is `ownStep`, whose one other end from the invariant is a
refusal, which takes a breach of these duties. -/
theorem dutifulHostNeverStops : Obligations.DutifulHostNeverStops := by
  intro s hinv hduty
  obtain ⟨hlegal, hev, hdev⟩ := id hduty
  have hstep : step s = ownStep s := by simp only [step, stepMachine, hev]
  rw [hstep]
  rcases ownStep_cases hinv with ⟨t, ht, hinv', hcfg', hdev', hev', hprog⟩ | ⟨x, -, hbreach⟩
  · exact ⟨t, ht, hinv', dutiful_of_samePlatform hduty hcfg' hdev' hev' hprog⟩
  · exact (hbreach hlegal hdev).elim

end Sys2Proof.Machine
end

section
/-! The hex string of a digest and its debug dump (44_digest_formatting.md). -/

namespace Sys2Proof.Machine

/-! ### Strings made of pieces of one length -/

/-- Pieces of one length stand at the multiples of that length. -/
theorem take_drop_flatMap_of_length {α β : Type} {f : α → List β} {n : Nat}
    (hf : ∀ a, (f a).length = n) (l : List α) (j : Nat) (h : j < l.length) :
    ((l.flatMap f).drop (n * j)).take n = f l[j] := by
  induction l generalizing j with
  | nil => exact absurd h (Nat.not_lt_zero j)
  | cons a l ih =>
    rw [List.flatMap_cons]
    cases j with
    | zero => exact List.take_left' (hf a)
    | succ j =>
      have hskip : n * (j + 1) = (f a).length + n * j := by rw [hf, Nat.mul_succ, Nat.add_comm]
      rw [hskip, List.drop_length_add_append]
      exact ih j (Nat.lt_of_succ_lt_succ h)

/-- A string of one piece for each byte of a digest, all of one length. -/
theorem length_flatMap_digest {β : Type} {f : Byte → List β} {n : Nat}
    (hf : ∀ b, (f b).length = n) (d : Vector Byte 32) : (d.toList.flatMap f).length = 32 * n := by
  rw [List.length_flatMap, funext hf, List.map_const', List.sum_replicate_nat, Vector.length_toList]

/-- The piece of byte `j` of a digest. -/
theorem take_drop_flatMap_digest {β : Type} {f : Byte → List β} {n : Nat}
    (hf : ∀ b, (f b).length = n) (d : Vector Byte 32) (j : Nat) (h : j < 32) :
    ((d.toList.flatMap f).drop (n * j)).take n = f d[j] := by
  rw [take_drop_flatMap_of_length hf d.toList j (by simpa using h), Vector.getElem_toList]

/-! ### The digits of a byte -/

/-- The sixteen digits of R101, lowercase. -/
def hexDigits : List Char :=
  ['0', '1', '2', '3', '4', '5', '6', '7', '8', '9', 'a', 'b', 'c', 'd', 'e', 'f']

theorem hexDigit_mem_hexDigits : ∀ n < 16, hexDigit n ∈ hexDigits := by decide

/-- `unhex` is the inverse of `hexdigit` (R104). -/
theorem unhex_hexDigit : ∀ n < 16, unhex (hexDigit n) = n := by decide

theorem length_hexByte (b : Byte) : (hexByte b).length = 2 := rfl

/-- Both nibbles of a byte are below 16. -/
theorem nibbles_lt (b : Byte) : b.toNat / 16 < 16 ∧ b.toNat % 16 < 16 := by
  have := b.isLt
  omega

theorem mem_hexDigits_of_mem_hexByte {b : Byte} {c : Char} (h : c ∈ hexByte b) :
    c ∈ hexDigits := by
  obtain ⟨hhi, hlo⟩ := nibbles_lt b
  rcases List.mem_pair.mp h with rfl | rfl
  · exact hexDigit_mem_hexDigits _ hhi
  · exact hexDigit_mem_hexDigits _ hlo

/-! ### The hex string -/

theorem hexDecode_cons_cons (hi lo : Char) (cs : List Char) :
    hexDecode (hi :: lo :: cs) = BitVec.ofNat 8 (16 * unhex hi + unhex lo) :: hexDecode cs := rfl

/-- The decoder reads one byte from its two digits (R104). -/
theorem hexDecode_hexByte_append (b : Byte) (cs : List Char) :
    hexDecode (hexByte b ++ cs) = b :: hexDecode cs := by
  obtain ⟨hhi, hlo⟩ := nibbles_lt b
  have hval : 16 * (b.toNat / 16) + b.toNat % 16 = b.toNat := Nat.div_add_mod _ _
  rw [hexByte, List.cons_append, List.cons_append, List.nil_append, hexDecode_cons_cons,
    unhex_hexDigit _ hhi, unhex_hexDigit _ hlo, hval, BitVec.ofNat_toNat, BitVec.setWidth_eq]

theorem hexDecode_flatMap_hexByte (bs : List Byte) : hexDecode (bs.flatMap hexByte) = bs := by
  induction bs with
  | nil => rfl
  | cons b bs ih => rw [List.flatMap_cons, hexDecode_hexByte_append, ih]

/-- Settles O59: every byte adds two digits, and the decoder takes them off again. -/
theorem hexRoundTrips : Obligations.HexRoundTrips := by
  refine fun d => ⟨length_flatMap_digest length_hexByte d, fun c hc => ?_,
    hexDecode_flatMap_hexByte d.toList, rfl⟩
  obtain ⟨b, -, hb⟩ := List.mem_flatMap.mp hc
  exact mem_hexDigits_of_mem_hexByte hb

/-- The two characters of byte `j` in the hex string (R101). -/
theorem digestToHex_pair (d : Vector Byte 32) (j : Nat) (h : j < 32) :
    ((digestToHex d).drop (2 * j)).take 2 = hexByte d[j] :=
  take_drop_flatMap_digest length_hexByte d j h

/-! ### The debug dump -/

/-- A line of the dump in the default style: a byte's two digits and the line break (R103). -/
def dumpLine (b : Byte) : List Char := hexByte b ++ ['\n']

theorem length_dumpLine (b : Byte) : (dumpLine b).length = 3 := rfl

theorem printDigest_default (sink : List Char) (d : Vector Byte 32) :
    printDigest {} sink d = sink ++ d.toList.flatMap dumpLine := rfl

/-- Settles O60: the dump is the sink and then lines of three characters, so line `j` begins `3 * j`
characters after the sink. -/
theorem dumpPrintsOneBytePerLine : Obligations.DumpPrintsOneBytePerLine := by
  intro sink d
  rw [printDigest_default]
  refine ⟨?_, List.take_left, fun j h => ?_⟩
  · rw [List.length_append, length_flatMap_digest length_dumpLine]
  · rw [List.drop_length_add_append, digestToHex_pair d j h]
    exact take_drop_flatMap_digest length_dumpLine d j h

end Sys2Proof.Machine
end

section
/-! Fault entry, bad arguments, and the machine in FAULT (60_exceptions.md). -/

namespace Sys2Proof.Machine

/-! ### Causes raised from the accepting states -/

/-- What `raise` discards covers what acceptance wrote (R82, R117). -/
theorem raise_acceptDigest (x : Err) (s : State) : raise x (acceptDigest s) = raise x s := rfl

/-- A command whose operands name a cause ends with it, with no look at memory (R83). -/
theorem exec_digest_of_argumentError {s : State} {x : Err} (hacc : s.accepting)
    (hgran : s.cfg.granularity = .command)
    (hx : argumentError s.cfg s.msgBase s.msgLen = some x) :
    exec .digest s = .next (raise x s) := by
  rw [exec_digest_of_accepting hacc, runDigest_of_command hgran,
    digestBody_of_argumentError (acceptDigest_base s) (acceptDigest_len s) hx, raise_acceptDigest]

/-- Settles O31, cause by cause: `CHECK` names each for the operands that acceptance sampled. -/
theorem digestRejectsBadArguments : Obligations.DigestRejectsBadArguments := by
  intro s hacc hgran
  refine ⟨fun hbase => ?_, fun hbase hlen hrej => ?_, fun hbase hlen => ?_⟩ <;>
    apply exec_digest_of_argumentError hacc hgran
  · rw [hbase, argumentError_of_nullBase]
  · rw [hlen, argumentError_of_zeroLen hbase hrej]
  · exact argumentError_of_lenOverflow _ hbase hlen

theorem exec_reserved_of_accepting {s : State} (h : s.accepting) (op : Quad) :
    exec (.reserved op) s = .next (raise .illegalCmd s) := by
  rcases h with h | h <;> simp only [exec, execReserved, issue, h]

/-- A value of `CMD` other than 1 is a reserved command (R47). -/
theorem exec_wr_cmd_of_ne_one (s : State) {op : Quad} (hop : op ≠ 1) :
    exec (.wr .cmd op) s = exec (.reserved op) s := by
  rw [exec_wr_cmd, writeCommand, if_neg hop]
  rfl

/-- Settles O35: `u` is `raise x s` field by field, and both ways to issue a reserved command raise. -/
theorem faultEntryErasesResults : Obligations.FaultEntryErasesResults := by
  rintro s u op x rfl
  refine ⟨rfl, ?_⟩
  rintro rfl hop hacc
  rw [exec_wr_cmd_of_ne_one s hop]
  exact ⟨exec_reserved_of_accepting hacc op, exec_reserved_of_accepting hacc op⟩

/-! ### The machine in FAULT -/

/-- In `FAULT` no command runs (R118). -/
theorem issue_of_fault {s : State} (h : s.phase = .fault) (run : State → Result) :
    issue run s = .next s := by
  simp only [issue, h]

theorem exec_digest_of_fault {s : State} (h : s.phase = .fault) : exec .digest s = .next s :=
  issue_of_fault h runDigest

theorem exec_reserved_of_fault {s : State} (h : s.phase = .fault) (op : Quad) :
    exec (.reserved op) s = .next s :=
  issue_of_fault h fun s => .next (raise .illegalCmd s)

/-- Either command that the value can stand for is ignored (R47, R118). -/
theorem exec_wr_cmd_of_fault {s : State} (h : s.phase = .fault) (v : Quad) :
    exec (.wr .cmd v) s = .next s := by
  by_cases hv : v = 1
  · rw [exec_wr_cmd, writeCommand, if_pos hv]
    exact exec_digest_of_fault h
  · rw [exec_wr_cmd_of_ne_one s hv, exec_reserved_of_fault h]

/-- A next state is in `FAULT` with the cause of `s`. -/
def KeepsFault (s : State) (r : Result) : Prop :=
  ∀ t, r = .next t → t.phase = .fault ∧ t.err = s.err

namespace KeepsFault

variable {s t : State}

theorem next (hphase : t.phase = .fault) (herr : t.err = s.err) : KeepsFault s (.next t) := by
  rintro _ ⟨⟩
  exact ⟨hphase, herr⟩

theorem refused (x : Refusal) : KeepsFault s (.refused x) := by
  rintro _ ⟨⟩

end KeepsFault

theorem readRegister_keepsFault {s : State} (h : s.phase = .fault) (reg : HostReg) :
    KeepsFault s (.next (readRegister reg s)) := by
  obtain ⟨v, n, hframe⟩ := readRegister_frame reg s
  rw [hframe]
  exact .next h rfl

theorem writeRegister_keepsFault {s : State} (h : s.phase = .fault) (reg : HostReg) (v : Quad) :
    KeepsFault s (.next (writeRegister reg v s)) := by
  obtain ⟨a, l, hframe⟩ := writeRegister_frame reg v s
  rw [hframe]
  exact .next h rfl

/-- What a word can decode to: commands are ignored, a write or read is one of `writeRegister` or
`readRegister` (R49, R118). -/
theorem exec_keepsFault_of_decode {s : State} {w : HostWord} {i : Instr} (h : s.phase = .fault)
    (hi : decode w = .ok i) : KeepsFault s (exec i s) := by
  have hb : s.phase ≠ .busy := by simp [h]
  rcases Laws.decode_cases hi with rfl | ⟨op, rfl⟩ | ⟨reg, v, rfl⟩ | ⟨reg, rfl⟩
  · rw [exec_digest_of_fault h]
    exact .next h rfl
  · rw [exec_reserved_of_fault h]
    exact .next h rfl
  · by_cases hreg : reg = .cmd
    · rw [hreg, exec_wr_cmd_of_fault h]
      exact .next h rfl
    · rw [exec_wr_register hb hreg]
      exact writeRegister_keepsFault h reg v
  · rw [exec_rd_register hb]
    exact readRegister_keepsFault h reg

theorem readWithData_keepsFault {s : State} (h : s.phase = .fault) (reg : HostReg) :
    KeepsFault s (readWithData reg s) := by
  simp only [readWithData, h]
  exact .next h rfl

theorem runWord_keepsFault {s : State} (h : s.phase = .fault) (w : HostWord) :
    KeepsFault s (runWord w s) := by
  unfold runWord
  cases hw : decode w with
  | ok i => exact exec_keepsFault_of_decode h hw
  | error e =>
    cases e with
    | notATransaction k => exact .refused _
    | readDataNotZero reg data => exact readWithData_keepsFault h reg

theorem runAction_keepsFault {s : State} {a : HostAction} (h : s.phase = .fault)
    (ha : a ≠ .reset) : KeepsFault s (runAction a s) := by
  cases a with
  | transaction w => exact runWord_keepsFault h (.transaction w)
  | command v => exact runWord_keepsFault h (.command v)
  | store addr b =>
    rcases storeByte_cases addr b s with ⟨-, hst⟩ | ⟨-, hst⟩ <;> rw [runAction, hst]
    · exact .refused _
    · exact .next h rfl
  | reset => exact absurd rfl ha

/-- In `FAULT` the host goes on with its program; the sequencer waits (R118, R136). -/
theorem ownStep_keepsFault {s : State} (h : s.phase = .fault)
    (hp : s.program.head? ≠ some .reset) : KeepsFault s (ownStep s) := by
  simp only [ownStep, h]
  cases hprog : s.program with
  | nil => exact .next h rfl
  | cons a rest =>
    exact runAction_keepsFault (s := { s with program := rest }) h (by simpa [hprog] using hp)

/-- The pending event decides who acts: another agent, or the issuing host. -/
theorem step_keepsFault {s : State} (h : s.phase = .fault)
    (hev : s.events.head? ≠ some (some .reset))
    (hp : s.program.head? ≠ some .reset ∨ ∃ e r, s.events = some e :: r) :
    KeepsFault s (step s) := by
  unfold step stepMachine
  cases he : s.events with
  | nil => exact ownStep_keepsFault h (hp.resolve_right (by simp [he]))
  | cons e rest =>
    cases e with
    | none =>
      exact ownStep_keepsFault (s := { s with events := rest }) h
        (hp.resolve_right (by simp [he]))
    | some a =>
      exact runAction_keepsFault (s := { s with events := rest }) h (by simpa [he] using hev)

/-- Settles O36: commands are ignored by `issue`, operand writes are those outside `BUSY`, and every
action of a step but the reset keeps the fault. -/
theorem faultAbsorbsUntilReset : Obligations.FaultAbsorbsUntilReset := by
  intro s h
  have hb : s.phase ≠ .busy := by simp [h]
  exact ⟨exec_digest_of_fault h, exec_reserved_of_fault h, exec_wr_cmd_of_fault h,
    fun v => (writeSetsOperand s v hb).1, fun v => (writeSetsOperand s v hb).2,
    fun t ht hev hp => step_keepsFault h hev hp t ht⟩

end Sys2Proof.Machine
end

section
/-! What a step runs: the word taken from the program or presented by another agent, and the reset input (70_reset_and_hazards.md). -/

namespace Sys2Proof.Machine

/-! ### Who acts in a step -/

theorem step_of_event {s : State} {a : HostAction} {rest : List (Option HostAction)}
    (hev : s.events = some a :: rest) : step s = runAction a { s with events := rest } := by
  simp only [step, stepMachine, hev]

theorem step_of_noEvents {s : State} (hev : s.events = []) : step s = ownStep s := by
  simp only [step, stepMachine, hev]

/-- An entry in which other agents do nothing is only taken off the list (log entry 11). -/
theorem step_of_emptyEvent {s : State} {rest : List (Option HostAction)}
    (hev : s.events = none :: rest) : step s = ownStep { s with events := rest } := by
  simp only [step, stepMachine, hev]

/-- The host is blocked only while a command runs (R98). -/
theorem ownStep_of_line {s : State} {a : HostAction} {rest : List HostAction}
    (hb : s.phase ≠ .busy) (hp : s.program = a :: rest) :
    ownStep s = runAction a { s with program := rest } := by
  unfold ownStep
  cases hphase : s.phase with
  | busy => exact absurd hphase hb
  | _ => simp only [hp]

/-- With the program over nothing happens (R136). -/
theorem ownStep_of_programOver {s : State} (hb : s.phase ≠ .busy) (hp : s.program = []) :
    ownStep s = .next s := by
  unfold ownStep
  cases hphase : s.phase with
  | busy => exact absurd hphase hb
  | _ => simp only [hp]

theorem step_of_line {s : State} {a : HostAction} {rest : List HostAction} (hev : s.events = [])
    (hb : s.phase ≠ .busy) (hp : s.program = a :: rest) :
    step s = runAction a { s with program := rest } :=
  (step_of_noEvents hev).trans (ownStep_of_line hb hp)

/-! ### What the action does -/

theorem runWord_of_decode {w : HostWord} {i : Instr} (h : decode w = .ok i) (s : State) :
    runWord w s = exec i s := by
  simp only [runWord, h]

/-- Settles O46: the action is `engineReset`, which looks at no phase and keeps what is pending
outside. -/
theorem resetReachesResetState : Obligations.ResetReachesResetState := by
  rintro s u rfl
  exact ⟨fun _ hev => step_of_event hev, fun _ hev hb hp => step_of_line hev hb hp⟩

/-- Settles O53: the step is the action of who acts, and that of a word is what it decodes to; an empty
entry leaves the engine and its host, who do not look at what other agents do later. -/
theorem stepRunsDecodedWord : Obligations.StepRunsDecodedWord := by
  intro s i w v
  refine ⟨fun _ hev hb hp hd => (step_of_line hev hb hp).trans (runWord_of_decode hd _),
    fun _ hev hb hp hd => (step_of_line hev hb hp).trans (runWord_of_decode hd _),
    fun _ hev hd => (step_of_event hev).trans (runWord_of_decode hd _),
    fun _ hev hd => (step_of_event hev).trans (runWord_of_decode hd _),
    fun hev hb hp => (step_of_noEvents hev).trans (ownStep_of_programOver hb hp),
    fun rest hev => ?_⟩
  calc step s = ownStep { s with events := rest } := step_of_emptyEvent hev
    _ = mapNext (State.expecting rest) (ownStep { s with events := [] }) :=
      ownStep_oblivious { s with events := [] } rest
    _ = mapNext (State.expecting rest) (step { s with events := [] }) := by
      rw [step_of_noEvents rfl]

end Sys2Proof.Machine
end

section
/-! Message memory as a list: what a write from outside undoes and leaves (20_memory.md R37, log entry 8). -/

namespace Sys2Proof.Machine

namespace MemoryLaws

/-- A write goes through the list as a lookup does, and where that finds nothing there is nothing to
overwrite (log entry 8). -/
theorem write_of_unlisted {m : Memory} {a : Nat} (h : m.lookup a = none) (b : Byte) :
    m.write a b = m := by
  induction m with
  | nil => rfl
  | cons cell m ih =>
    obtain ⟨k, v⟩ := cell
    by_cases hk : k = a
    · simp [Memory.lookup, hk] at h
    · rw [Memory.lookup, if_neg hk] at h
      rw [Memory.write, if_neg hk, ih h]

/-- The later of two writes to an address decides. -/
theorem write_write (m : Memory) (a : Nat) (b c : Byte) :
    (m.write a b).write a c = m.write a c := by
  induction m with
  | nil => rfl
  | cons cell m ih =>
    obtain ⟨k, v⟩ := cell
    by_cases hk : k = a
    · simp only [Memory.write, if_pos hk]
    · simp only [Memory.write, if_neg hk, ih]

theorem write_of_lookup {m : Memory} {a : Nat} {c : Byte} (h : m.lookup a = some c) :
    m.write a c = m := by
  induction m with
  | nil => cases h
  | cons cell m ih =>
    obtain ⟨k, v⟩ := cell
    by_cases hk : k = a
    · rw [Memory.lookup, if_pos hk] at h
      cases h
      rw [Memory.write, if_pos hk]
    · rw [Memory.lookup, if_neg hk] at h
      rw [Memory.write, if_neg hk, ih h]

end MemoryLaws

/-- Settles O58: `write_lookup` answers the reads, and writing the old byte again is writing it at
once, over itself. -/
theorem memoryWriteReadsBack : Obligations.MemoryWriteReadsBack := by
  intro cfg m a x b c hwf
  refine ⟨MemoryLaws.write_wf a b hwf, fun h => MemoryLaws.write_of_unlisted h b, fun hx => ?_,
    fun h => ⟨?_, ?_⟩⟩
  · rw [MemoryLaws.write_lookup, if_neg hx]
  · rw [MemoryLaws.write_lookup, if_pos rfl, h, Option.map_some]
  · rw [MemoryLaws.write_write, MemoryLaws.write_of_lookup h]

end Sys2Proof.Machine
end

section
/-! Words the spec writes out, and words that are no transaction (30_encoding.md R48, U7). -/

namespace Sys2Proof.Machine

/-- Settles O3: eight fixed words, each decoded by evaluation. -/
theorem specWordsDecode : Obligations.SpecWordsDecode := by
  unfold Obligations.SpecWordsDecode
  decide

theorem decode_of_readWithData {w : BitVec 80} (hkind : htKind w = 0x00) (hdata : htData w ≠ 0) :
    decode (.transaction w) =
      .error (.readDataNotZero (decodeReg (htReg w)) (htData w)) := by
  rw [decode, decodeTransaction, if_neg (by rw [hkind]; decide), if_pos hkind, if_neg hdata]

theorem decode_of_otherKind {w : BitVec 80} (hread : htKind w ≠ 0x00) (hwrite : htKind w ≠ 0x01) :
    decode (.transaction w) = .error (.notATransaction (htKind w)) := by
  rw [decode, decodeTransaction, if_neg hwrite, if_neg hread]

/-- A read word with data only adds to the log of reads (R48). -/
theorem readWithData_of_notBusy {s : State} (hb : s.phase ≠ .busy) (reg : HostReg) :
    readWithData reg s = .next (logRead reg none s) := by
  unfold readWithData
  cases hp : s.phase with
  | busy => exact absurd hp hb
  | idle | done | fault => rfl

/-- Settles O4: the step presents the word, and each kind of decode error has its own answer. -/
theorem malformedWordHasNoEffect : Obligations.MalformedWordHasNoEffect := by
  intro s w rest hb hev hp
  rw [step_of_line hev hb hp, runAction, runWord]
  constructor
  · intro hkind hdata
    rw [decode_of_readWithData hkind hdata]
    exact readWithData_of_notBusy (s := { s with program := rest }) hb (decodeReg (htReg w))
  · intro hread hwrite
    rw [decode_of_otherKind hread hwrite]

end Sys2Proof.Machine
end

section
/-! Memory writes by agents outside the engine, and the digest of a disturbed message (70_reset_and_hazards.md R132, U9, U10). -/

namespace Sys2Proof.Machine

/-! ### Which bytes are the running message's -/

theorem inRunningMessage_iff {s : State} {a : Nat} :
    s.inRunningMessage a = true ↔
      s.phase = .busy ∧ ∃ base len : Quad, s.base = some base ∧ s.len = some len ∧
        base.toNat ≤ a ∧ a < base.toNat + len.toNat := by
  unfold State.inRunningMessage
  cases s.base <;> cases s.len <;> simp [and_assoc]

/-- Outside `BUSY`, or away from the message on either side, no byte of a running command is written. -/
theorem inRunningMessage_eq_false {s : State} {a : Nat}
    (h : s.phase ≠ .busy ∨ ∀ base len : Quad, s.base = some base → s.len = some len →
      a < base.toNat ∨ base.toNat + len.toNat ≤ a) : s.inRunningMessage a = false := by
  rw [← Bool.not_eq_true, inRunningMessage_iff]
  rintro ⟨hbusy, base, len, hbase, hlen, hlow, hhigh⟩
  rcases h with hb | hout
  · exact hb hbusy
  · have := hout base len hbase hlen
    omega

/-! ### The write -/

theorem storeByte_of_inDevice {s : State} {a : Nat} (hd : s.inDevice a = true) (b : Byte) :
    storeByte a b s = .refused (.deviceAccess a) := if_pos hd

/-- A write to a message byte of the running command is done and noted (R132, log entry 9). -/
theorem storeByte_of_inRunningMessage {s : State} {a : Nat} (hd : s.inDevice a = false)
    (hm : s.inRunningMessage a = true) (b : Byte) :
    storeByte a b s = .next { s with mem := s.mem.write a b, disturbed := true } := by
  rw [storeByte, if_neg (by simp [hd]), hm, Bool.or_true]

/-- Any other write is done and noted nowhere. -/
theorem storeByte_of_notInRunningMessage {s : State} {a : Nat} (hd : s.inDevice a = false)
    (hm : s.inRunningMessage a = false) (b : Byte) :
    storeByte a b s = .next { s with mem := s.mem.write a b } := by
  rw [storeByte, if_neg (by simp [hd]), hm, Bool.or_false]

/-! ### The digest -/

/-- `SERIALIZE` after a noted write draws 32 free bytes for `D` (U10, log entry 9). -/
theorem serialize_of_disturbed {s : State} {h : Hash} (hh : s.hash = some h)
    (hd : s.disturbed = true) :
    serialize s = .next { discardInternals s with
      digest := some (freeDigest s.freeCount), seq := .sDone, freeCount := s.freeCount + 32 } := by
  simp only [serialize, hh, need_some, finalDigest, hd, if_true]

theorem getElem_freeDigest (n : Nat) {k : Nat} (hk : k < 32) :
    (freeDigest n)[k] = (Config.freeValue (n + k)).setWidth 8 := by
  rw [freeDigest, Vector.getElem_ofFn]

/-- Settles O28: the step of a write is `storeByte`, which splits on the device regions and on the
running message; what it noted makes the digest of `SERIALIZE` the free one. -/
theorem disturbedMessageFreesDigest : Obligations.DisturbedMessageFreesDigest := by
  refine ⟨fun s a b rest hev => ?_, fun s a b rest hev hb hp => ?_, fun s h hh hd => ?_⟩
  · rw [step_of_event hev]
    refine ⟨fun hdev => storeByte_of_inDevice (s := { s with events := rest }) hdev b, fun hdev =>
      ⟨fun base len hbusy hbase hlen hlow hhigh => ?_, fun hout => ?_⟩⟩
    · exact storeByte_of_inRunningMessage (s := { s with events := rest }) hdev
        (inRunningMessage_iff.mpr ⟨hbusy, base, len, hbase, hlen, hlow, hhigh⟩) b
    · exact storeByte_of_notInRunningMessage (s := { s with events := rest }) hdev
        (inRunningMessage_eq_false hout) b
  · rw [step_of_line hev hb hp]
    exact ⟨fun hdev => storeByte_of_inDevice (s := { s with program := rest }) hdev b, fun hdev =>
      storeByte_of_notInRunningMessage (s := { s with program := rest }) hdev
        (inRunningMessage_eq_false (.inl hb)) b⟩
  · exact ⟨freeDigest s.freeCount, serialize_of_disturbed hh hd,
      fun k hk => getElem_freeDigest s.freeCount hk⟩

end Sys2Proof.Machine
end

section
/-! Host accesses without a defined answer, and the state after reset (70_reset_and_hazards.md R133, R134, U6, U8; 10_state.md R27). -/

namespace Sys2Proof.Machine

/-! ### Reads with no defined value -/

/-- A readable register without a defined value gives the next free value, cut to its width (U6, log
entry 3). -/
theorem readRegister_of_undefined {reg : HostReg} {s : State} (hr : reg.readable = true)
    (h : definedRead reg s = none) :
    readRegister reg s =
      logRead reg (some (cutToWidth reg (drawFree s).1)) (drawFree s).2 := by
  cases reg with
  | cmd | unlisted => cases hr
  | status | msgBase | msgLen | blocks | digest => simp only [readRegister, h]

/-- Settles O44: in these phases `D` and `BLOCKS` have no defined value. -/
theorem undefinedReadIsFree : Obligations.UndefinedReadIsFree := by
  intro s
  constructor
  · rintro j (hp | hp) <;>
    · rw [exec_rd_register (by simp [hp]),
        readRegister_of_undefined rfl (by simp only [definedRead, hp])]
      rfl
  · intro hp
    rw [exec_rd_register (by simp [hp]),
      readRegister_of_undefined rfl (by simp only [definedRead, hp])]
    rfl

/-! ### Accesses while BUSY -/

/-- While `BUSY` no command is accepted (U8, log entry 6). -/
theorem issue_of_busy {s : State} (h : s.phase = .busy) (run : State → Result) :
    issue run s = .refused .accessWhileBusy := by
  simp only [issue, h]

theorem exec_digest_busy {s : State} (hb : s.phase = .busy) :
    exec .digest s = .refused .accessWhileBusy :=
  issue_of_busy hb runDigest

theorem exec_reserved_busy {s : State} (hb : s.phase = .busy) (op : Quad) :
    exec (.reserved op) s = .refused .accessWhileBusy :=
  issue_of_busy hb fun s => .next (raise .illegalCmd s)

theorem exec_rd_busy {s : State} (hb : s.phase = .busy) {reg : HostReg} (hreg : reg ≠ .status) :
    exec (.rd reg) s = .refused .accessWhileBusy := by
  simp only [exec, execRd, hb, if_neg hreg]

/-- Settles O45: each access looks at the phase first, and `STATUS` is the code of `BUSY` below that of
no error. -/
theorem busyRefusesAccess : Obligations.BusyRefusesAccess := by
  intro s hb
  refine ⟨exec_digest_busy hb, exec_reserved_busy hb, exec_wr_busy hb,
    fun _ => exec_rd_busy hb, fun herr => ?_⟩
  have hstatus : statusByte s = 0x01 := by
    rw [statusByte, herr, hb]
    rfl
  rw [exec_rd_status, readRegister_of_defined rfl, hstatus]
  rfl

/-! ### The state after reset -/

/-- Settles O47: reset memory is canonical, `MSG_BASE` is 0, and in `S_IDLE` nothing internal holds a
value (R27). -/
theorem resetMeetsInvariant : Obligations.ResetMeetsInvariant :=
  have herr : State.reset.err = .none ↔ State.reset.phase ≠ .fault :=
    iff_of_true rfl (by decide)
  ⟨reset_mem_wf, Nat.two_pow_pos _, herr, rfl, rfl, rfl⟩

end Sys2Proof.Machine
end
